-- ==== Sys2Proof/Word.lean ====
section
/-! DEFINITION. The word and byte types (spec/00_scope.md R6, R7: 32-bit words, bit 0 least significant). -/

namespace Sys2Proof

/-- One byte lane of the host bus (20_memory.md R62). -/
abbrev Byte := BitVec 8

/-- A register value, a data word or a command word: 32 bits (00_scope.md R6). -/
abbrev Word := BitVec 32

end Sys2Proof
end

