-- ==== Sys2Proof/Config.lean ====
section
/-! DEFINITION. What an implementation fixes (00_scope.md R5) and the free values: constants with no body, so that
no proof can see what they are and a claim is true whatever they are. -/

namespace Sys2Proof

/-- Which binary32 value next to an exact real a faithful unit returns (40_datapath.md R132, R133). `between` matters only
where the model's two bounds have a value between them (log entries 8 and 9). -/
inductive Neighbour where
  | below
  | between
  | above
  deriving DecidableEq, Repr, Inhabited

namespace Config

/-- `NMAX`, the largest transform size (00_scope.md R5). -/
abbrev nmax : Nat := 65536

/-- `NMIN`, the smallest transform size (00_scope.md R5). -/
abbrev nmin : Nat := 2

/-- OPEN (00_scope.md R5): the host address of the device window. No rule of the block depends on it: the model's
accesses carry the offset from it (log entry 3). -/
opaque devBase : Nat

/-- OPEN (00_scope.md R5): the number of the platform interrupt line that `irq` drives. -/
opaque irqLine : Nat

/-- FREE VALUE (20_memory.md R79; 93 I8): what byte `a` of DMEM holds after power-on number `cycle`, until it is
written. -/
opaque powerOnByte (cycle a : Nat) : Byte

/-- FREE VALUE (20_memory.md R70, 70_reset_and_hazards.md R271; 93 I6, I7, I9): the unspecified value drawn for
the DMEM word `w` at draw number `draw`. -/
opaque freeWord (draw w : Nat) : Word

/-- FREE CHOICE (40_datapath.md R132; 93 I10): the neighbour of `e^x` that `EXP_F` returns for the operand `x`. -/
opaque expPick (x : Word) : Neighbour

/-- FREE CHOICE (40_datapath.md R132, "underflow toward +0.0 allowed"): whether `EXP_F` returns +0.0 for an operand
whose `e^x` is below the normal range. -/
opaque expFlush (x : Word) : Bool

/-- FREE CHOICE (40_datapath.md R133; 93 I11): the neighbour of `acos x` that `ACOS_F` returns for the operand `x`. -/
opaque acosPick (x : Word) : Neighbour

end Config

end Sys2Proof
end

