-- ==== Sys2Proof/Machine/Float.lean ====
section
/-! DEFINITION. IEEE 754 binary32 arithmetic (40_datapath.md R120 to R123, R131; 00_scope.md R8). Every finite value is
an integer multiple of 2^-149, so an operation computes its exact result as a quotient of integers in units of 2^-149
and rounds it once (log entry 18). -/

namespace Sys2Proof.Machine

/-! ## The encoding (00_scope.md R8) -/

/-- The pattern without its sign bit: `v with bit 31 cleared`, as an integer. -/
def absBits (x : Word) : Nat := x.toNat % 2 ^ 31

/-- The sign bit, bit 31. -/
def signBit (x : Word) : Bool := decide (2 ^ 31 ≤ x.toNat)

/-- The pattern of +infinity: exponent field 255, fraction 0. -/
def infBits : Nat := 0x7F800000

/-- The canonical quiet NaN (R122). -/
def canonicalNaN : Word := 0x7FC00000

/-- The magnitude of a finite pattern in units of 2^-149: the fraction for exponent field 0, else the fraction with its
leading one, shifted by the exponent field less 1. -/
def magnitude (bits : Nat) : Nat :=
  if bits / 2 ^ 23 = 0 then bits
  else (2 ^ 23 + bits % 2 ^ 23) * 2 ^ (bits / 2 ^ 23 - 1)

/-- What a pattern stands for: a NaN, an infinity, or (−1)^neg · k · 2^-149 (a zero keeps its sign). -/
inductive Binary32 where
  | nan
  | inf (neg : Bool)
  | fin (neg : Bool) (k : Nat)
  deriving DecidableEq, Repr

/-- The value of a pattern. -/
def unpack (x : Word) : Binary32 :=
  if infBits < absBits x then .nan
  else if absBits x = infBits then .inf (signBit x)
  else .fin (signBit x) (magnitude (absBits x))

/-- The pattern with the given sign and magnitude bits. -/
def withSign (neg : Bool) (bits : Nat) : Word :=
  BitVec.ofNat 32 (if neg then 2 ^ 31 + bits else bits)

/-- The infinity of a sign. -/
def infinity (neg : Bool) : Word := withSign neg infBits

/-- The zero of a sign. -/
def zero32 (neg : Bool) : Word := withSign neg 0

/-! ## Rounding (R120) -/

/-- The number of low bits beyond 24 significant ones in the integer part of `p / q`: the exponent of the unit in the
last place, in units of 2^-149. -/
def ulpShift (p q : Nat) : Nat := Nat.log2 (p / q) - 23

/-- The greatest binary32 magnitude not above `p / q` units of 2^-149, as a pattern with unbounded exponent. -/
def floorBits (p q : Nat) : Nat :=
  ulpShift p q * 2 ^ 23 + p / (q * 2 ^ ulpShift p q)

/-- The least binary32 magnitude not below `p / q` units, as a pattern with unbounded exponent. -/
def ceilBits (p q : Nat) : Nat :=
  if p % (q * 2 ^ ulpShift p q) = 0 then floorBits p q else floorBits p q + 1

/-- The nearest binary32 magnitude to `p / q` units, ties to even, as a pattern with unbounded exponent. -/
def nearestBits (p q : Nat) : Nat :=
  let d := q * 2 ^ ulpShift p q
  let r := p % d
  if d < 2 * r ∨ (2 * r = d ∧ p / d % 2 = 1) then floorBits p q + 1 else floorBits p q

/-- `p / q` units of 2^-149 with a sign, rounded to nearest with ties to even; "a result too large in magnitude becomes
the infinity of its sign" (R120). -/
def roundNearest (neg : Bool) (p q : Nat) : Word :=
  withSign neg (min (nearestBits p q) infBits)

/-! ## Operations (R120 to R123) -/

/-- `neg32`: inverts bit 31 and changes no other bit (R121). -/
def neg32 (a : Word) : Word := a ^^^ 0x80000000

/-- A signed magnitude as an integer number of units. -/
def signed (neg : Bool) (k : Nat) : Int := if neg then -(k : Int) else (k : Int)

/-- The sum of two finite values, exact and then rounded once. An exact zero is −0.0 when both operands are negative
(zeros), else +0.0 (R123). -/
def addFinite (na : Bool) (ka : Nat) (nb : Bool) (kb : Nat) : Word :=
  let sum := signed na ka + signed nb kb
  if sum = 0 then zero32 (na && nb) else roundNearest (decide (sum < 0)) sum.natAbs 1

/-- `add32` (R120). -/
def add32 (a b : Word) : Word :=
  match unpack a, unpack b with
  | .nan, _ => canonicalNaN
  | _, .nan => canonicalNaN
  | .inf na, .inf nb => if na = nb then infinity na else canonicalNaN
  | .inf na, .fin _ _ => infinity na
  | .fin _ _, .inf nb => infinity nb
  | .fin na ka, .fin nb kb => addFinite na ka nb kb

/-- `sub32` (R120): the difference is the sum with the second operand's sign inverted. -/
def sub32 (a b : Word) : Word := add32 a (neg32 b)

/-- `mul32` (R120): `ka · kb · 2^-298` is `ka · kb / 2^149` units. -/
def mul32 (a b : Word) : Word :=
  match unpack a, unpack b with
  | .nan, _ => canonicalNaN
  | _, .nan => canonicalNaN
  | .inf na, .inf nb => infinity (na ^^ nb)
  | .inf na, .fin nb kb => if kb = 0 then canonicalNaN else infinity (na ^^ nb)
  | .fin na ka, .inf nb => if ka = 0 then canonicalNaN else infinity (na ^^ nb)
  | .fin na ka, .fin nb kb => roundNearest (na ^^ nb) (ka * kb) (2 ^ 149)

/-- `div32` (R120): `ka / kb` is `ka · 2^149 / kb` units. -/
def div32 (a b : Word) : Word :=
  match unpack a, unpack b with
  | .nan, _ => canonicalNaN
  | _, .nan => canonicalNaN
  | .inf _, .inf _ => canonicalNaN
  | .inf na, .fin nb _ => infinity (na ^^ nb)
  | .fin na _, .inf nb => zero32 (na ^^ nb)
  | .fin na ka, .fin nb kb =>
    if kb = 0 then (if ka = 0 then canonicalNaN else infinity (na ^^ nb))
    else roundNearest (na ^^ nb) (ka * 2 ^ 149) kb

/-- The integer square root, one binary digit at a time from digit `fuel - 1` down: the greatest `r' ≥ r` reached with
`r'^2 ≤ n`. -/
def sqrtDigits (n : Nat) : Nat → Nat → Nat
  | 0, r => r
  | fuel + 1, r => if (r + 2 ^ fuel) * (r + 2 ^ fuel) ≤ n then sqrtDigits n fuel (r + 2 ^ fuel) else sqrtDigits n fuel r

/-- The integer part of the square root of `n`, for `n < 2^512`. -/
def isqrt (n : Nat) : Nat := sqrtDigits n 256 0

/-- The square root of `k` units, `k > 0`: `√(k · 2^149)` units. Where that is no integer, the half unit above its
integer part lies on the same side of every rounding boundary, since those boundaries are integers here. -/
def sqrtFinite (k : Nat) : Word :=
  let n := k * 2 ^ 149
  let r := isqrt n
  roundNearest false (if r * r = n then 2 * r else 2 * r + 1) 2

/-- `sqrt32` (R120, R123). -/
def sqrt32 (a : Word) : Word :=
  match unpack a with
  | .nan => canonicalNaN
  | .inf neg => if neg then canonicalNaN else infinity false
  | .fin neg k => if k = 0 then zero32 neg else if neg then canonicalNaN else sqrtFinite k

/-- `cvt32(k)`: the binary32 value equal to `k`, exact for `k ≤ 2^24` (R131). -/
def cvt32 (k : Nat) : Word := roundNearest false (k * 2 ^ 149) 1

/-! ## Comparisons (00_scope.md R8: IEEE comparison, false on NaN) -/

/-- `x == 0`: true for both zeros and false for NaN (00_scope.md R8). -/
def isZero32 (x : Word) : Bool := absBits x = 0

/-- Whether the pattern is a NaN. -/
def isNaN32 (x : Word) : Bool := decide (infBits < absBits x)

/-- The patterns of numbers ordered as the numbers are, both zeros at 0. -/
def orderKey (x : Word) : Int := signed (signBit x) (absBits x)

/-- `x <= y` on binary32 values. -/
def le32 (x y : Word) : Bool := !isNaN32 x && !isNaN32 y && decide (orderKey x ≤ orderKey y)

/-- `x < y` on binary32 values. -/
def lt32 (x y : Word) : Bool := !isNaN32 x && !isNaN32 y && decide (orderKey x < orderKey y)

end Sys2Proof.Machine
end

