-- ==== Sys2Proof/Machine/Datapath.lean ====
section
/-! DEFINITION. The numeric datapath (40_datapath.md R124 to R134, but R132 and R133): complex multiplier, butterfly,
twiddle ROM, normalisation constants, bit reversal and scalar constants. -/

namespace Sys2Proof.Machine

/-- A complex value: a pair of binary32 words (00_scope.md R9). -/
structure Cplx where
  re : Word
  im : Word
  deriving DecidableEq, Repr, Inhabited

/-! ## Complex operations (R124 to R126) -/

/-- The complex multiplier (R124). -/
def cmul (a b : Cplx) : Cplx where
  re := sub32 (mul32 a.re b.re) (mul32 a.im b.im)
  im := add32 (mul32 a.re b.im) (mul32 a.im b.re)

/-- `conj` (R126). -/
def cconj (z : Cplx) : Cplx := ⟨z.re, neg32 z.im⟩

/-- `cadd` (R126). -/
def cadd (a b : Cplx) : Cplx := ⟨add32 a.re b.re, add32 a.im b.im⟩

/-- `csub` (R126). -/
def csub (a b : Cplx) : Cplx := ⟨sub32 a.re b.re, sub32 a.im b.im⟩

/-- `cscale` (R126). -/
def cscale (z : Cplx) (c : Word) : Cplx := ⟨mul32 z.re c, mul32 z.im c⟩

/-- `mag2` (R126): re² + im². -/
def mag2 (z : Cplx) : Word := add32 (mul32 z.re z.re) (mul32 z.im z.im)

/-- `mag` (R126): sqrt(re² + im²). -/
def mag (z : Cplx) : Word := sqrt32 (mag2 z)

/-- The radix-2 butterfly (R125): `(hi, lo)`, the twiddle the first operand of the product. -/
def bfly (u v w : Cplx) : Cplx × Cplx :=
  let t := cmul w v
  (cadd u t, csub u t)

/-! ## Scalar constants (R134) -/

/-- `ONE`, 1.0 -/
def one32 : Word := 0x3F800000
/-- `NEG_HALF`, −0.5 -/
def negHalf : Word := 0xBF000000
/-- `TWO_PI`, RN(2π) -/
def twoPi : Word := 0x40C90FDB
/-- `PI_QTR`, RN(π^0.25) -/
def piQtr : Word := 0x3FAA6932
/-- `EPS`, RN(1e−6) -/
def eps32 : Word := 0x358637BD
/-- RN(π) (R133) -/
def pi32 : Word := 0x40490FDB
/-- RN(π/2) (R133) -/
def halfPi32 : Word := 0x3FC90FDB
/-- +0.0 -/
def posZero : Word := 0x00000000

/-- The complex zero (+0.0, +0.0). -/
def czero : Cplx := ⟨posZero, posZero⟩

/-! ## Cosine and sine in fixed point

`x / 2^f` is the angle and the result is in units of `2^-f`. The terms of the Taylor series alternate in sign; each is
made from the one before it, rounded down. -/

/-- `t − (next − (next − …))`: the alternating sum from the term `t` of degree `d`, `x2` the square of the angle. -/
def alternatingSeries (f x2 : Nat) : Nat → Nat → Nat → Int
  | 0, _, _ => 0
  | fuel + 1, d, t => (t : Int) - alternatingSeries f x2 fuel (d + 2) (t * x2 / 2 ^ f / ((d + 1) * (d + 2)))

/-- The cosine of `x / 2^f`, `terms` terms of the series. -/
def cosFixed (f terms x : Nat) : Int := alternatingSeries f (x * x / 2 ^ f) terms 0 (2 ^ f)

/-- The sine of `x / 2^f`, `terms` terms of the series. -/
def sinFixed (f terms x : Nat) : Int := alternatingSeries f (x * x / 2 ^ f) terms 1 x

/-! ## Twiddle ROM (R127, R128) -/

/-- ⌊π · 2^128⌋ (log entry 10). -/
def piFixed : Nat := 0x3243F6A8885A308D313198A2E03707344

/-- `2π·r / NMAX` in units of 2^-128. -/
def twiddleAngle (r : Nat) : Nat := piFixed * r / (Config.nmax / 2)

/-- A nonnegative fixed-point number in units of 2^-128 as a magnitude pattern, rounded to nearest: `x · 2^-128` is
`x · 2^21` units of 2^-149. -/
def roundFixed (x : Int) : Nat := nearestBits (x.toNat * 2 ^ 21) 1

/-- The magnitude pattern of RN(cos(2π·r / NMAX)), for `r` in the first quadrant. -/
def quadrantCos (r : Nat) : Nat := roundFixed (cosFixed 128 24 (twiddleAngle r))

/-- The magnitude pattern of RN(sin(2π·r / NMAX)), for `r` in the first quadrant. -/
def quadrantSin (r : Nat) : Nat := roundFixed (sinFixed 128 24 (twiddleAngle r))

/-- A magnitude pattern with a sign, except that "an exact zero is stored as +0.0" (R127). -/
def signedOrZero (neg : Bool) (bits : Nat) : Word := withSign (neg && bits != 0) bits

/-- `TWROM[j]` (R127): `(RN(cos(2π·j / NMAX)), RN(sin(2π·j / NMAX)))`, by quadrants. -/
def twrom (j : Nat) : Cplx :=
  let quarter := Config.nmax / 4
  let r := j % quarter
  match j / quarter with
  | 0 => ⟨signedOrZero false (quadrantCos r), signedOrZero false (quadrantSin r)⟩
  | 1 => ⟨signedOrZero true (quadrantSin r), signedOrZero false (quadrantCos r)⟩
  | 2 => ⟨signedOrZero true (quadrantCos r), signedOrZero true (quadrantSin r)⟩
  | _ => ⟨signedOrZero false (quadrantSin r), signedOrZero true (quadrantCos r)⟩

/-- `TW(N, j)` (R128). -/
def tw (n j : Nat) : Cplx := twrom (j * (Config.nmax / n))

/-! ## Normalisation and bit reversal (R129, R130) -/

/-- `INVSQRT(2^l)`, `1 ≤ l ≤ 16` (R129): the bit patterns the rule gives for even and odd `l`. -/
def invSqrtLog (l : Nat) : Word :=
  if l % 2 = 0 then BitVec.ofNat 32 ((127 - l / 2) * 2 ^ 23)
  else BitVec.ofNat 32 ((127 - (l + 1) / 2) * 2 ^ 23 + 0x3504F3)

/-- `INVSQRT(N)` (R129). -/
def invSqrt (n : Nat) : Word := invSqrtLog (Nat.log2 n)

/-- `bitrev(k, l)` (R130): bit `i` of the result is bit `l − 1 − i` of `k`. -/
def bitrev (k : Nat) : Nat → Nat
  | 0 => 0
  | l + 1 => k % 2 * 2 ^ l + bitrev (k / 2) l

end Sys2Proof.Machine
end

