-- ==== Sys2Proof/Syntax.lean ====
section
/-! DEFINITION. The commands: one constructor per row of spec/opcode_table.json (30_encoding.md R95), with the
fields of the command word as arguments. -/

namespace Sys2Proof

/-- LAY, bits[9:8] (30_encoding.md R92): how a `WIDTH × HEIGHT` buffer is cut into lines. The reserved value 3 is no
layout: it never decodes (R96). -/
inductive Layout where
  | flat
  | rows
  | cols
  deriving DecidableEq, Repr, Inhabited

/-- The commands of 30_encoding.md R95, in the order of its table. -/
inductive Instr where
  | nop
  | cfg
  | fft (lay : Layout)
  | ifft (lay : Layout)
  | bitrev (lay : Layout)
  | stage (lay : Layout) (stg : BitVec 5)
  | norm (lay : Layout)
  | expand
  | conj
  | cmul
  | mag
  | mag2
  | phase
  | acf
  | conv
  | bispec
  | wavelet
  | twread
  | brread
  deriving DecidableEq, Repr, Inhabited

end Sys2Proof
end

