-- ==== Sys2Proof/Machine/State.lean ====
section
/-! DEFINITION. The state of the block as plain data (10_state.md R48), its reset value (R49), and the reasons a step
can stop. -/

namespace Sys2Proof.Machine

/-- The error codes of 60_exceptions.md R241. Codes 7 to 15 are "never written" (93 I5): no value here stands for
them. -/
inductive ErrCode where
  | ok
  | invalidSize
  | sizeMismatch
  | numericAssert
  | notConfigured
  | addressRange
  | illegalCommand
  deriving DecidableEq, Repr, Inhabited

/-- The latched command record `L` (10_state.md R40). `L.opc`, `L.lay` and `L.stg` are views of `word`
(Machine/Operands.lean), so they are stored once. -/
structure Latch where
  word   : Word
  aAddr  : Word
  aLen   : Word
  bAddr  : Word
  bLen   : Word
  dAddr  : Word
  dLen   : Word
  w      : Word
  h      : Word
  fp0    : Word
  fp1    : Word
  size   : Word
  numchk : Bool
  n      : Word
  deriving DecidableEq, Repr

/-- The phase of SEQ (10_state.md R43): the latched record exists while SEQ is BUSY. -/
inductive Phase where
  | idle
  | busy (l : Latch)
  deriving DecidableEq, Repr

/-- What happens next at the block's boundary (log entry 1): a HOST access (20_memory.md R61), SEQ's turn to take its
completion step (10_state.md R46), or an edge of the reset input (70_reset_and_hazards.md R270). `offset` is the host
address less DEV_BASE and may lie outside the window; `width` is the access width in bits. -/
inductive Input where
  | hostRead (width : Nat) (offset : Int)
  | hostWrite (width : Nat) (offset : Int) (value : Word)
  | seqTurn
  | assertReset (powerOn : Bool)
  | releaseReset
  deriving DecidableEq, Repr

/-- Data memory as (byte address, byte) pairs; DMEM word `w` is the bytes `4w` to `4w + 3` (little-endian, 20_memory.md
R62). An unlisted byte is "unspecified" (10_state.md R48). -/
abbrev Memory := List Host.Cell

/-- The state of the block (10_state.md R48), and below the line the model's own fields (INVENTORY.md, State). -/
structure State where
  /-- CTRL.IE (R25) -/
  ie : Bool
  /-- CTRL.NUMCHK (R25) -/
  numchk : Bool
  /-- SIZE (R28) -/
  size : Word
  /-- A_ADDR (R30) -/
  aAddr : Word
  /-- A_LEN (R30) -/
  aLen : Word
  /-- B_ADDR (R31) -/
  bAddr : Word
  /-- B_LEN (R31) -/
  bLen : Word
  /-- D_ADDR (R32) -/
  dAddr : Word
  /-- D_LEN (R32) -/
  dLen : Word
  /-- WIDTH (R33) -/
  width : Word
  /-- HEIGHT (R33) -/
  height : Word
  /-- FP0 (R34) -/
  fp0 : Word
  /-- FP1 (R34) -/
  fp1 : Word
  /-- STATUS.DONE (R26) -/
  done : Bool
  /-- STATUS.OVR (R26, R47) -/
  ovr : Bool
  /-- STATUS.ERRCODE (R26) -/
  errcode : ErrCode
  /-- ERRINFO (R35) -/
  errinfo : Word
  /-- the CMD read-back: the last accepted command word (R27) -/
  cmd : Word
  /-- NCUR, the engine binding (R29, R41) -/
  ncur : Word
  /-- the SEQ phase with L (R40, R43) -/
  seq : Phase
  /-- DMEM (R37) -/
  dmem : Memory
  /-- model: the reset input is asserted (70_reset_and_hazards.md R270; log entry 15) -/
  inReset : Bool
  /-- model: the build, DMEM_WORDS = 2^(17 + dmemScale) (00_scope.md R5; log entry 4) -/
  dmemScale : Fin 6
  /-- model: what happens next at the boundary, first first (log entry 1) -/
  inputs : List Input
  /-- model: what the last HOST read returned (log entry 14) -/
  rdata : Word
  /-- model: the footprint words HOST wrote since acceptance (20_memory.md R70; log entry 7) -/
  clobbered : List Nat
  /-- model, free values: the number of draws made (log entry 6) -/
  draws : Nat
  /-- model, free values: the number of power-ons before this one (log entry 5) -/
  powerCycle : Nat
  deriving DecidableEq, Repr

/-- The state after a power-on reset (10_state.md R49): every register 0, SEQ IDLE, no engine bound, every DMEM word
unspecified. The model's own fields: nothing to come, the default build DMEM_WORDS = 2^22 (log entries 1, 4 to 7, 14,
15). -/
def State.reset : State where
  ie := false
  numchk := false
  size := 0
  aAddr := 0
  aLen := 0
  bAddr := 0
  bLen := 0
  dAddr := 0
  dLen := 0
  width := 0
  height := 0
  fp0 := 0
  fp1 := 0
  done := false
  ovr := false
  errcode := .ok
  errinfo := 0
  cmd := 0
  ncur := 0
  seq := .idle
  dmem := []
  inReset := false
  dmemScale := 5
  inputs := []
  rdata := 0
  clobbered := []
  draws := 0
  powerCycle := 0

/-- The machine stops. The block has no traps (60_exceptions.md R240): there is one stuck state. -/
inductive Fault where
  /-- Raised by `step` when SEQ is BUSY with a latched word that does not decode. Acceptance latches decoded words only
  (10_state.md R44), so no run reaches it (Safety.lean, `Inv`). SAFE: the spec gives such a state no step. -/
  | undecodableLatch
  deriving DecidableEq, Repr

/-- The model rejects the step as outside the spec. -/
inductive Refusal where
  /-- Raised by an arm of `exec` whose instruction has no meaning yet: no arm is left so. SAFE. -/
  | notModelled (mnemonic : String)
  /-- Raised by a HOST access of a width other than 32 bits (20_memory.md R61, 93 I2: refuse). SAFE. -/
  | unsupportedWidth
  /-- Raised by a HOST access at an offset that is not a multiple of 4 (20_memory.md R61, 93 I2: refuse). SAFE. -/
  | misalignedOffset
  /-- Raised by a HOST access outside the 32 MiB device window (20_memory.md R60, R61, 93 I2: refuse). SAFE. -/
  | outsideWindow
  /-- Raised by a HOST access while reset is asserted (70_reset_and_hazards.md R270, 93 I2: refuse). SAFE. -/
  | accessDuringReset
  deriving DecidableEq, Repr

/-- The outcome of one step of this machine. -/
abbrev Outcome := Host.Outcome State Fault Refusal

end Sys2Proof.Machine
end

