-- ==== Sys2Proof/Machine/Flags.lean ====
section
/-! DEFINITION. The status and control bits: STATUS and CTRL as HOST reads them (10_state.md R25, R26), their write rules,
the error code numbers (60_exceptions.md R241) and the interrupt level (10_state.md R42). -/

namespace Sys2Proof.Machine

/-- The number of an error code (60_exceptions.md R241). -/
def ErrCode.number : ErrCode → BitVec 4
  | .ok => 0
  | .invalidSize => 1
  | .sizeMismatch => 2
  | .numericAssert => 3
  | .notConfigured => 4
  | .addressRange => 5
  | .illegalCommand => 6

/-- STATUS.BUSY: 1 exactly in BUSY (10_state.md R43). -/
def State.isBusy (s : State) : Bool :=
  match s.seq with
  | .idle => false
  | .busy _ => true

/-- STATUS.ERR: 1 exactly when ERRCODE ≠ 0 (R26). -/
def State.err (s : State) : Bool := s.errcode.number != 0

/-- STATUS.ENGV: 1 exactly when NCUR ≠ 0 (R26). -/
def State.engv (s : State) : Bool := s.ncur != 0

/-- STATUS.LOG2N: `log2(NCUR)` when ENGV = 1, else 0 (R26). -/
def State.log2n (s : State) : BitVec 5 := if s.engv then BitVec.ofNat 5 (Nat.log2 s.ncur.toNat) else 0

/-- STATUS as HOST reads it (R26). -/
def statusWord (s : State) : Word :=
  (0 : BitVec 11) ++ s.log2n ++ (0 : BitVec 7) ++ BitVec.ofBool s.engv ++ s.errcode.number ++ BitVec.ofBool s.ovr ++
    BitVec.ofBool s.err ++ BitVec.ofBool s.done ++ BitVec.ofBool s.isBusy

/-- A HOST write of STATUS: a 1 clears DONE (bit 1) and OVR (bit 3), every other bit is ignored (R23, R26). -/
def writeStatus (v : Word) (s : State) : State :=
  { s with done := s.done && !v.getLsbD 1, ovr := s.ovr && !v.getLsbD 3 }

/-- CTRL as HOST reads it (R25). -/
def ctrlWord (s : State) : Word := (0 : BitVec 30) ++ BitVec.ofBool s.numchk ++ BitVec.ofBool s.ie

/-- A HOST write of CTRL: IE is bit 0 and NUMCHK bit 1, the reserved bits are ignored (R25). -/
def writeCtrl (v : Word) (s : State) : State := { s with ie := v.getLsbD 0, numchk := v.getLsbD 1 }

/-- The interrupt output: `CTRL.IE AND STATUS.DONE` at every moment (R42). -/
def State.irq (s : State) : Bool := s.ie && s.done

/-- The platform interrupt lines: `irq` drives the line `IRQ_LINE` and no other (60_exceptions.md R253). -/
def State.interruptLine (s : State) (line : Nat) : Bool := decide (line = Config.irqLine) && s.irq

end Sys2Proof.Machine
end

