-- ==== Sys2Proof/WellFormed.lean ====
section
/-! DEFINITION. Which terms of `Instr` stand for a command word (30_encoding.md R93, R96). -/

namespace Sys2Proof

/-- STAGE has no stage 0: "STG = 0 with STAGE decodes as ILLEGAL_COMMAND" (30_encoding.md R93). Every other term is a
command. -/
def Instr.wellFormed : Instr → Bool
  | .stage _ stg => stg != 0
  | .nop | .cfg | .fft _ | .ifft _ | .bitrev _ | .norm _ => true
  | .expand | .conj | .cmul | .mag | .mag2 | .phase => true
  | .acf | .conv | .bispec | .wavelet | .twread | .brread => true

end Sys2Proof
end

