-- ==== Sys2Proof/Decode.lean ====
section
/-! DEFINITION. Decoding of command words (30_encoding.md R90 to R96), total on any word and on any bytes, rejecting by
name, and the encoder written from the same tables. -/

namespace Sys2Proof

/-- Why a word (or a byte string) is no command. The block reports every one of them as ILLEGAL_COMMAND
(60_exceptions.md R247); the names are the clauses of 30_encoding.md R96. -/
inductive DecodeError where
  | reservedBits      -- bits[11:10] or bits[31:17] set (R94)
  | reservedOpcode    -- OPC not in the opcode map (R91)
  | reservedLayout    -- LAY = 3 (R92)
  | layoutNotAllowed  -- LAY ≠ 0 on a command without layout (R92)
  | stageZero         -- STAGE with STG = 0 (R93)
  | stageNotAllowed   -- STG ≠ 0 on another command (R93)
  | truncated         -- fewer than four bytes: not a word (R90, one length only)
  deriving DecidableEq, Repr

/-! ## The fields of a command word (R90) -/

/-- OPC, bits[7:0]. -/
def opcField (w : Word) : BitVec 8 := w.extractLsb' 0 8

/-- LAY, bits[9:8]. -/
def layField (w : Word) : BitVec 2 := w.extractLsb' 8 2

/-- Bits[11:10], reserved. -/
def reservedLow (w : Word) : BitVec 2 := w.extractLsb' 10 2

/-- STG, bits[16:12]. -/
def stgField (w : Word) : BitVec 5 := w.extractLsb' 12 5

/-- Bits[31:17], reserved. -/
def reservedHigh (w : Word) : BitVec 15 := w.extractLsb' 17 15

/-! ## The opcode map (R95) -/

/-- What a row of the opcode map takes from the LAY and STG fields. -/
inductive OpcodeRow where
  | plain (i : Instr)                -- LAY = 0 and STG = 0
  | layout (mk : Layout → Instr)     -- LAY 0 to 2, STG = 0
  | layoutStage                      -- STAGE: LAY 0 to 2, STG 1 to 31

/-- The opcode map of R95, row by row. -/
def opcodeMap : List (BitVec 8 × OpcodeRow) :=
  [ (0x00, .plain .nop),
    (0x01, .plain .cfg),
    (0x02, .layout .fft),
    (0x03, .layout .ifft),
    (0x04, .layout .bitrev),
    (0x05, .layoutStage),
    (0x06, .layout .norm),
    (0x10, .plain .expand),
    (0x11, .plain .conj),
    (0x12, .plain .cmul),
    (0x13, .plain .mag),
    (0x14, .plain .mag2),
    (0x15, .plain .phase) ] ++
  [ (0x20, .plain .acf),
    (0x21, .plain .conv),
    (0x22, .plain .bispec),
    (0x23, .plain .wavelet),
    (0x30, .plain .twread),
    (0x31, .plain .brread) ]

/-- The row of an operation number; none for a reserved one (R91). -/
def lookupOpcode (opc : BitVec 8) : Option OpcodeRow :=
  (opcodeMap.find? fun row => row.1 == opc).map (·.2)

/-- LAY 0, 1, 2 (R92); none for the reserved value 3. -/
def decodeLayout (lay : BitVec 2) : Option Layout :=
  if lay = 0 then some .flat
  else if lay = 1 then some .rows
  else if lay = 2 then some .cols
  else none

/-! ## Decode (R96) -/

/-- `Decode(w)` of R96: the tests in its order. -/
def decode (w : Word) : Except DecodeError Instr :=
  if reservedLow w ≠ 0 ∨ reservedHigh w ≠ 0 then .error .reservedBits
  else match lookupOpcode (opcField w) with
    | none => .error .reservedOpcode
    | some (.plain i) =>
      if layField w ≠ 0 then .error .layoutNotAllowed
      else if stgField w ≠ 0 then .error .stageNotAllowed
      else .ok i
    | some (.layout mk) =>
      match decodeLayout (layField w) with
      | none => .error .reservedLayout
      | some lay => if stgField w ≠ 0 then .error .stageNotAllowed else .ok (mk lay)
    | some .layoutStage =>
      match decodeLayout (layField w) with
      | none => .error .reservedLayout
      | some lay => if stgField w = 0 then .error .stageZero else .ok (.stage lay (stgField w))

/-! ## Words and bytes (20_memory.md R62: little-endian byte lanes) -/

/-- The word of four bytes, the first at the lowest address: byte lane `i` carries bits[8i+7:8i]. -/
def wordOfBytes (b0 b1 b2 b3 : Byte) : Word := b3 ++ b2 ++ b1 ++ b0

/-- The four bytes of a word, the one at the lowest address first. -/
def bytesOfWord (w : Word) : List Byte :=
  [w.extractLsb' 0 8, w.extractLsb' 8 8, w.extractLsb' 16 8, w.extractLsb' 24 8]

/-- Decode the first command word of a byte string and hand back the rest. -/
def decodeBytes : List Byte → Except DecodeError (Instr × List Byte)
  | b0 :: b1 :: b2 :: b3 :: rest => (decode (wordOfBytes b0 b1 b2 b3)).map fun i => (i, rest)
  | _ => .error .truncated

/-- The decoder on a row's bits as spec/opcode_table.json numbers them (bit 0 least significant, every bit at or above
`nbits` zero): the word is laid out in its bytes and given to the decoder. -/
def decodeTableWord (nbits w : Nat) : Option Instr :=
  match decodeBytes (bytesOfWord (BitVec.ofNat 32 (w % 2 ^ nbits))) with
  | .ok (i, _) => some i
  | .error _ => none

/-! ## Encode (R90, R95) -/

/-- The LAY value of a layout (R92). -/
def encodeLayout : Layout → BitVec 2
  | .flat => 0
  | .rows => 1
  | .cols => 2

/-- The word with the given fields and every reserved bit 0 (R90). -/
def packCommand (opc : BitVec 8) (lay : BitVec 2) (stg : BitVec 5) : Word :=
  (0 : BitVec 15) ++ stg ++ (0 : BitVec 2) ++ lay ++ opc

/-- The command word of an instruction (R95). -/
def encode : Instr → Word
  | .nop => packCommand 0x00 0 0
  | .cfg => packCommand 0x01 0 0
  | .fft lay => packCommand 0x02 (encodeLayout lay) 0
  | .ifft lay => packCommand 0x03 (encodeLayout lay) 0
  | .bitrev lay => packCommand 0x04 (encodeLayout lay) 0
  | .stage lay stg => packCommand 0x05 (encodeLayout lay) stg
  | .norm lay => packCommand 0x06 (encodeLayout lay) 0
  | .expand => packCommand 0x10 0 0
  | .conj => packCommand 0x11 0 0
  | .cmul => packCommand 0x12 0 0
  | .mag => packCommand 0x13 0 0
  | .mag2 => packCommand 0x14 0 0
  | .phase => packCommand 0x15 0 0
  | .acf => packCommand 0x20 0 0
  | .conv => packCommand 0x21 0 0
  | .bispec => packCommand 0x22 0 0
  | .wavelet => packCommand 0x23 0 0
  | .twread => packCommand 0x30 0 0
  | .brread => packCommand 0x31 0 0

end Sys2Proof
end

