-- ==== Sys2Proof/Machine/Operands.lean ====
section
/-! DEFINITION. The operands of a command: the latched record (10_state.md R40), the buffers (20_memory.md R64, R65), the
layouts (42_fft.md R171), what each command reads and writes (30_encoding.md R97), and the acceptance check
(60_exceptions.md R242 to R248). -/

namespace Sys2Proof.Machine

/-- `DMEM_WORDS` of the build (00_scope.md R5): a power of two from 2^17 to 2^22. -/
def State.dmemWords (s : State) : Nat := 2 ^ (17 + s.dmemScale.val)

/-- `latch(v)` (10_state.md R40, R44): the record of the command word `v` and the registers as they are now. -/
def latch (v : Word) (s : State) : Latch where
  word := v
  aAddr := s.aAddr
  aLen := s.aLen
  bAddr := s.bAddr
  bLen := s.bLen
  dAddr := s.dAddr
  dLen := s.dLen
  w := s.width
  h := s.height
  fp0 := s.fp0
  fp1 := s.fp1
  size := s.size
  numchk := s.numchk
  n := s.ncur

/-- `L.opc` (R40) -/
def Latch.opc (l : Latch) : BitVec 8 := opcField l.word

/-- `L.lay` (R40) -/
def Latch.lay (l : Latch) : BitVec 2 := layField l.word

/-- `L.stg` (R40) -/
def Latch.stg (l : Latch) : BitVec 5 := stgField l.word

/-! ## Buffers -/

/-- A buffer: base word address and length in words (20_memory.md R64). -/
structure Buffer where
  base : Nat
  len : Nat
  deriving DecidableEq, Repr

/-- Buffer A of a latched record. -/
def Latch.bufA (l : Latch) : Buffer := ⟨l.aAddr.toNat, l.aLen.toNat⟩

/-- Buffer B. -/
def Latch.bufB (l : Latch) : Buffer := ⟨l.bAddr.toNat, l.bLen.toNat⟩

/-- Buffer D, the destination. -/
def Latch.bufD (l : Latch) : Buffer := ⟨l.dAddr.toNat, l.dLen.toNat⟩

/-- Whether a word address lies in a buffer. -/
def Buffer.contains (b : Buffer) (w : Nat) : Bool := decide (b.base ≤ w) && decide (w < b.base + b.len)

/-- The negation of `b + n ≤ DMEM_WORDS`, on unbounded integers (20_memory.md R65). -/
def Buffer.outOfRange (b : Buffer) (dmemWords : Nat) : Bool := decide (dmemWords < b.base + b.len)

/-- The word addresses of a buffer. -/
def Buffer.addresses (b : Buffer) : List Nat := List.range' b.base b.len

/-- Whether a command reads buffer A (30_encoding.md R97). -/
def usesA : Instr → Bool
  | .nop | .cfg | .wavelet | .twread | .brread => false
  | .fft _ | .ifft _ | .bitrev _ | .stage _ _ | .norm _ => true
  | .expand | .conj | .cmul | .mag | .mag2 | .phase => true
  | .acf | .conv | .bispec => true

/-- Whether a command reads buffer B (R97). -/
def usesB : Instr → Bool
  | .cmul | .conv => true
  | .nop | .cfg | .wavelet | .twread | .brread => false
  | .fft _ | .ifft _ | .bitrev _ | .stage _ _ | .norm _ => false
  | .expand | .conj | .mag | .mag2 | .phase => false
  | .acf | .bispec => false

/-- Whether a command writes buffer D (R97). -/
def usesD : Instr → Bool
  | .nop | .cfg => false
  | .wavelet | .twread | .brread => true
  | .fft _ | .ifft _ | .bitrev _ | .stage _ _ | .norm _ => true
  | .expand | .conj | .cmul | .mag | .mag2 | .phase => true
  | .acf | .conv | .bispec => true

/-- Whether a word address is in the footprint of the command `i` latched as `l` (20_memory.md R69). -/
def inFootprint (i : Instr) (l : Latch) (w : Nat) : Bool :=
  (usesA i && l.bufA.contains w) || (usesB i && l.bufB.contains w) || (usesD i && l.bufD.contains w)

/-- Whether a word address is in the footprint of the running command; there is none while IDLE. -/
def State.footprint (s : State) (w : Nat) : Bool :=
  match s.seq with
  | .idle => false
  | .busy l => match decode l.word with
    | .error _ => false
    | .ok i => inFootprint i l w

/-! ## Layouts (42_fft.md R171)

`w` is the width of the row-major buffer. -/

/-- The number of lines of a layout. -/
def lineCount (lay : Layout) (w h : Nat) : Nat :=
  match lay with
  | .flat => 1
  | .rows => h
  | .cols => w

/-- `linelen(LAY)` (42_fft.md R172): the length of a line. -/
def lineLen (lay : Layout) (w h : Nat) : Nat :=
  match lay with
  | .flat => w * h
  | .rows => w
  | .cols => h

/-- The buffer element that is element `j` of line `r`. -/
def elementOf (lay : Layout) (w r j : Nat) : Nat :=
  match lay with
  | .flat => j
  | .rows => r * w + j
  | .cols => j * w + r

/-- The line that holds buffer element `e`. -/
def lineOf (lay : Layout) (w e : Nat) : Nat :=
  match lay with
  | .flat => 0
  | .rows => e / w
  | .cols => e % w

/-- The position of buffer element `e` in its line. -/
def positionOf (lay : Layout) (w e : Nat) : Nat :=
  match lay with
  | .flat => e
  | .rows => e % w
  | .cols => e / w

/-! ## The acceptance check (60_exceptions.md R248) -/

/-- An error of a command: the code and the ERRINFO value (R249, R250). -/
structure CmdError where
  code : ErrCode
  info : Word
  deriving DecidableEq, Repr

/-- ILLEGAL_COMMAND, ERRINFO 0 (R247). -/
def illegalCommand : CmdError := ⟨.illegalCommand, 0⟩

/-- Whether a command needs an engine (R245). -/
def needsEngine : Instr → Bool
  | .nop | .cfg | .expand | .conj | .cmul | .mag | .mag2 | .phase => false
  | .fft _ | .ifft _ | .bitrev _ | .stage _ _ | .norm _ => true
  | .acf | .conv | .bispec | .wavelet | .twread | .brread => true

/-- Whether CFG accepts a size: `2 ≤ size ≤ NMAX` and a power of two (42_fft.md R170). -/
def sizeSupported (size : Nat) : Bool :=
  decide (Config.nmin ≤ size) && decide (size ≤ Config.nmax) && decide (size &&& (size - 1) = 0)

/-- The geometry condition of the FFT family (42_fft.md R172), ERRINFO 4. -/
def badGeometry (lay : Layout) (l : Latch) : Bool :=
  decide (l.w.toNat = 0) || decide (l.h.toNat = 0) || decide (lineLen lay l.w.toNat l.h.toNat ≠ l.n.toNat)

/-- The length conditions of the FFT family: A 1, D 3. -/
def familyLengths (l : Latch) : List (Bool × Word) :=
  [ (decide (l.aLen.toNat ≠ 2 * l.w.toNat * l.h.toNat), 1),
    (decide (l.dLen.toNat ≠ 2 * l.w.toNat * l.h.toNat), 3) ]

/-- The condition of the complex element-wise commands on A_LEN: zero or odd, ERRINFO 1. -/
def badComplexLength (l : Latch) : Bool := decide (l.aLen.toNat = 0) || decide (l.aLen.toNat % 2 = 1)

/-- The SIZE_MISMATCH conditions of each command with their ERRINFO, in the order of R243's table. -/
def sizeConditions : Instr → Latch → List (Bool × Word)
  | .nop, _ => []
  | .cfg, _ => []
  | .fft lay, l => (badGeometry lay l, 4) :: familyLengths l
  | .ifft lay, l => (badGeometry lay l, 4) :: familyLengths l
  | .bitrev lay, l => (badGeometry lay l, 4) :: familyLengths l
  | .stage lay stg, l =>
    (badGeometry lay l, 4) :: (decide (Nat.log2 l.n.toNat < stg.toNat), 5) :: familyLengths l
  | .norm lay, l => (badGeometry lay l, 4) :: familyLengths l
  | .expand, l => [(decide (l.aLen.toNat = 0), 1), (decide (l.dLen.toNat ≠ 2 * l.aLen.toNat), 3)]
  | .conj, l => [(badComplexLength l, 1), (decide (l.dLen.toNat ≠ l.aLen.toNat), 3)]
  | .cmul, l =>
    [ (badComplexLength l, 1), (decide (l.bLen.toNat ≠ l.aLen.toNat), 2), (decide (l.dLen.toNat ≠ l.aLen.toNat), 3) ]
  | .mag, l => [(badComplexLength l, 1), (decide (l.dLen.toNat ≠ l.aLen.toNat / 2), 3)]
  | .mag2, l => [(badComplexLength l, 1), (decide (l.dLen.toNat ≠ l.aLen.toNat / 2), 3)]
  | .phase, l => [(badComplexLength l, 1), (decide (l.dLen.toNat ≠ l.aLen.toNat / 2), 3)]
  | .acf, l => [(decide (l.aLen.toNat ≠ l.n.toNat), 1), (decide (l.dLen.toNat ≠ l.n.toNat), 3)]
  | .conv, l =>
    [ (decide (l.aLen.toNat ≠ 2 * l.n.toNat), 1), (decide (l.bLen.toNat ≠ 2 * l.n.toNat), 2),
      (decide (l.dLen.toNat ≠ l.n.toNat), 3) ]
  | .bispec, l =>
    [(decide (l.aLen.toNat ≠ 2 * l.n.toNat), 1), (decide (l.dLen.toNat ≠ 2 * (l.n.toNat * l.n.toNat)), 3)]
  | .wavelet, l => [(decide (l.dLen.toNat ≠ 2 * l.n.toNat), 3)]
  | .twread, l => [(decide (l.dLen.toNat ≠ 2 * l.n.toNat), 3)]
  | .brread, l => [(decide (l.dLen.toNat ≠ l.n.toNat), 3)]

/-- The ADDRESS_RANGE conditions: A, then B, then D, those the command uses (R246). -/
def rangeConditions (i : Instr) (l : Latch) (dmemWords : Nat) : List (Bool × Word) :=
  [ (usesA i && l.bufA.outOfRange dmemWords, 1),
    (usesB i && l.bufB.outOfRange dmemWords, 2),
    (usesD i && l.bufD.outOfRange dmemWords, 3) ]

/-- Every condition of a decoded command with the error it raises, in the order of R248. -/
def conditions (i : Instr) (l : Latch) (dmemWords : Nat) : List (Bool × CmdError) :=
  (decide (i = .cfg) && !sizeSupported l.size.toNat, ⟨.invalidSize, 0⟩) ::
  (needsEngine i && decide (l.n = 0), ⟨.notConfigured, 0⟩) ::
  (sizeConditions i l).map (fun c => (c.1, ⟨.sizeMismatch, c.2⟩)) ++
  (rangeConditions i l dmemWords).map (fun c => (c.1, ⟨.addressRange, c.2⟩))

/-- The first error whose condition holds. -/
def firstError : List (Bool × CmdError) → Option CmdError
  | [] => none
  | (holds, e) :: rest => if holds then some e else firstError rest

/-- `Check(L)` of R248 for a word that decodes as `i`; none is "ok". -/
def check (i : Instr) (l : Latch) (dmemWords : Nat) : Option CmdError := firstError (conditions i l dmemWords)

end Sys2Proof.Machine
end

