-- ==== Sys2Proof/Machine/Ops.lean ====
section
/-! DEFINITION. The named operations over memory and state that the meanings share: DMEM reads and writes (20_memory.md),
acceptance (10_state.md R44, R45), recording an error (60_exceptions.md R249), completion (R46), a dropped command (R47)
and reset (70_reset_and_hazards.md R270 to R272). -/

namespace Sys2Proof.Machine

/-! ## Data memory -/

/-- The canonical form: byte addresses strictly rising. What an unlisted byte reads as is no value but "unspecified"
(10_state.md R48), so no entry can equal it and equal memories are equal data. -/
abbrev Memory.wf (m : Memory) : Prop := List.Pairwise (fun x y => x.1 < y.1) m

/-- The byte listed at an address; none is "unspecified". -/
def Memory.lookup : Memory → Nat → Option Byte
  | [], _ => none
  | (a, b) :: rest, k => if a = k then some b else Memory.lookup rest k

/-- The entries of bytes at consecutive addresses from `a`. -/
def cellsFrom (a : Nat) : List Byte → Memory
  | [] => []
  | b :: bs => (a, b) :: cellsFrom (a + 1) bs

/-- Write consecutive bytes from address `a`: what lies below, the new bytes, what lies above. -/
def Memory.writeBytes (m : Memory) (a : Nat) (bs : List Byte) : Memory :=
  m.filter (fun c => decide (c.1 < a)) ++ cellsFrom a bs ++ m.filter (fun c => decide (a + bs.length ≤ c.1))

/-- `MemWrite(w, n, v)` (00_scope.md R10): whole words, little-endian (20_memory.md R62). -/
def Memory.writeWords (m : Memory) (w : Nat) (vs : List Word) : Memory :=
  m.writeBytes (4 * w) (vs.flatMap bytesOfWord)

/-- Make words unspecified: each takes the free value drawn for it (20_memory.md R70, 70_reset_and_hazards.md R271). -/
def Memory.scramble (draw : Nat) (m : Memory) (ws : List Nat) : Memory :=
  ws.foldl (fun m w => m.writeWords w [Config.freeWord draw w]) m

/-- One byte of DMEM: the byte written last, or what power-on left there (20_memory.md R79; log entry 5). -/
def readByte (s : State) (a : Nat) : Byte := (s.dmem.lookup a).getD (Config.powerOnByte s.powerCycle a)

/-- DMEM word `w` (20_memory.md R60, R62). -/
def readWord (s : State) (w : Nat) : Word :=
  wordOfBytes (readByte s (4 * w)) (readByte s (4 * w + 1)) (readByte s (4 * w + 2)) (readByte s (4 * w + 3))

/-- `MemRead(b, n)` (00_scope.md R10). -/
def readWords (s : State) (b n : Nat) : List Word := (List.range n).map fun i => readWord s (b + i)

/-- `Cplx(b, i)` for `i` in `[0, n)` (00_scope.md R10). -/
def readCplx (s : State) (b n : Nat) : List Cplx :=
  (List.range n).map fun i => ⟨readWord s (b + 2 * i), readWord s (b + 2 * i + 1)⟩

/-- The words of complex elements: `re` at the lower address (00_scope.md R9). -/
def cplxWords (zs : List Cplx) : List Word := zs.flatMap fun z => [z.re, z.im]

/-! ## Acceptance (10_state.md R44) -/

/-- What acceptance does before the check: the read-back takes the word, DONE, ERRCODE and ERRINFO are cleared. -/
def clearForCommand (v : Word) (s : State) : State :=
  { s with cmd := v, done := false, errcode := .ok, errinfo := 0 }

/-- Taking an error: ERRCODE and ERRINFO (60_exceptions.md R249, R250). The one operation for every error, those of the
acceptance check and NUMERIC_ASSERT. -/
def recordError (e : CmdError) (s : State) : State := { s with errcode := e.code, errinfo := e.info }

/-- STATUS.DONE <- 1 in the acceptance step (R45). -/
def markDone (s : State) : State := { s with done := true }

/-- SEQ <- BUSY(L). -/
def startBusy (l : Latch) (s : State) : State := { s with seq := .busy l, clobbered := [] }

/-- The acceptance of command `i`: check, then either the error completes it (R45, 60_exceptions.md R249) or `onOk` goes
on from the cleared state with the latched record. -/
def accept (i : Instr) (onOk : Latch → State → State) (s : State) : State :=
  let l := latch (encode i) s
  match check i l s.dmemWords with
  | some e => markDone (recordError e (clearForCommand (encode i) s))
  | none => onOk l (clearForCommand (encode i) s)

/-- The acceptance of a word that does not decode: ILLEGAL_COMMAND (60_exceptions.md R247). -/
def rejectWord (v : Word) (s : State) : State := markDone (recordError illegalCommand (clearForCommand v s))

/-- A CMD write while BUSY: dropped, OVR set (R47). -/
def dropCommand (s : State) : State := { s with ovr := true }

/-! ## Completion (10_state.md R46) -/

/-- The state whose DMEM a completion step computes from: as it is (R46), but that a word HOST wrote in the running
command's footprint, which R70 marks unspecified, is read as a free value (20_memory.md R70; log entry 7). With nothing
clobbered it is the state itself. -/
def sourceView (s : State) : State := { s with dmem := s.dmem.scramble (s.draws + 1) s.clobbered }

/-- What a command computes: the words of its destination buffer, and the first lag that fails the numeric check of ACF
(43_derived.md R201). -/
structure Result where
  words : List Word
  lag : Option Nat
  deriving DecidableEq, Repr

/-- Write the destination. Where HOST wrote into the footprint since acceptance, the words it wrote and every destination
word become unspecified instead (20_memory.md R70; log entry 7). -/
def storeResult (l : Latch) (ws : List Word) (s : State) : State :=
  if s.clobbered = [] then { s with dmem := s.dmem.writeWords l.dAddr.toNat ws }
  else { s with dmem := s.dmem.scramble s.draws (s.clobbered ++ l.bufD.addresses), draws := s.draws + 2 }

/-- NUMERIC_ASSERT with the first failing lag as ERRINFO (60_exceptions.md R244); without one ERRCODE and ERRINFO keep
the zeros of acceptance (R46). -/
def recordLag (lag : Option Nat) (s : State) : State :=
  match lag with
  | none => s
  | some m => recordError ⟨.numericAssert, BitVec.ofNat 32 m⟩ s

/-- SEQ <- IDLE and STATUS.DONE <- 1. -/
def retire (s : State) : State := { s with seq := .idle, done := true, clobbered := [] }

/-- The completion step: destination words, error if the command raises one, IDLE and DONE. -/
def complete (l : Latch) (r : Result) (s : State) : State := retire (recordLag r.lag (storeResult l r.words s))

/-! ## The two shapes of a command (log entry 11) -/

/-- A command SEQ runs: presented while IDLE it is accepted or completes with an error (R44); while BUSY with it, SEQ's
step completes it with the result its rule gives from DMEM as it reads it now (R46). -/
def sequencedCommand (i : Instr) (result : Latch → State → Result) (s : State) : Outcome :=
  match s.seq with
  | .idle => .next (accept i startBusy s)
  | .busy l => .next (complete l (result l (sourceView s)) s)

/-- NOP and CFG: performed in the acceptance step (R44, R45). SEQ is never BUSY with one (log entry 16). -/
def immediateCommand (i : Instr) (effect : Latch → State → State) (s : State) : Outcome :=
  match s.seq with
  | .idle => .next (accept i (fun l t => markDone (effect l t)) s)
  | .busy l => .next (retire (effect l s))

/-! ## Reset (70_reset_and_hazards.md R270 to R272) -/

/-- DMEM across an assertion of reset: unspecified at power-on (R272, 10_state.md R49); else kept, but for the
destination words (and the words HOST clobbered) of a command it aborts (R271). -/
def dmemAfterReset (powerOn : Bool) (s : State) : Memory :=
  if powerOn then []
  else match s.seq with
    | .idle => s.dmem
    | .busy l => s.dmem.scramble s.draws (s.clobbered ++ l.bufD.addresses)

/-- The reset input is asserted: every piece of state takes its reset value (10_state.md R49) but DMEM as above. The
build, the inputs to come, HOST's last read value and the counters of free values are not the block's. -/
def assertReset (powerOn : Bool) (s : State) : State :=
  { State.reset with
    dmem := dmemAfterReset powerOn s
    inReset := true
    dmemScale := s.dmemScale
    inputs := s.inputs
    rdata := s.rdata
    draws := s.draws + 2
    powerCycle := if powerOn then s.powerCycle + 1 else s.powerCycle }

/-- The reset input is released. -/
def releaseReset (s : State) : State := { s with inReset := false }

end Sys2Proof.Machine
end

