-- ==== Sys2Proof/Machine/Transcendental.lean ====
section
/-! DEFINITION. The two OPEN units `EXP_F` (40_datapath.md R132) and `ACOS_F` (R133). Each rule fixes the unit at its
special operands and bounds it elsewhere: the result is one of the two binary32 neighbours of the exact real. The model
computes the two neighbours and takes the one a free choice of Config names (log entries 8 and 9). -/

namespace Sys2Proof.Machine

/-- The greatest finite pattern. -/
def maxFiniteBits : Nat := 0x7F7FFFFF

/-- The magnitude pattern of the neighbour picked: one of the bounds, or the value between them where there is one (for
adjacent bounds the half is the lower one). -/
def pickNeighbour (pick : Neighbour) (below above : Nat) : Word :=
  match pick with
  | .below => withSign false below
  | .between => withSign false ((below + above) / 2)
  | .above => withSign false above

/-! ## EXP_F (R132)

`e^y = (e^(y/128))^128` for `0 ≤ y ≤ 104`, in units of 2^-256, once rounded down and once rounded up throughout. -/

/-- The exponential series of `z / 2^256` from the term `t` of degree `i`, each term rounded down. -/
def expSeries (z : Nat) : Nat → Nat → Nat → Nat
  | 0, _, _ => 0
  | fuel + 1, i, t => t + expSeries z fuel (i + 1) (t * z / 2 ^ 256 / (i + 1))

/-- `v` squared `fuel` times, rounded down. -/
def squareDown : Nat → Nat → Nat
  | 0, v => v
  | fuel + 1, v => squareDown fuel (v * v / 2 ^ 256)

/-- `v` squared `fuel` times, rounded up. -/
def squareUp : Nat → Nat → Nat
  | 0, v => v
  | fuel + 1, v => squareUp fuel (v * v / 2 ^ 256 + 1)

/-- A lower bound of `e^y` in units of 2^-256, `y = k` units of 2^-149 (so `y/128` is `k · 2^100` units of 2^-256). -/
def expLow (k : Nat) : Nat := squareDown 7 (expSeries (k * 2 ^ 100) 60 0 (2 ^ 256))

/-- An upper bound of `e^y`: the 60 terms rounded down and the tail together lose less than 256 units. -/
def expHigh (k : Nat) : Nat := squareUp 7 (expSeries (k * 2 ^ 100) 60 0 (2 ^ 256) + 256)

/-- 104 in units of 2^-149: beyond it `e^y` is above every finite value, and `e^-y` is below every positive one. -/
def expLimit : Nat := 104 * 2 ^ 149

/-- The pattern of the greatest binary32 value not above `e^x`, `x = ±k` units. -/
def expBelow (neg : Bool) (k : Nat) : Nat :=
  if neg then (if expLimit < k then 0 else floorBits (2 ^ 405) (expHigh k))
  else if expLimit < k then maxFiniteBits else min (floorBits (expLow k) (2 ^ 107)) maxFiniteBits

/-- The pattern of the least binary32 value (+inf included) not below `e^x`, `x = ±k` units. -/
def expAbove (neg : Bool) (k : Nat) : Nat :=
  if neg then (if expLimit < k then 1 else ceilBits (2 ^ 405) (expLow k))
  else if expLimit < k then infBits else min (ceilBits (expHigh k) (2 ^ 107)) infBits

/-- The pattern of the least normal value, 2^-126. -/
def minNormalBits : Nat := 0x00800000

/-- `EXP_F` (R132): fixed at zeros, infinities and NaN; elsewhere a neighbour of `e^x`, or +0.0 below the normal range
("underflow toward +0.0 allowed"). -/
def expF (x : Word) : Word :=
  match unpack x with
  | .nan => canonicalNaN
  | .inf neg => if neg then posZero else infinity false
  | .fin neg k =>
    if k = 0 then one32
    else if expAbove neg k ≤ minNormalBits ∧ Config.expFlush x = true then posZero
    else pickNeighbour (Config.expPick x) (expBelow neg k) (expAbove neg k)

/-! ## ACOS_F (R133)

A pattern is certainly below `acos x` when its cosine, computed within `cosMargin`, exceeds `x` by that margin, and
certainly above when it falls short of `x` by it. The last certain pattern below, and the successor of the last pattern
not certainly above, are found one bit at a time. -/

/-- The cosine of a magnitude pattern in units of 2^-256. -/
def cosOfBits (bits : Nat) : Int := cosFixed 256 48 (magnitude bits * 2 ^ 107)

/-- More than the error of `cosOfBits`, in units of 2^-256. -/
def cosMargin : Int := 2 ^ 16

/-- The pattern search, bits `fuel - 1` down to 0: a pattern not above 0x40490FDA (the predecessor of RN(π), below π)
whose cosine is at least `target` units of 2^-256, and whose successor's is not. -/
def acosDigits (target : Int) : Nat → Nat → Nat
  | 0, w => w
  | fuel + 1, w =>
    if w + 2 ^ fuel ≤ 0x40490FDA ∧ target ≤ cosOfBits (w + 2 ^ fuel) then acosDigits target fuel (w + 2 ^ fuel)
    else acosDigits target fuel w

/-- The pattern of the greatest binary32 value not above `acos x`, `x = ±k` units. -/
def acosBelow (neg : Bool) (k : Nat) : Nat := acosDigits (signed neg k * 2 ^ 107 + cosMargin) 31 0

/-- The pattern of the least binary32 value not below `acos x`, `x = ±k` units. -/
def acosAbove (neg : Bool) (k : Nat) : Nat := acosDigits (signed neg k * 2 ^ 107 - cosMargin) 31 0 + 1

/-- `ACOS_F` (R133): fixed at ±1, zeros, NaN and beyond ±1; elsewhere a neighbour of `acos x`. -/
def acosF (x : Word) : Word :=
  match unpack x with
  | .nan => canonicalNaN
  | .inf _ => canonicalNaN
  | .fin neg k =>
    if k = 0 then halfPi32
    else if 2 ^ 149 < k then canonicalNaN
    else if k = 2 ^ 149 then (if neg then pi32 else posZero)
    else pickNeighbour (Config.acosPick x) (acosBelow neg k) (acosAbove neg k)

end Sys2Proof.Machine
end

