-- ==== Sys2Proof/Machine/ComplexBuffer.lean ====
section
/-! DEFINITION. The element-wise commands (41_complex_buffer.md): EXPAND, CONJ, CMUL, MAG, MAG2, PHASE. The element count
is `L.a_len` for EXPAND and `L.a_len / 2` for the others (R150). -/

namespace Sys2Proof.Machine

/-- The complex elements of buffer A, `L.a_len / 2` of them. -/
def sourceA (l : Latch) (s : State) : List Cplx := readCplx s l.aAddr.toNat (l.aLen.toNat / 2)

/-- The complex elements of buffer B, as many as of A (R153). -/
def sourceB (l : Latch) (s : State) : List Cplx := readCplx s l.bAddr.toNat (l.aLen.toNat / 2)

/-- The real words of a buffer as complex elements with imaginary part +0.0, each word copied bit for bit. -/
def expandWords (ws : List Word) : List Cplx := ws.map fun x => ⟨x, posZero⟩

/-- EXPAND's destination (R151). -/
def expandResult (l : Latch) (s : State) : Result :=
  ⟨cplxWords (expandWords (readWords s l.aAddr.toNat l.aLen.toNat)), none⟩

/-- EXPAND (R151): real array to complex signal. -/
def execExpand (s : State) : Outcome := sequencedCommand .expand expandResult s

/-- CONJ's destination (R152). -/
def conjResult (l : Latch) (s : State) : Result := ⟨cplxWords ((sourceA l s).map cconj), none⟩

/-- CONJ (R152): complex conjugate. -/
def execConj (s : State) : Outcome := sequencedCommand .conj conjResult s

/-- CMUL's destination (R153). -/
def cmulResult (l : Latch) (s : State) : Result :=
  ⟨cplxWords (List.zipWith cmul (sourceA l s) (sourceB l s)), none⟩

/-- CMUL (R153): element-wise complex product. -/
def execCmul (s : State) : Outcome := sequencedCommand .cmul cmulResult s

/-- MAG's destination (R154). -/
def magResult (l : Latch) (s : State) : Result := ⟨(sourceA l s).map mag, none⟩

/-- MAG (R154): magnitude. -/
def execMag (s : State) : Outcome := sequencedCommand .mag magResult s

/-- MAG2's destination (R155). -/
def mag2Result (l : Latch) (s : State) : Result := ⟨(sourceA l s).map mag2, none⟩

/-- MAG2 (R155): squared magnitude. -/
def execMag2 (s : State) : Outcome := sequencedCommand .mag2 mag2Result s

/-- `sign(im)` of R156: +1.0, −1.0, +0.0 for both zeros, the canonical NaN for NaN. -/
def sign32 (x : Word) : Word :=
  if isNaN32 x then canonicalNaN
  else if lt32 posZero x then 0x3F800000
  else if lt32 x posZero then 0xBF800000
  else posZero

/-- The phase of one element (R156): +0.0 where the computed magnitude is 0, else `sign(im) * ACOS_F(re / |z|)`. -/
def phase (z : Cplx) : Word :=
  let m := mag z
  if isZero32 m then posZero else mul32 (sign32 z.im) (acosF (div32 z.re m))

/-- PHASE's destination (R156). -/
def phaseResult (l : Latch) (s : State) : Result := ⟨(sourceA l s).map phase, none⟩

/-- PHASE (R156): angle of each sample. -/
def execPhase (s : State) : Outcome := sequencedCommand .phase phaseResult s

end Sys2Proof.Machine
end

