-- ==== Sys2Proof/Machine/Control.lean ====
section
/-! DEFINITION. The control and table-readout commands (44_control.md): NOP, TWREAD, BRREAD. -/

namespace Sys2Proof.Machine

/-- NOP (R230): completes in the acceptance step, with no other effect. -/
def execNop (s : State) : Outcome := immediateCommand .nop (fun _ t => t) s

/-- The unit roots of size `n` (R231). -/
def twreadResult (l : Latch) (_ : State) : Result :=
  ⟨cplxWords ((List.range l.n.toNat).map fun j => tw l.n.toNat j), none⟩

/-- TWREAD (R231): the unit roots of the bound size to D. -/
def execTwread (s : State) : Outcome := sequencedCommand .twread twreadResult s

/-- The bit-reversal permutation of size `n` as unsigned integers (R232). -/
def brreadResult (l : Latch) (_ : State) : Result :=
  ⟨(List.range l.n.toNat).map fun j => BitVec.ofNat 32 (bitrev j (Nat.log2 l.n.toNat)), none⟩

/-- BRREAD (R232): the bit-reversal permutation of the bound size to D. -/
def execBrread (s : State) : Outcome := sequencedCommand .brread brreadResult s

end Sys2Proof.Machine
end

