-- ==== Sys2Proof/Machine/Transform.lean ====
section
/-! DEFINITION. Engine configuration and the FFT family (42_fft.md): CFG, FFT, IFFT, BITREV, STAGE, NORM, and the line
functions the derived transforms share. A line is a list of `n` complex elements. -/

namespace Sys2Proof.Machine

/-! ## Configuration -/

/-- CFG (R170): NCUR <- SIZE; the acceptance check has refused an unsupported size. -/
def execCfg (s : State) : Outcome := immediateCommand .cfg (fun l t => { t with ncur := l.size }) s

/-! ## Line functions -/

/-- Element `j` of a line. -/
def elem (x : List Cplx) (j : Nat) : Cplx := x.getD j czero

/-- The bit-reversal pass (R173). -/
def bitrevPass (n : Nat) (x : List Cplx) : List Cplx :=
  (List.range n).map fun j => elem x (bitrev j (Nat.log2 n))

/-- Element `j` of the butterfly pass of stage `stg` (R174): stage size `s = 2^stg`, half `h = s/2`. -/
def stageElem (n stg : Nat) (x : List Cplx) (j : Nat) : Cplx :=
  let size := 2 ^ stg
  let half := size / 2
  let k := j % size
  if k < half then (bfly (elem x j) (elem x (j + half)) (tw n (k * (n / size)))).1
  else (bfly (elem x (j - half)) (elem x j) (tw n ((k - half) * (n / size)))).2

/-- The butterfly pass (R174). -/
def stagePass (n stg : Nat) (x : List Cplx) : List Cplx := (List.range n).map fun j => stageElem n stg x j

/-- The normalisation pass (R175). -/
def normPass (n : Nat) (x : List Cplx) : List Cplx := (List.range n).map fun j => cscale (elem x j) (invSqrt n)

/-- The forward transform of one line (R176): bit reversal, stages 1 to log2 N in this order, normalisation. -/
def fftLine (n : Nat) (x : List Cplx) : List Cplx :=
  normPass n ((List.range' 1 (Nat.log2 n)).foldl (fun y stg => stagePass n stg y) (bitrevPass n x))

/-- The inverse transform of one line (R177): conjugate, forward, conjugate. -/
def ifftLine (n : Nat) (x : List Cplx) : List Cplx := (fftLine n (x.map cconj)).map cconj

/-! ## Commands over a layout (R171) -/

/-- Line `r` of a buffer of width `w`: its `n` elements. -/
def gatherLine (lay : Layout) (w n : Nat) (buf : List Cplx) (r : Nat) : List Cplx :=
  (List.range n).map fun j => elem buf (elementOf lay w r j)

/-- Apply a line function to every line and put the results at the same positions (R171). -/
def applyLines (lay : Layout) (w h n : Nat) (f : List Cplx → List Cplx) (buf : List Cplx) : List Cplx :=
  let lines := (List.range (lineCount lay w h)).map fun r => f (gatherLine lay w n buf r)
  (List.range (w * h)).map fun e => elem (lines.getD (lineOf lay w e) []) (positionOf lay w e)

/-- The destination of a command of the FFT family with line function `f` (for size `L.n`). -/
def lineResult (lay : Layout) (f : Nat → List Cplx → List Cplx) (l : Latch) (s : State) : Result :=
  let w := l.w.toNat
  let h := l.h.toNat
  let n := l.n.toNat
  ⟨cplxWords (applyLines lay w h n (f n) (readCplx s l.aAddr.toNat (w * h))), none⟩

/-- FFT (R178). -/
def execFft (lay : Layout) (s : State) : Outcome := sequencedCommand (.fft lay) (lineResult lay fftLine) s

/-- IFFT (R179). -/
def execIfft (lay : Layout) (s : State) : Outcome := sequencedCommand (.ifft lay) (lineResult lay ifftLine) s

/-- BITREV (R180). -/
def execBitrev (lay : Layout) (s : State) : Outcome := sequencedCommand (.bitrev lay) (lineResult lay bitrevPass) s

/-- STAGE (R181). -/
def execStage (lay : Layout) (stg : BitVec 5) (s : State) : Outcome :=
  sequencedCommand (.stage lay stg) (lineResult lay fun n => stagePass n stg.toNat) s

/-- NORM (R182). -/
def execNorm (lay : Layout) (s : State) : Outcome := sequencedCommand (.norm lay) (lineResult lay normPass) s

end Sys2Proof.Machine
end

