-- ==== Sys2Proof/Machine/Derived.lean ====
section
/-! DEFINITION. The derived transforms (43_derived.md): ACF, CONV, BISPEC, WAVELET. -/

namespace Sys2Proof.Machine

/-! ## ACF (R200, R201) -/

/-- `|v|`: bit 31 cleared (R201). -/
def abs32 (v : Word) : Word := v &&& 0x7FFFFFFF

/-- NumCheck (R201): the first lag whose imaginary part is not within EPS, a NaN among them. -/
def numCheck (r : List Cplx) : Option Nat := r.findIdx? fun z => !le32 (abs32 z.im) eps32

/-- The second forward transform of ACF (R200): of the squared magnitudes of the transform of the expanded frame. -/
def acfTransform (n : Nat) (frame : List Word) : List Cplx :=
  fftLine n (expandWords ((fftLine n (expandWords frame)).map mag2))

/-- ACF's destination, the real parts, and the outcome of the numeric check when NUMCHK was latched (R200, R201). -/
def acfResult (l : Latch) (s : State) : Result :=
  let n := l.n.toNat
  let r := acfTransform n (readWords s l.aAddr.toNat n)
  ⟨r.map Cplx.re, if l.numchk then numCheck r else none⟩

/-- ACF (R200): autocorrelation. -/
def execAcf (s : State) : Outcome := sequencedCommand .acf acfResult s

/-! ## CONV (R202) -/

/-- CONV's destination (R202): the magnitudes of the inverse transform of the element-wise product. -/
def convResult (l : Latch) (s : State) : Result :=
  let n := l.n.toNat
  let p := List.zipWith cmul (readCplx s l.aAddr.toNat n) (readCplx s l.bAddr.toNat n)
  ⟨(ifftLine n p).map mag, none⟩

/-- CONV (R202): fast circular convolution. -/
def execConv (s : State) : Outcome := sequencedCommand .conv convResult s

/-! ## BISPEC (R203) -/

/-- The triple product at `(f1, f2)`, evaluated left to right, `f1 + f2` taken modulo `n` (R203). -/
def tripleProduct (n : Nat) (x : List Cplx) (f1 f2 : Nat) : Cplx :=
  cmul (cmul (elem x f1) (elem x f2)) (cconj (elem x ((f1 + f2) % n)))

/-- The `n × n` surface, row `f1`, column `f2`, row-major (R203). -/
def bispecSurface (n : Nat) (x : List Cplx) : List Cplx :=
  (List.range n).flatMap fun f1 => (List.range n).map fun f2 => tripleProduct n x f1 f2

/-- BISPEC's destination (R203). -/
def bispecResult (l : Latch) (s : State) : Result :=
  let n := l.n.toNat
  ⟨cplxWords (bispecSurface n (readCplx s l.aAddr.toNat n)), none⟩

/-- BISPEC (R203): the bispectrum triple product. -/
def execBispec (s : State) : Outcome := sequencedCommand .bispec bispecResult s

/-! ## WAVELET (R204) -/

/-- The amplitude of bin `k` (R204): `π^0.25 · exp(−0.5·(m·(s·k/n − 1))²)` in the rule's order of operations. -/
def waveletAmp (n : Nat) (s m : Word) (k : Nat) : Word :=
  let r := div32 (mul32 s (cvt32 k)) (cvt32 n)
  let d := sub32 r one32
  let a := mul32 m d
  let e := mul32 a a
  let g := mul32 negHalf e
  mul32 piQtr (expF g)

/-- Bin `k` of the kernel (R204): scaled by `sqrt(m·s)` up to `n/2`, zero beyond. -/
def waveletBin (n : Nat) (s numPeriods : Word) (k : Nat) : Cplx :=
  let m := mul32 twoPi numPeriods
  let sc := sqrt32 (mul32 m s)
  if k ≤ n / 2 then ⟨mul32 (waveletAmp n s m k) sc, posZero⟩ else czero

/-- WAVELET's destination (R204). -/
def waveletResult (l : Latch) (_ : State) : Result :=
  let n := l.n.toNat
  ⟨cplxWords ((List.range n).map fun k => waveletBin n l.fp0 l.fp1 k), none⟩

/-- WAVELET (R204): the analytic Morlet wavelet kernel. -/
def execWavelet (s : State) : Outcome := sequencedCommand .wavelet waveletResult s

end Sys2Proof.Machine
end

