-- ==== Sys2Proof/Machine/Dispatch.lean ====
section
/-! DEFINITION. One meaning per command. What `exec i s` is depends on the SEQ phase (log entry 11): while IDLE the
command `i` is presented and accepted (10_state.md R44); while BUSY it is SEQ's completion step of `i` (R46). -/

namespace Sys2Proof.Machine

def exec (i : Instr) (s : State) : Host.Outcome State Fault Refusal :=
  match i with
  -- 44_control.md R230
  | .nop => Sys2Proof.Machine.execNop s
  -- 42_fft.md R170, R178 to R182
  | .cfg => Sys2Proof.Machine.execCfg s
  | .fft lay => Sys2Proof.Machine.execFft lay s
  | .ifft lay => Sys2Proof.Machine.execIfft lay s
  | .bitrev lay => Sys2Proof.Machine.execBitrev lay s
  | .stage lay stg => Sys2Proof.Machine.execStage lay stg s
  | .norm lay => Sys2Proof.Machine.execNorm lay s
  -- 41_complex_buffer.md R151 to R156
  | .expand => Sys2Proof.Machine.execExpand s
  | .conj => Sys2Proof.Machine.execConj s
  | .cmul => Sys2Proof.Machine.execCmul s
  | .mag => Sys2Proof.Machine.execMag s
  | .mag2 => Sys2Proof.Machine.execMag2 s
  | .phase => Sys2Proof.Machine.execPhase s
  -- 43_derived.md R200 to R204
  | .acf => Sys2Proof.Machine.execAcf s
  | .conv => Sys2Proof.Machine.execConv s
  | .bispec => Sys2Proof.Machine.execBispec s
  | .wavelet => Sys2Proof.Machine.execWavelet s
  -- 44_control.md R231, R232
  | .twread => Sys2Proof.Machine.execTwread s
  | .brread => Sys2Proof.Machine.execBrread s

end Sys2Proof.Machine
end

