-- ==== Sys2Proof/Machine/HostBus.lean ====
section
/-! DEFINITION. The device window (20_memory.md R60, R61): the register map (10_state.md R23), HOST reads and the HOST
writes that present no command. -/

namespace Sys2Proof.Machine

/-- The registers of the register window (10_state.md R23). -/
inductive Reg where
  | id
  | ctrl
  | status
  | cmd
  | size
  | ncur
  | errinfo
  | aAddr
  | aLen
  | bAddr
  | bLen
  | dAddr
  | dLen
  | width
  | height
  | fp0
  | fp1
  deriving DecidableEq, Repr

/-- The register map of R23. -/
def registerMap : List (Nat × Reg) :=
  [ (0x000, .id), (0x004, .ctrl), (0x008, .status), (0x00C, .cmd), (0x010, .size), (0x014, .ncur), (0x018, .errinfo),
    (0x020, .aAddr), (0x024, .aLen), (0x028, .bAddr), (0x02C, .bLen), (0x030, .dAddr), (0x034, .dLen),
    (0x038, .width), (0x03C, .height), (0x040, .fp0), (0x044, .fp1) ]

/-- The register at an offset; none for a reserved offset (R36). -/
def registerAt (offset : Nat) : Option Reg := (registerMap.find? fun row => row.1 == offset).map (·.2)

/-- The identification word (R24). -/
def idWord : Word := 0x46465401

/-- What a HOST read of a register returns. -/
def readReg (r : Reg) (s : State) : Word :=
  match r with
  | .id => idWord
  | .ctrl => ctrlWord s
  | .status => statusWord s
  | .cmd => s.cmd
  | .size => s.size
  | .ncur => s.ncur
  | .errinfo => s.errinfo
  | .aAddr => s.aAddr
  | .aLen => s.aLen
  | .bAddr => s.bAddr
  | .bLen => s.bLen
  | .dAddr => s.dAddr
  | .dLen => s.dLen
  | .width => s.width
  | .height => s.height
  | .fp0 => s.fp0
  | .fp1 => s.fp1

/-- A HOST write of a register other than CMD; writes of RO registers are ignored (R23, R36). A write of CMD is a
trigger (R27) and is not made here (Machine/Sequencer.lean). -/
def writeReg (r : Reg) (v : Word) (s : State) : State :=
  match r with
  | .id => s
  | .ctrl => writeCtrl v s
  | .status => writeStatus v s
  | .cmd => s
  | .size => { s with size := v }
  | .ncur => s
  | .errinfo => s
  | .aAddr => { s with aAddr := v }
  | .aLen => { s with aLen := v }
  | .bAddr => { s with bAddr := v }
  | .bLen => { s with bLen := v }
  | .dAddr => { s with dAddr := v }
  | .dLen => { s with dLen := v }
  | .width => { s with width := v }
  | .height => { s with height := v }
  | .fp0 => { s with fp0 := v }
  | .fp1 => { s with fp1 := v }

/-! ## The window (20_memory.md R60) -/

/-- The size of the device window, 32 MiB. -/
def windowSize : Nat := 0x02000000

/-- The offset of the reserved part that follows the register window. -/
def reservedBase : Nat := 0x00001000

/-- The offset of the DMEM window. -/
def dmemBase : Nat := 0x01000000

/-- What an offset of the window selects. -/
inductive Target where
  | register (r : Reg)   -- a register of R23
  | nothing              -- reserved: reads 0, writes ignored (R60, 10_state.md R36)
  | dmem (w : Nat)       -- DMEM word `w`, below DMEM_WORDS
  deriving DecidableEq, Repr

/-- The target of an aligned offset of the window. -/
def target (offset : Nat) (s : State) : Target :=
  if offset < reservedBase then
    match registerAt offset with
    | some r => .register r
    | none => .nothing
  else if offset < dmemBase then .nothing
  else if (offset - dmemBase) / 4 < s.dmemWords then .dmem ((offset - dmemBase) / 4)
  else .nothing

/-- Why an access is outside the spec, if it is (20_memory.md R61, 70_reset_and_hazards.md R270; 93 I2: refuse). -/
def accessRefusal (width : Nat) (offset : Int) (s : State) : Option Refusal :=
  if s.inReset then some .accessDuringReset
  else if width ≠ 32 then some .unsupportedWidth
  else if offset < 0 ∨ (windowSize : Int) ≤ offset then some .outsideWindow
  else if offset % 4 ≠ 0 then some .misalignedOffset
  else none

/-- The offset from DEV_BASE of a host address (20_memory.md R60; log entry 3). -/
def deviceOffset (hostAddress : Nat) : Int := (hostAddress : Int) - (Config.devBase : Int)

/-! ## Accesses -/

/-- A HOST read: the value goes to `rdata` and the block is unchanged (20_memory.md R67). A footprint word of the running
command reads as a free value (R70). -/
def hostRead (offset : Nat) (s : State) : State :=
  match target offset s with
  | .register r => { s with rdata := readReg r s }
  | .nothing => { s with rdata := 0 }
  | .dmem w =>
    if s.footprint w then { s with rdata := Config.freeWord s.draws w, draws := s.draws + 1 }
    else { s with rdata := readWord s w }

/-- A HOST write of DMEM word `w`: stored, or noted as clobbering the running command's footprint (R70). -/
def writeDmem (w : Nat) (v : Word) (s : State) : State :=
  if s.footprint w then { s with clobbered := s.clobbered ++ [w] }
  else { s with dmem := s.dmem.writeWords w [v] }

end Sys2Proof.Machine
end

