-- ==== Sys2Proof/Machine/Sequencer.lean ====
section
/-! DEFINITION. What each input does: the CMD write (10_state.md R27, R44, R47), SEQ's turn (R46), the other HOST accesses
and the reset edges. -/

namespace Sys2Proof.Machine

/-- A HOST write of `v` to CMD: dropped while BUSY (R47); while IDLE decoded and accepted (R44), an undecodable word
completing with ILLEGAL_COMMAND (60_exceptions.md R247). -/
def present (v : Word) (s : State) : Outcome :=
  match s.seq with
  | .busy _ => .next (dropCommand s)
  | .idle => match decode v with
    | .error _ => .next (rejectWord v s)
    | .ok i => exec i s

/-- SEQ's turn: the completion step of the running command (R46); nothing while IDLE. -/
def seqStep (s : State) : Outcome :=
  match s.seq with
  | .idle => .next s
  | .busy l => match decode l.word with
    | .error _ => .fault .undecodableLatch
    | .ok i => exec i s

/-- A HOST write at an offset of the window. -/
def hostWrite (offset : Nat) (v : Word) (s : State) : Outcome :=
  match target offset s with
  | .register .cmd => present v s
  | .register r => .next (writeReg r v s)
  | .nothing => .next s
  | .dmem w => .next (writeDmem w v s)

/-- What an input does. -/
def runInput (inp : Input) (s : State) : Outcome :=
  match inp with
  | .hostRead width offset => match accessRefusal width offset s with
    | some r => .refused r
    | none => .next (hostRead offset.toNat s)
  | .hostWrite width offset v => match accessRefusal width offset s with
    | some r => .refused r
    | none => hostWrite offset.toNat v s
  | .seqTurn => seqStep s
  | .assertReset powerOn => .next (assertReset powerOn s)
  | .releaseReset => .next (releaseReset s)

/-- One step: the next input, or SEQ's turn when there is none left (its step is always enabled while BUSY, R46). -/
def nextStep (s : State) : Outcome :=
  match s.inputs with
  | [] => seqStep s
  | inp :: rest => runInput inp { s with inputs := rest }

/-- The state with a command word about to be presented: SEQ IDLE, reset released, and a CMD write of the word as the
next input. -/
def withCommand (s : State) (v : Word) : State :=
  { s with seq := .idle, inReset := false, inputs := .hostWrite 32 0x00C v :: s.inputs }

end Sys2Proof.Machine
end

