-- ==== Sys2Proof/Machine/Step.lean ====
section
/-! DEFINITION. The step function (Machine/Sequencer.lean says what it does) and the placing of a command word. -/

namespace Sys2Proof.Machine

/-- One step of the block and its surroundings: the next input, or SEQ's turn. -/
def step (s : State) : Host.Outcome State Fault Refusal := nextStep s

/-- The state with the command word `w` (`nbits` bits, the rest zero) as the next input. A block that fetches no
instructions (10_state.md R22) takes its commands from HOST's CMD writes (log entry 2). -/
def State.withFetchWord (s : State) (nbits w : Nat) : State := withCommand s (BitVec.ofNat 32 (w % 2 ^ nbits))

end Sys2Proof.Machine
end

