-- ==== Sys2Proof/Safety.lean ====
section
/-! DEFINITION. The terms statements use: the invariant of the block, what a well-behaved host does, what a store of words
leaves alone, and what it means that a pattern is a correctly rounded real (00_scope.md glossary, RN). -/

namespace Sys2Proof.Machine

/-! ## The invariant -/

/-- NCUR or a latched size: 0 or a supported size (10_state.md R29). -/
def bindingOk (n : Word) : Bool := decide (n = 0) || sizeSupported n.toNat

/-- Every listed byte lies below an address. -/
abbrev Memory.below (m : Memory) (limit : Nat) : Prop := ∀ c ∈ m, c.1 < limit

/-- ERRINFO for each ERRCODE (60_exceptions.md R250). -/
def recordOk (code : ErrCode) (info : Word) : Bool :=
  match code with
  | .ok => decide (info = 0)
  | .invalidSize => decide (info = 0)
  | .sizeMismatch => decide (1 ≤ info.toNat) && decide (info.toNat ≤ 5)
  | .numericAssert => decide (info.toNat < Config.nmax)
  | .notConfigured => decide (info = 0)
  | .addressRange => decide (1 ≤ info.toNat) && decide (info.toNat ≤ 3)
  | .illegalCommand => decide (info = 0)

/-- SEQ is BUSY with `l` as acceptance left it: a command with a destination that passed its check (10_state.md R44), the
status cleared (R26), the read-back its word (R27), HOST's clobbering writes inside its footprint (20_memory.md R70). -/
def runningOk (s : State) (l : Latch) : Bool :=
  match decode l.word with
  | .error _ => false
  | .ok i =>
    usesD i && decide (check i l s.dmemWords = none) && bindingOk l.n && !s.done && decide (s.errcode = .ok) &&
      decide (s.errinfo = 0) && decide (s.cmd = l.word) && s.clobbered.all (inFootprint i l)

/-- The SEQ phase is IDLE with nothing clobbered, or BUSY as above. -/
def phaseOk (s : State) : Bool :=
  match s.seq with
  | .idle => decide (s.clobbered = [])
  | .busy l => runningOk s l

/-- The invariant of the block: it holds after reset and every step keeps it. -/
structure Inv (s : State) : Prop where
  memWf : s.dmem.wf
  memBelow : s.dmem.below (4 * s.dmemWords)
  binding : bindingOk s.ncur = true
  phase : phaseOk s = true
  record : recordOk s.errcode s.errinfo = true
  resetHeld : s.inReset = true → s.seq = .idle ∧ s.done = false

/-! ## What a well-behaved host does -/

/-- An input the spec supports in this state (20_memory.md R61, 70_reset_and_hazards.md R270). -/
def supportedInput (inp : Input) (s : State) : Bool :=
  match inp with
  | .hostRead width offset => decide (accessRefusal width offset s = none)
  | .hostWrite width offset _ => decide (accessRefusal width offset s = none)
  | .seqTurn | .assertReset _ | .releaseReset => true

/-- A HOST write of CMD, the trigger (10_state.md R27). -/
def isCommandWrite (inp : Input) : Bool :=
  match inp with
  | .hostWrite width offset _ => decide (width = 32) && decide (offset = 0x00C)
  | .hostRead _ _ | .seqTurn | .assertReset _ | .releaseReset => false

/-- An edge of the reset input. -/
def isReset (inp : Input) : Bool :=
  match inp with
  | .assertReset _ => true
  | .hostRead _ _ | .hostWrite _ _ _ | .seqTurn | .releaseReset => false

/-- SEQ has the next step: its turn is next, or nothing else is left. -/
def seqMovesNext (s : State) : Bool :=
  match s.inputs with
  | [] => true
  | .seqTurn :: _ => true
  | .hostRead _ _ :: _ | .hostWrite _ _ _ :: _ | .assertReset _ :: _ | .releaseReset :: _ => false

/-! ## Stores -/

/-- Every byte of DMEM outside `n` words from word address `b` reads as before. -/
def KeepsBytesOutside (s t : State) (b n : Nat) : Prop :=
  ∀ a, a < 4 * b ∨ 4 * (b + n) ≤ a → readByte t a = readByte s a

/-- Complex element `i` of the buffer at word address `b`: `Cplx(b, i)` (00_scope.md R10). -/
def cplxAt (s : State) (b i : Nat) : Cplx := ⟨readWord s (b + 2 * i), readWord s (b + 2 * i + 1)⟩

/-- What a completion leaves: the destination in `m`, SEQ IDLE, DONE set, and every other field as it was
(10_state.md R46). -/
def completedWith (s : State) (m : Memory) : State :=
  { s with dmem := m, seq := .idle, done := true, clobbered := [] }

/-! ## Commands run to completion -/

/-- A command presented while IDLE and completed at once: the state after its completion, if it was accepted. -/
def perform (i : Instr) (s : State) : Option State :=
  match exec i s with
  | .next t => match exec i t with
    | .next u => some u
    | .fault _ => none
    | .refused _ => none
  | .fault _ => none
  | .refused _ => none

/-- Commands performed one after the other. -/
def performAll : List Instr → State → Option State
  | [], s => some s
  | i :: rest, s => (perform i s).bind (performAll rest)

/-- Commands performed one after the other, each with a destination address of its own and reading the previous one's
destination: before each of them HOST writes D_ADDR and, but for the first, A_ADDR (42_fft.md R184). -/
def performChain : List (Instr × Word) → State → Option State
  | [], s => some s
  | (i, d) :: rest, s => (perform i { s with dAddr := d }).bind fun t => performChain rest { t with aAddr := d }

/-- STAGE 1 to STAGE log2 N, then NORM: the passes of a transform after its BITREV (42_fft.md R184). -/
def stagesAndNorm (lay : Layout) (n : Nat) : List Instr :=
  (List.range' 1 (Nat.log2 n)).map (fun k => .stage lay (BitVec.ofNat 5 k)) ++ [.norm lay]

/-- Whether a command reads DMEM word `w` as a source when latched as `l` (30_encoding.md R97). -/
def inSources (i : Instr) (l : Latch) (w : Nat) : Bool :=
  (usesA i && l.bufA.contains w) || (usesB i && l.bufB.contains w)

/-! ## Command words (30_encoding.md R96) -/

/-- The defined operation numbers (30_encoding.md R95). -/
def definedOpcodes : List (BitVec 8) :=
  [0x00, 0x01, 0x02, 0x03, 0x04, 0x05, 0x06, 0x10, 0x11, 0x12, 0x13, 0x14, 0x15, 0x20, 0x21, 0x22, 0x23, 0x30, 0x31]

/-- The clauses under which a word is a command, bit by bit (30_encoding.md R96). -/
def LegalWord (w : Word) : Prop :=
  w.extractLsb' 10 2 = 0 ∧ w.extractLsb' 17 15 = 0 ∧ w.extractLsb' 0 8 ∈ definedOpcodes ∧
    (if 2 ≤ (w.extractLsb' 0 8).toNat ∧ (w.extractLsb' 0 8).toNat ≤ 6 then w.extractLsb' 8 2 ≠ 3
      else w.extractLsb' 8 2 = 0) ∧
    (if w.extractLsb' 0 8 = 5 then w.extractLsb' 12 5 ≠ 0 else w.extractLsb' 12 5 = 0)

/-! ## Line transforms over another arithmetic (42_fft.md R183) -/

/-- The arithmetic a line transform is made of: the zero, the conjugate, the butterfly, the unit root `TW(N, j)` and the
scaling by `1/√N`. -/
structure LineArith (α : Type) where
  zero : α
  conj : α → α
  bfly : α → α → α → α × α
  root : Nat → Nat → α
  scale : Nat → α → α

/-- One butterfly pass of a line of `n` elements over an arithmetic (42_fft.md R174). -/
def stageOver {α : Type} (A : LineArith α) (n stg : Nat) (x : List α) : List α :=
  (List.range n).map fun j =>
    let size := 2 ^ stg
    let half := size / 2
    let k := j % size
    if k < half then (A.bfly (x.getD j A.zero) (x.getD (j + half) A.zero) (A.root n (k * (n / size)))).1
    else (A.bfly (x.getD (j - half) A.zero) (x.getD j A.zero) (A.root n ((k - half) * (n / size)))).2

/-- The forward transform of a line of `2^lg` elements over an arithmetic (42_fft.md R176). -/
def forwardOver {α : Type} (A : LineArith α) (lg : Nat) (x : List α) : List α :=
  let n := 2 ^ lg
  let reversed := (List.range n).map fun j => x.getD (bitrev j lg) A.zero
  ((List.range' 1 lg).foldl (fun y stg => stageOver A n stg y) reversed).map (A.scale n)

/-- The inverse transform (42_fft.md R177). -/
def inverseOver {α : Type} (A : LineArith α) (lg : Nat) (x : List α) : List α :=
  (forwardOver A lg (x.map A.conj)).map A.conj

/-- The block's arithmetic. -/
def blockArith : LineArith Cplx := ⟨czero, cconj, bfly, tw, fun n z => cscale z (invSqrt n)⟩

/-- The arithmetic of the derived transforms: a line's, with the complex product and the squared magnitude as an element
with imaginary part zero (43_derived.md R200, R202). -/
structure SpectrumArith (α : Type) extends LineArith α where
  mul : α → α → α
  square : α → α

/-- The two forward transforms of ACF, with the squared magnitudes between them (43_derived.md R200). -/
def acfOver {α : Type} (A : SpectrumArith α) (lg : Nat) (x : List α) : List α :=
  forwardOver A.toLineArith lg ((forwardOver A.toLineArith lg x).map A.square)

/-- The inverse transform of the element-wise product, as in CONV (43_derived.md R202). -/
def convOver {α : Type} (A : SpectrumArith α) (lg : Nat) (a b : List α) : List α :=
  inverseOver A.toLineArith lg (List.zipWith A.mul a b)

/-- "Exact real arithmetic in place of binary32" (42_fft.md R183). -/
def IsExactArith (A : LineArith ℂ) : Prop :=
  A.zero = 0 ∧ (∀ z, A.conj z = starRingEnd ℂ z) ∧ (∀ u v w, A.bfly u v w = (u + w * v, u - w * v)) ∧
    (∀ n j, A.root n j = Complex.exp (2 * Real.pi * Complex.I * j / n)) ∧ ∀ n z, A.scale n z = z / (Real.sqrt n : ℂ)

/-- The block's arithmetic of the derived transforms. -/
def blockSpectrum : SpectrumArith Cplx := ⟨blockArith, cmul, fun z => ⟨mag2 z, posZero⟩⟩

/-- The same for the derived transforms (43_derived.md R205, R206). -/
def IsExactSpectrum (A : SpectrumArith ℂ) : Prop :=
  IsExactArith A.toLineArith ∧ (∀ a b, A.mul a b = a * b) ∧ ∀ z, A.square z = (Complex.normSq z : ℂ)

/-! ## Correct rounding -/

/-- A finite pattern. -/
def Finite32 (x : Word) : Prop := absBits x < infBits

/-- The number a finite pattern stands for (00_scope.md R8). -/
def val32 (x : Word) : ℚ := (if signBit x then -1 else 1) * (magnitude (absBits x) : ℚ) / 2 ^ 149

/-- The least magnitude that rounds to infinity: the greatest finite value and half a unit in its last place. -/
def overflowBound : ℚ := (2 ^ 25 - 1) * 2 ^ 103

/-- `w` is the finite pattern nearest to the real `x`, ties to the even pattern. -/
def IsNearest (x : ℝ) (w : Word) : Prop :=
  Finite32 w ∧ (∀ v, Finite32 v → |(val32 w : ℝ) - x| ≤ |(val32 v : ℝ) - x|) ∧
    (∀ v, Finite32 v → val32 v ≠ val32 w → |(val32 v : ℝ) - x| = |(val32 w : ℝ) - x| → w.toNat % 2 = 0)

/-- `w` is the real `x` rounded once to nearest with ties to even, "a result too large in magnitude becomes the infinity
of its sign" (40_datapath.md R120). The sign of a zero result is not part of it. -/
def IsRounded (x : ℝ) (w : Word) : Prop :=
  ((overflowBound : ℝ) ≤ x → w = infinity false) ∧ (x ≤ -(overflowBound : ℝ) → w = infinity true) ∧
    (|x| < (overflowBound : ℝ) → IsNearest x w)

end Sys2Proof.Machine
end

