-- ==== Sys2Proof/Certificates/Slice0/Obligations.lean ====
section
/-! DEFINITION. The statements for the provers, each with the rule of spec/ it comes from (OBLIGATIONS.json). -/

open Sys2Proof Sys2Proof.Machine

/-! ## Command words -/

/-- 95_test_vectors.md 2.2, V-DEC-1 to V-DEC-16: words written out from the encoding decode as listed there. -/
def Obligations.SpecWordsDecode : Prop :=
  decode 0x00000002 = .ok (.fft .flat) ∧ decode 0x00000102 = .ok (.fft .rows) ∧ decode 0x00000203 = .ok (.ifft .cols) ∧
  decode 0x00001005 = .ok (.stage .flat 1) ∧ decode 0x00010005 = .ok (.stage .flat 16) ∧
  decode 0x0001F205 = .ok (.stage .cols 31) ∧ decode 0x00000023 = .ok .wavelet ∧ decode 0x00000031 = .ok .brread ∧
  decode 0x00000302 = .error .reservedLayout ∧ decode 0x00000005 = .error .stageZero ∧
  decode 0x00001002 = .error .stageNotAllowed ∧ decode 0x00000402 = .error .reservedBits ∧
  decode 0x00020002 = .error .reservedBits ∧ decode 0x80000000 = .error .reservedBits ∧
  decode 0x00000112 = .error .layoutNotAllowed ∧ decode 0x00000007 = .error .reservedOpcode

/-- 30_encoding.md R90, R95, R96: a word decodes to an instruction exactly when the instruction is well formed and the
word is its encoding. No bit of an encoding is dropped, and no two words mean one instruction. -/
def Obligations.DecodeAndEncodeAgree : Prop :=
  ∀ (w : Word) (i : Instr), decode w = .ok i ↔ i.wellFormed = true ∧ encode i = w

/-- 30_encoding.md R94, 60_exceptions.md R247: the legal words are those of R96's clauses; every other word written to
CMD while IDLE completes at once with ILLEGAL_COMMAND and ERRINFO 0, whatever the other registers hold. -/
def Obligations.IllegalWordsCompleteWithIllegalCommand : Prop :=
  ∀ (v : Word),
    ((∃ i, decode v = .ok i) ↔ LegalWord v) ∧
    ∀ (s : State) (rest : List Input), s.inReset = false → s.seq = .idle → s.inputs = .hostWrite 32 0x00C v :: rest →
      ¬ LegalWord v →
      step s = .next { s with
        inputs := rest, cmd := v, done := true, errcode := .illegalCommand, errinfo := 0 }

/-! ## The step -/

/-- 10_state.md R27, R44, R46: a CMD write while IDLE is `exec` of the decoded command; SEQ's turn while BUSY, and the
step when no input is left, is `exec` of the running one (that SEQ has the turn then is the model's schedule, log
entry 1). -/
def Obligations.StepRunsTheDecodedCommand : Prop :=
  ∀ (s : State) (i : Instr),
    (∀ v rest, s.inReset = false → s.seq = .idle → s.inputs = .hostWrite 32 0x00C v :: rest → decode v = .ok i →
      step s = exec i { s with inputs := rest }) ∧
    ∀ l, s.seq = .busy l → decode l.word = .ok i →
      (s.inputs = [] → step s = exec i s) ∧
      ∀ rest, s.inputs = .seqTurn :: rest → step s = exec i { s with inputs := rest }

/-- 10_state.md R47: "When HOST writes CMD while SEQ is BUSY, the write is dropped". -/
def Obligations.CommandWriteWhileBusyIsDropped : Prop :=
  ∀ (s : State) (l : Latch) (v : Word) (rest : List Input),
    s.inReset = false → s.seq = .busy l → s.inputs = .hostWrite 32 0x00C v :: rest →
    step s = .next { s with inputs := rest, ovr := true }

/-- 10_state.md R44: what a CMD write does while IDLE, for every word. -/
def Obligations.AcceptanceFollowsItsRule : Prop :=
  ∀ (s : State) (v : Word) (rest : List Input),
    s.inReset = false → s.seq = .idle → s.inputs = .hostWrite 32 0x00C v :: rest →
    step s = .next (
      match decode v with
      | .error _ =>
        { s with inputs := rest, cmd := v, done := true, errcode := .illegalCommand, errinfo := 0 }
      | .ok i =>
        match check i (latch v s) s.dmemWords with
        | some e => { s with inputs := rest, cmd := v, done := true, errcode := e.code, errinfo := e.info }
        | none =>
          if i = .nop then { s with inputs := rest, cmd := v, done := true, errcode := .ok, errinfo := 0 }
          else if i = .cfg then
            { s with inputs := rest, cmd := v, done := true, errcode := .ok, errinfo := 0, ncur := s.size }
          else
            { s with
              inputs := rest, cmd := v, done := false, errcode := .ok, errinfo := 0,
              seq := .busy (latch v s), clobbered := [] })

/-- 10_state.md R46: "The time from acceptance to this step is finite". In every state of the invariant, when HOST does
nothing more, the next step completes the running command: SEQ is IDLE, DONE is set, `irq` follows IE (that SEQ has the turn when
no input is left is the model's schedule, log entry 1). -/
def Obligations.RunningCommandCompletesNext : Prop :=
  ∀ (s : State) (l : Latch), Inv s → s.seq = .busy l → s.inputs = [] →
    ∃ t, step s = .next t ∧ t.seq = .idle ∧ t.done = true ∧ t.irq = s.ie

/-! ## The acceptance check -/

/-- 42_fft.md R172: the checks of the FFT family in their order. -/
def Obligations.FamilyChecksFollowTheirRule : Prop :=
  ∀ (lay : Layout) (l : Latch) (dmemWords : Nat),
    let w := l.w.toNat
    let h := l.h.toNat
    let lineLength := match lay with
      | .flat => w * h
      | .rows => w
      | .cols => h
    let lengthsAndRanges : Option CmdError :=
      if l.aLen.toNat ≠ 2 * w * h then some ⟨.sizeMismatch, 1⟩
      else if l.dLen.toNat ≠ 2 * w * h then some ⟨.sizeMismatch, 3⟩
      else if l.aAddr.toNat + l.aLen.toNat > dmemWords then some ⟨.addressRange, 1⟩
      else if l.dAddr.toNat + l.dLen.toNat > dmemWords then some ⟨.addressRange, 3⟩
      else none
    (∀ i ∈ [Instr.fft lay, .ifft lay, .bitrev lay, .norm lay],
      check i l dmemWords =
        if l.n = 0 then some ⟨.notConfigured, 0⟩
        else if w = 0 ∨ h = 0 ∨ lineLength ≠ l.n.toNat then some ⟨.sizeMismatch, 4⟩
        else lengthsAndRanges) ∧
    ∀ stg : BitVec 5,
      check (.stage lay stg) l dmemWords =
        if l.n = 0 then some ⟨.notConfigured, 0⟩
        else if w = 0 ∨ h = 0 ∨ lineLength ≠ l.n.toNat then some ⟨.sizeMismatch, 4⟩
        else if stg.toNat > Nat.log2 l.n.toNat then some ⟨.sizeMismatch, 5⟩
        else lengthsAndRanges

/-- 60_exceptions.md R242: INVALID_SIZE is raised by CFG alone, exactly when the size is no power of two from 2 to
NMAX, with ERRINFO 0; NCUR is unchanged. -/
def Obligations.InvalidSizeIsRaisedByCfgAlone : Prop :=
  (∀ (l : Latch) (dmemWords : Nat),
    check .cfg l dmemWords =
      if l.size.toNat ∈ (List.range' 1 16).map (fun k => 2 ^ k) then none else some ⟨.invalidSize, 0⟩) ∧
  (∀ (i : Instr) (l : Latch) (dmemWords : Nat) (e : CmdError),
    check i l dmemWords = some e → e.code = .invalidSize → i = .cfg ∧ e.info = 0) ∧
  ∀ (s : State), s.seq = .idle → s.size.toNat ∉ (List.range' 1 16).map (fun k => 2 ^ k) →
    exec .cfg s = .next { s with cmd := 0x00000001, done := true, errcode := .invalidSize, errinfo := 0 }

/-! ## NOP and CFG -/

/-- 44_control.md R230: NOP completes in the acceptance step and changes nothing but the record of commands. -/
def Obligations.NopCompletesAtOnce : Prop :=
  encode .nop = 0x00000000 ∧
  ∀ (s : State), s.seq = .idle →
    exec .nop s = .next { s with cmd := 0x00000000, done := true, errcode := .ok, errinfo := 0 }

/-- 42_fft.md R170: CFG binds the engine size in the acceptance step; STATUS then shows ENGV and LOG2N; an unsupported
size leaves the binding and records INVALID_SIZE. -/
def Obligations.CfgBindsTheSize : Prop :=
  encode .cfg = 0x00000001 ∧
  ∀ (s : State), s.seq = .idle →
    (∀ k, 1 ≤ k → k ≤ 16 → s.size.toNat = 2 ^ k →
      ∃ t, exec .cfg s = .next t ∧
        t = { s with cmd := 0x00000001, done := true, errcode := .ok, errinfo := 0, ncur := s.size } ∧
        t.engv = true ∧ t.log2n.toNat = k) ∧
    ((∀ k, 1 ≤ k → k ≤ 16 → s.size.toNat ≠ 2 ^ k) →
      exec .cfg s = .next { s with cmd := 0x00000001, done := true, errcode := .invalidSize, errinfo := 0 })

/-! ## Element-wise commands (41_complex_buffer.md) -/

/-- R151: EXPAND, its word, its checks and its completion. -/
def Obligations.ExpandFollowsItsRule : Prop :=
  encode .expand = 0x00000010 ∧
  (∀ (l : Latch) (dmemWords : Nat), check .expand l dmemWords =
    if l.aLen.toNat = 0 then some ⟨.sizeMismatch, 1⟩
    else if l.dLen.toNat ≠ 2 * l.aLen.toNat then some ⟨.sizeMismatch, 3⟩
    else if l.aAddr.toNat + l.aLen.toNat > dmemWords then some ⟨.addressRange, 1⟩
    else if l.dAddr.toNat + l.dLen.toNat > dmemWords then some ⟨.addressRange, 3⟩
    else none) ∧
  ∀ (s : State) (l : Latch), s.seq = .busy l → s.clobbered = [] →
    ∃ m, exec .expand s = .next (completedWith s m) ∧
      (∀ i, i < l.aLen.toNat →
        readWord (completedWith s m) (l.dAddr.toNat + 2 * i) = readWord s (l.aAddr.toNat + i) ∧
        readWord (completedWith s m) (l.dAddr.toNat + 2 * i + 1) = 0x00000000) ∧
      KeepsBytesOutside s (completedWith s m) l.dAddr.toNat (2 * l.aLen.toNat)

/-- R152: CONJ, its word, its checks and its completion; bit 31 of every imaginary word is inverted, NaN or not. -/
def Obligations.ConjFollowsItsRule : Prop :=
  encode .conj = 0x00000011 ∧
  (∀ (l : Latch) (dmemWords : Nat), check .conj l dmemWords =
    if l.aLen.toNat = 0 ∨ l.aLen.toNat % 2 = 1 then some ⟨.sizeMismatch, 1⟩
    else if l.dLen.toNat ≠ l.aLen.toNat then some ⟨.sizeMismatch, 3⟩
    else if l.aAddr.toNat + l.aLen.toNat > dmemWords then some ⟨.addressRange, 1⟩
    else if l.dAddr.toNat + l.dLen.toNat > dmemWords then some ⟨.addressRange, 3⟩
    else none) ∧
  ∀ (s : State) (l : Latch), s.seq = .busy l → s.clobbered = [] →
    ∃ m, exec .conj s = .next (completedWith s m) ∧
      (∀ i, i < l.aLen.toNat / 2 →
        readWord (completedWith s m) (l.dAddr.toNat + 2 * i) = readWord s (l.aAddr.toNat + 2 * i) ∧
        readWord (completedWith s m) (l.dAddr.toNat + 2 * i + 1) =
          readWord s (l.aAddr.toNat + 2 * i + 1) ^^^ 0x80000000) ∧
      KeepsBytesOutside s (completedWith s m) l.dAddr.toNat (2 * (l.aLen.toNat / 2))

/-- R153: CMUL, its word, its checks and its completion. -/
def Obligations.CmulFollowsItsRule : Prop :=
  encode .cmul = 0x00000012 ∧
  (∀ (l : Latch) (dmemWords : Nat), check .cmul l dmemWords =
    if l.aLen.toNat = 0 ∨ l.aLen.toNat % 2 = 1 then some ⟨.sizeMismatch, 1⟩
    else if l.bLen.toNat ≠ l.aLen.toNat then some ⟨.sizeMismatch, 2⟩
    else if l.dLen.toNat ≠ l.aLen.toNat then some ⟨.sizeMismatch, 3⟩
    else if l.aAddr.toNat + l.aLen.toNat > dmemWords then some ⟨.addressRange, 1⟩
    else if l.bAddr.toNat + l.bLen.toNat > dmemWords then some ⟨.addressRange, 2⟩
    else if l.dAddr.toNat + l.dLen.toNat > dmemWords then some ⟨.addressRange, 3⟩
    else none) ∧
  ∀ (s : State) (l : Latch), s.seq = .busy l → s.clobbered = [] →
    ∃ m, exec .cmul s = .next (completedWith s m) ∧
      (∀ i, i < l.aLen.toNat / 2 →
        let a := cplxAt s l.aAddr.toNat i
        let b := cplxAt s l.bAddr.toNat i
        cplxAt (completedWith s m) l.dAddr.toNat i =
          ⟨sub32 (mul32 a.re b.re) (mul32 a.im b.im), add32 (mul32 a.re b.im) (mul32 a.im b.re)⟩) ∧
      KeepsBytesOutside s (completedWith s m) l.dAddr.toNat (2 * (l.aLen.toNat / 2))

/-- R154, R155: MAG and MAG2, their words, their checks and their completions. -/
def Obligations.MagnitudesFollowTheirRules : Prop :=
  encode .mag = 0x00000013 ∧ encode .mag2 = 0x00000014 ∧
  (∀ (l : Latch) (dmemWords : Nat), ∀ i ∈ [Instr.mag, .mag2], check i l dmemWords =
    if l.aLen.toNat = 0 ∨ l.aLen.toNat % 2 = 1 then some ⟨.sizeMismatch, 1⟩
    else if l.dLen.toNat ≠ l.aLen.toNat / 2 then some ⟨.sizeMismatch, 3⟩
    else if l.aAddr.toNat + l.aLen.toNat > dmemWords then some ⟨.addressRange, 1⟩
    else if l.dAddr.toNat + l.dLen.toNat > dmemWords then some ⟨.addressRange, 3⟩
    else none) ∧
  ∀ (s : State) (l : Latch), s.seq = .busy l → s.clobbered = [] →
    (∃ m, exec .mag s = .next (completedWith s m) ∧
      (∀ i, i < l.aLen.toNat / 2 →
        let z := cplxAt s l.aAddr.toNat i
        readWord (completedWith s m) (l.dAddr.toNat + i) = sqrt32 (add32 (mul32 z.re z.re) (mul32 z.im z.im))) ∧
      KeepsBytesOutside s (completedWith s m) l.dAddr.toNat (l.aLen.toNat / 2)) ∧
    ∃ m, exec .mag2 s = .next (completedWith s m) ∧
      (∀ i, i < l.aLen.toNat / 2 →
        let z := cplxAt s l.aAddr.toNat i
        readWord (completedWith s m) (l.dAddr.toNat + i) = add32 (mul32 z.re z.re) (mul32 z.im z.im)) ∧
      KeepsBytesOutside s (completedWith s m) l.dAddr.toNat (l.aLen.toNat / 2)

/-- R156: PHASE, its word, its checks and its completion. -/
def Obligations.PhaseFollowsItsRule : Prop :=
  encode .phase = 0x00000015 ∧
  (∀ (l : Latch) (dmemWords : Nat), check .phase l dmemWords =
    if l.aLen.toNat = 0 ∨ l.aLen.toNat % 2 = 1 then some ⟨.sizeMismatch, 1⟩
    else if l.dLen.toNat ≠ l.aLen.toNat / 2 then some ⟨.sizeMismatch, 3⟩
    else if l.aAddr.toNat + l.aLen.toNat > dmemWords then some ⟨.addressRange, 1⟩
    else if l.dAddr.toNat + l.dLen.toNat > dmemWords then some ⟨.addressRange, 3⟩
    else none) ∧
  ∀ (s : State) (l : Latch), s.seq = .busy l → s.clobbered = [] →
    ∃ m, exec .phase s = .next (completedWith s m) ∧
      (∀ i, i < l.aLen.toNat / 2 →
        let z := cplxAt s l.aAddr.toNat i
        let m2 := sqrt32 (add32 (mul32 z.re z.re) (mul32 z.im z.im))
        let sg : Word := if isNaN32 z.im then 0x7FC00000 else if absBits z.im = 0 then 0x00000000
          else if signBit z.im then 0xBF800000 else 0x3F800000
        readWord (completedWith s m) (l.dAddr.toNat + i) =
          if absBits m2 = 0 then 0x00000000 else mul32 sg (acosF (div32 z.re m2))) ∧
      KeepsBytesOutside s (completedWith s m) l.dAddr.toNat (l.aLen.toNat / 2)

/-! ## The FFT family (42_fft.md) -/

/-- R171, R178 to R182: the command words; the lines of the three layouts, to exactly one of which every buffer element
belongs; and with the latched operands of an accepted command (R172), FFT, IFFT, BITREV, STAGE and NORM complete, every
line of the destination being the command's line function of the same line of the source. -/
def Obligations.FamilyCommandsTransformEveryLine : Prop :=
  ∀ (lay : Layout) (stg : BitVec 5) (s : State) (l : Latch),
    let w := l.w.toNat
    let h := l.h.toNat
    let n := l.n.toNat
    let layWord := match lay with
      | .flat => 0x000
      | .rows => 0x100
      | .cols => 0x200
    let lines := match lay with
      | .flat => 1
      | .rows => h
      | .cols => w
    let place := fun r j => match lay with
      | .flat => j
      | .rows => r * w + j
      | .cols => j * w + r
    ((encode (.fft lay)).toNat = layWord + 0x02 ∧ (encode (.ifft lay)).toNat = layWord + 0x03 ∧
      (encode (.bitrev lay)).toNat = layWord + 0x04 ∧
      (encode (.stage lay stg)).toNat = stg.toNat * 0x1000 + layWord + 0x05 ∧
      (encode (.norm lay)).toNat = layWord + 0x06) ∧
    ∀ c ∈ [(Instr.fft lay, fftLine n), (.ifft lay, ifftLine n), (.bitrev lay, bitrevPass n),
        (.stage lay stg, stagePass n stg.toNat), (.norm lay, normPass n)],
      s.seq = .busy l → s.clobbered = [] → check c.1 l s.dmemWords = none →
        (∀ e, e < w * h → ∃! p : Nat × Nat, p.1 < lines ∧ p.2 < n ∧ place p.1 p.2 = e) ∧
        ∃ m, exec c.1 s = .next (completedWith s m) ∧
          (∀ r j, r < lines → j < n →
            cplxAt (completedWith s m) l.dAddr.toNat (place r j) =
              elem (c.2 ((List.range n).map fun k => cplxAt s l.aAddr.toNat (place r k))) j) ∧
          KeepsBytesOutside s (completedWith s m) l.dAddr.toNat (2 * w * h)

/-- R175 to R177: every element of a normalised line is scaled by `INVSQRT(N)`; the forward transform runs the passes
one after the other, each on the whole result of the one before; the inverse is conjugate, forward, conjugate. -/
def Obligations.LineTransformsAreTheirPasses : Prop :=
  ∀ (lg : Nat) (x : List Cplx), x.length = 2 ^ lg →
    let n := 2 ^ lg
    (∀ j, j < n → elem (normPass n x) j = ⟨mul32 (elem x j).re (invSqrt n), mul32 (elem x j).im (invSqrt n)⟩) ∧
    (∀ y : Nat → List Cplx, y 0 = bitrevPass n x → (∀ l, l < lg → y (l + 1) = stagePass n (l + 1) (y l)) →
      fftLine n x = normPass n (y lg)) ∧
    ∀ j, j < n →
      elem (ifftLine n x) j = cconj (elem (fftLine n ((List.range n).map fun i => cconj (elem x i))) j)

/-- R174, 40_datapath.md R125, R128: the pair `(j, j + h)` of a stage receives exactly the butterfly of the pair: `t` is
the product of the twiddle `TW(N, k·N/s)` and the odd input, `hi` the sum of the parts, `lo` their difference. -/
def Obligations.StagePairsAreButterflies : Prop :=
  (∀ (u v w : Cplx),
    let t := cmul w v
    bfly u v w = (⟨add32 u.re t.re, add32 u.im t.im⟩, ⟨sub32 u.re t.re, sub32 u.im t.im⟩)) ∧
  ∀ (lg stg : Nat) (x : List Cplx) (j : Nat), 1 ≤ stg → stg ≤ lg → j < 2 ^ lg → j % 2 ^ stg < 2 ^ (stg - 1) →
    let n := 2 ^ lg
    let half := 2 ^ (stg - 1)
    let u := elem x j
    let t := cmul (twrom (j % 2 ^ stg * (n / 2 ^ stg) * (65536 / n))) (elem x (j + half))
    elem (stagePass n stg x) j = ⟨add32 u.re t.re, add32 u.im t.im⟩ ∧
      elem (stagePass n stg x) (j + half) = ⟨sub32 u.re t.re, sub32 u.im t.im⟩

/-- R173, R180: BITREV copies every element bit for bit, and applied twice restores the line. -/
def Obligations.BitrevTwiceRestoresTheLine : Prop :=
  ∀ (lg : Nat) (x : List Cplx), x.length = 2 ^ lg →
    (∀ j, j < 2 ^ lg → elem (bitrevPass (2 ^ lg) x) j = elem x (bitrev j lg)) ∧
    bitrevPass (2 ^ lg) (bitrevPass (2 ^ lg) x) = x

/-- R184: BITREV; STAGE 1; …; STAGE log2 N; NORM, each reading the previous one's destination. With a destination of its
own for every command, the last destination holds exactly the words FFT writes there for the same source. With one
destination for all, the whole state is the one FFT leaves, but for the read-back of the last command and the source
address the host moved. -/
def Obligations.PassSequenceEqualsFft : Prop :=
  ∀ (s : State) (lay : Layout), Inv s → s.seq = .idle →
    check (.fft lay) (latch (encode (.fft lay)) s) s.dmemWords = none →
    (∀ ds : List Word, ds.length = Nat.log2 s.ncur.toNat + 2 → (∀ d ∈ ds, d.toNat + s.dLen.toNat ≤ s.dmemWords) →
      let last := ds.getLastD 0
      ∃ t u, performChain ((.bitrev lay :: stagesAndNorm lay s.ncur.toNat).zip ds) s = some t ∧
        perform (.fft lay) { s with dAddr := last } = some u ∧ t.errcode = .ok ∧ u.errcode = .ok ∧
        ∀ i, i < s.dLen.toNat → readWord t (last.toNat + i) = readWord u (last.toNat + i)) ∧
    ∃ t1 t u, perform (.bitrev lay) s = some t1 ∧
      performAll (stagesAndNorm lay s.ncur.toNat) { t1 with aAddr := t1.dAddr } = some t ∧
      perform (.fft lay) s = some u ∧
      t = { u with cmd := encode (.norm lay), aAddr := s.dAddr }

/-- R183, "the impulse case is exact: every bin is `(INVSQRT(N), +0.0)`", for every supported size. -/
def Obligations.ImpulseHasAFlatSpectrum : Prop :=
  ∀ lg : Nat, 1 ≤ lg → lg ≤ 16 →
    fftLine (2 ^ lg) (⟨0x3F800000, 0x00000000⟩ :: List.replicate (2 ^ lg - 1) ⟨0x00000000, 0x00000000⟩) =
      List.replicate (2 ^ lg) ⟨invSqrt (2 ^ lg), 0x00000000⟩

/-- R183: the block's forward and inverse transforms are one algorithm over its arithmetic, and that algorithm over exact
arithmetic is the unitary DFT with a positive exponent, its inverse, and keeps the sum of squares. -/
def Obligations.ExactTransformIsTheUnitaryDft : Prop :=
  (∀ (lg : Nat) (x : List Cplx),
    fftLine (2 ^ lg) x = forwardOver blockArith lg x ∧ ifftLine (2 ^ lg) x = inverseOver blockArith lg x) ∧
  ∀ (A : LineArith ℂ) (lg : Nat) (x : List ℂ), IsExactArith A → x.length = 2 ^ lg →
    let n := 2 ^ lg
    (∀ k, k < n → (forwardOver A lg x).getD k 0 =
      (∑ m ∈ Finset.range n, x.getD m 0 * Complex.exp (2 * Real.pi * Complex.I * m * k / n)) / (Real.sqrt n : ℂ)) ∧
    (∀ k, k < n → (inverseOver A lg x).getD k 0 =
      (∑ m ∈ Finset.range n, x.getD m 0 * Complex.exp (-(2 * Real.pi * Complex.I * m * k) / n)) / (Real.sqrt n : ℂ)) ∧
    inverseOver A lg (forwardOver A lg x) = x ∧
    ((forwardOver A lg x).map Complex.normSq).sum = (x.map Complex.normSq).sum

/-- R205, R206: what ACF and CONV write are the parts of one algorithm each over the block's arithmetic; over exact
arithmetic the algorithm of ACF gives the circular autocorrelation and that of CONV the circular convolution, each
divided by `√N`. -/
def Obligations.ExactAcfAndConvLaws : Prop :=
  (∀ (lg : Nat) (l : Latch) (s : State), l.n.toNat = 2 ^ lg →
    let n := 2 ^ lg
    (acfResult l s).words =
      (acfOver blockSpectrum lg ((List.range n).map fun i => ⟨readWord s (l.aAddr.toNat + i), 0x00000000⟩)).map Cplx.re ∧
    (convResult l s).words =
      (convOver blockSpectrum lg ((List.range n).map (cplxAt s l.aAddr.toNat))
        ((List.range n).map (cplxAt s l.bAddr.toNat))).map mag) ∧
  ∀ (A : SpectrumArith ℂ) (lg : Nat), IsExactSpectrum A →
    let n := 2 ^ lg
    (∀ x : List ℝ, x.length = n → ∀ m, m < n →
      (acfOver A lg (x.map fun r => (r : ℂ))).getD m 0 =
        (∑ i ∈ Finset.range n, (x.getD i 0 : ℂ) * (x.getD ((i + m) % n) 0 : ℂ)) / (Real.sqrt n : ℂ)) ∧
    ∀ x y : List ℂ, x.length = n → y.length = n → ∀ m, m < n →
      ‖(convOver A lg (forwardOver A.toLineArith lg x) (forwardOver A.toLineArith lg y)).getD m 0‖ =
        ‖∑ i ∈ Finset.range n, x.getD i 0 * y.getD ((m + n - i) % n) 0‖ / Real.sqrt n

/-! ## Derived transforms (43_derived.md) -/

/-- R200, R201: ACF, its word, its checks, its completion and its numeric check: a lag passes when its imaginary part with
bit 31 cleared is a pattern not above that of EPS (the patterns of positive numbers are ordered as the numbers are, and
those of NaN lie above them all). -/
def Obligations.AcfFollowsItsRule : Prop :=
  encode .acf = 0x00000020 ∧
  (∀ (l : Latch) (dmemWords : Nat), check .acf l dmemWords =
    if l.n = 0 then some ⟨.notConfigured, 0⟩
    else if l.aLen.toNat ≠ l.n.toNat then some ⟨.sizeMismatch, 1⟩
    else if l.dLen.toNat ≠ l.n.toNat then some ⟨.sizeMismatch, 3⟩
    else if l.aAddr.toNat + l.aLen.toNat > dmemWords then some ⟨.addressRange, 1⟩
    else if l.dAddr.toNat + l.dLen.toNat > dmemWords then some ⟨.addressRange, 3⟩
    else none) ∧
  ∀ (s : State) (l : Latch), s.seq = .busy l → s.clobbered = [] →
    let n := l.n.toNat
    let x := (List.range n).map fun i => (⟨readWord s (l.aAddr.toNat + i), 0x00000000⟩ : Cplx)
    let p := (List.range n).map fun k => (⟨mag2 (elem (fftLine n x) k), 0x00000000⟩ : Cplx)
    let r := fftLine n p
    let withinEps := fun k => (elem r k).im.toNat % 2 ^ 31 ≤ 0x358637BD
    ∃ m,
      (∀ k, k < n → readWord (completedWith s m) (l.dAddr.toNat + k) = (elem r k).re) ∧
      KeepsBytesOutside s (completedWith s m) l.dAddr.toNat n ∧
      ((l.numchk = false ∨ ∀ k, k < n → withinEps k) → exec .acf s = .next (completedWith s m)) ∧
      ∀ k, k < n → l.numchk = true → ¬ withinEps k → (∀ j, j < k → withinEps j) →
        exec .acf s = .next { completedWith s m with errcode := .numericAssert, errinfo := BitVec.ofNat 32 k }

/-- R202: CONV, its word, its checks and its completion. -/
def Obligations.ConvFollowsItsRule : Prop :=
  encode .conv = 0x00000021 ∧
  (∀ (l : Latch) (dmemWords : Nat), check .conv l dmemWords =
    if l.n = 0 then some ⟨.notConfigured, 0⟩
    else if l.aLen.toNat ≠ 2 * l.n.toNat then some ⟨.sizeMismatch, 1⟩
    else if l.bLen.toNat ≠ 2 * l.n.toNat then some ⟨.sizeMismatch, 2⟩
    else if l.dLen.toNat ≠ l.n.toNat then some ⟨.sizeMismatch, 3⟩
    else if l.aAddr.toNat + l.aLen.toNat > dmemWords then some ⟨.addressRange, 1⟩
    else if l.bAddr.toNat + l.bLen.toNat > dmemWords then some ⟨.addressRange, 2⟩
    else if l.dAddr.toNat + l.dLen.toNat > dmemWords then some ⟨.addressRange, 3⟩
    else none) ∧
  ∀ (s : State) (l : Latch), s.seq = .busy l → s.clobbered = [] →
    let n := l.n.toNat
    let p := (List.range n).map fun k => cmul (cplxAt s l.aAddr.toNat k) (cplxAt s l.bAddr.toNat k)
    ∃ m, exec .conv s = .next (completedWith s m) ∧
      (∀ k, k < n → readWord (completedWith s m) (l.dAddr.toNat + k) = mag (elem (ifftLine n p) k)) ∧
      KeepsBytesOutside s (completedWith s m) l.dAddr.toNat n

/-- R203: BISPEC, its word, its checks and its completion. -/
def Obligations.BispecFollowsItsRule : Prop :=
  encode .bispec = 0x00000022 ∧
  (∀ (l : Latch) (dmemWords : Nat), check .bispec l dmemWords =
    if l.n = 0 then some ⟨.notConfigured, 0⟩
    else if l.aLen.toNat ≠ 2 * l.n.toNat then some ⟨.sizeMismatch, 1⟩
    else if l.dLen.toNat ≠ 2 * l.n.toNat ^ 2 then some ⟨.sizeMismatch, 3⟩
    else if l.aAddr.toNat + l.aLen.toNat > dmemWords then some ⟨.addressRange, 1⟩
    else if l.dAddr.toNat + l.dLen.toNat > dmemWords then some ⟨.addressRange, 3⟩
    else none) ∧
  ∀ (s : State) (l : Latch), s.seq = .busy l → s.clobbered = [] →
    let n := l.n.toNat
    let x := cplxAt s l.aAddr.toNat
    ∃ m, exec .bispec s = .next (completedWith s m) ∧
      (∀ f1 f2, f1 < n → f2 < n →
        cplxAt (completedWith s m) l.dAddr.toNat (f1 * n + f2) =
          cmul (cmul (x f1) (x f2)) ⟨(x ((f1 + f2) % n)).re, neg32 (x ((f1 + f2) % n)).im⟩) ∧
      KeepsBytesOutside s (completedWith s m) l.dAddr.toNat (2 * n ^ 2)

/-- R203, "the surface is symmetric bit for bit, `B(f1, f2) = B(f2, f1)`". -/
def Obligations.BispectrumIsSymmetric : Prop :=
  ∀ (n : Nat) (x : List Cplx) (f1 f2 : Nat), f1 < n → f2 < n →
    elem (bispecSurface n x) (f1 * n + f2) = elem (bispecSurface n x) (f2 * n + f1)

/-- R204: WAVELET, its word, its checks and its completion. -/
def Obligations.WaveletFollowsItsRule : Prop :=
  encode .wavelet = 0x00000023 ∧
  (∀ (l : Latch) (dmemWords : Nat), check .wavelet l dmemWords =
    if l.n = 0 then some ⟨.notConfigured, 0⟩
    else if l.dLen.toNat ≠ 2 * l.n.toNat then some ⟨.sizeMismatch, 3⟩
    else if l.dAddr.toNat + l.dLen.toNat > dmemWords then some ⟨.addressRange, 3⟩
    else none) ∧
  ∀ (s : State) (l : Latch), s.seq = .busy l → s.clobbered = [] →
    let n := l.n.toNat
    let m := mul32 0x40C90FDB l.fp1
    let sc := sqrt32 (mul32 m l.fp0)
    ∃ mem, exec .wavelet s = .next (completedWith s mem) ∧
      (∀ k, k < n →
        let d := sub32 (div32 (mul32 l.fp0 (cvt32 k)) (cvt32 n)) 0x3F800000
        let a := mul32 m d
        let amp := mul32 0x3FAA6932 (expF (mul32 0xBF000000 (mul32 a a)))
        cplxAt (completedWith s mem) l.dAddr.toNat k =
          if k ≤ n / 2 then ⟨mul32 amp sc, 0x00000000⟩ else ⟨0x00000000, 0x00000000⟩) ∧
      KeepsBytesOutside s (completedWith s mem) l.dAddr.toNat (2 * n)

/-! ## Table readout (44_control.md) -/

/-- R231: TWREAD, its word, its checks and its completion. -/
def Obligations.TwreadFollowsItsRule : Prop :=
  encode .twread = 0x00000030 ∧
  (∀ (l : Latch) (dmemWords : Nat), check .twread l dmemWords =
    if l.n = 0 then some ⟨.notConfigured, 0⟩
    else if l.dLen.toNat ≠ 2 * l.n.toNat then some ⟨.sizeMismatch, 3⟩
    else if l.dAddr.toNat + l.dLen.toNat > dmemWords then some ⟨.addressRange, 3⟩
    else none) ∧
  ∀ (s : State) (l : Latch), s.seq = .busy l → s.clobbered = [] →
    ∃ m, exec .twread s = .next (completedWith s m) ∧
      (∀ j, j < l.n.toNat → cplxAt (completedWith s m) l.dAddr.toNat j = twrom (j * (65536 / l.n.toNat))) ∧
      KeepsBytesOutside s (completedWith s m) l.dAddr.toNat (2 * l.n.toNat)

/-- R232: BRREAD, its word, its checks and its completion. -/
def Obligations.BrreadFollowsItsRule : Prop :=
  encode .brread = 0x00000031 ∧
  (∀ (l : Latch) (dmemWords : Nat), check .brread l dmemWords =
    if l.n = 0 then some ⟨.notConfigured, 0⟩
    else if l.dLen.toNat ≠ l.n.toNat then some ⟨.sizeMismatch, 3⟩
    else if l.dAddr.toNat + l.dLen.toNat > dmemWords then some ⟨.addressRange, 3⟩
    else none) ∧
  ∀ (s : State) (l : Latch), s.seq = .busy l → s.clobbered = [] →
    ∃ m, exec .brread s = .next (completedWith s m) ∧
      (∀ lg j, l.n.toNat = 2 ^ lg → j < l.n.toNat →
        (readWord (completedWith s m) (l.dAddr.toNat + j)).toNat = bitrev j lg) ∧
      KeepsBytesOutside s (completedWith s m) l.dAddr.toNat l.n.toNat

/-! ## A running command and HOST (20_memory.md) -/

/-- R70, 10_state.md R46, 43_derived.md R201: while BUSY a HOST read of a footprint word returns a free value; after a HOST
write to one, that word and every destination word hold free values after completion, and every other word what it held.
Nothing else differs from an undisturbed completion: ERRCODE and ERRINFO are kept, but for ACF with NUMCHK latched, whose
numeric check is that of R201 on the transform of its source, a source word that HOST wrote being read as a free value.
That the written value is not stored in between, that it is read so, and how the free values are drawn, is the model's
choice (log entries 6 and 7). -/
def Obligations.FootprintAccessesAreUnspecified : Prop :=
  ∀ (s : State) (l : Latch) (i : Instr), s.seq = .busy l → decode l.word = .ok i → s.inReset = false →
    (∀ w rest, w < s.dmemWords → inFootprint i l w = true →
      (s.inputs = .hostRead 32 (0x01000000 + 4 * w) :: rest →
        step s = .next { s with inputs := rest, rdata := Config.freeWord s.draws w, draws := s.draws + 1 }) ∧
      ∀ v, s.inputs = .hostWrite 32 (0x01000000 + 4 * w) v :: rest →
        step s = .next { s with inputs := rest, clobbered := s.clobbered ++ [w] }) ∧
    (usesD i = true → s.clobbered ≠ [] →
      ∃ t, exec i s = .next t ∧
        t = { completedWith s t.dmem with draws := t.draws, errcode := t.errcode, errinfo := t.errinfo } ∧
        (∀ w, readWord t w =
          if w ∈ s.clobbered ∨ (l.dAddr.toNat ≤ w ∧ w < l.dAddr.toNat + l.dLen.toNat) then Config.freeWord s.draws w
          else readWord s w) ∧
        let n := l.n.toNat
        let source := fun w => if w ∈ s.clobbered then Config.freeWord (s.draws + 1) w else readWord s w
        let x := (List.range n).map fun k => (⟨source (l.aAddr.toNat + k), 0x00000000⟩ : Cplx)
        let p := (List.range n).map fun k => (⟨mag2 (elem (fftLine n x) k), 0x00000000⟩ : Cplx)
        let withinEps := fun k => (elem (fftLine n p) k).im.toNat % 2 ^ 31 ≤ 0x358637BD
        (i ≠ .acf ∨ l.numchk = false ∨ (∀ k, k < n → withinEps k) → t.errcode = s.errcode ∧ t.errinfo = s.errinfo) ∧
        ∀ k, k < n → i = .acf → l.numchk = true → ¬ withinEps k → (∀ j, j < k → withinEps j) →
          t.errcode = .numericAssert ∧ t.errinfo = BitVec.ofNat 32 k)

/-- R71, R72, 30_encoding.md R97: what a command leaves in its destination, and the error it records, depend on its
latched operands and the words of its source buffers alone: two runs that agree on those agree, whatever the registers
and the rest of DMEM hold. -/
def Obligations.ResultsDependOnSourcesAlone : Prop :=
  ∀ (i : Instr) (l : Latch) (s u : State), s.seq = .busy l → u.seq = .busy l → s.clobbered = [] → u.clobbered = [] →
    usesD i = true → check i l s.dmemWords = none →
    (∀ w, inSources i l w = true → readWord s w = readWord u w) →
    ∃ t v, exec i s = .next t ∧ exec i u = .next v ∧
      (∀ w, l.bufD.contains w = true → readWord t w = readWord v w) ∧
      (s.errcode = u.errcode → t.errcode = v.errcode) ∧ (s.errinfo = u.errinfo → t.errinfo = v.errinfo)

/-- R66, R68, R73: a step changes a byte of DMEM only by SEQ's step inside the footprint of the running command, by a
HOST write to that word, or by reset. -/
def Obligations.DmemChangesOnlyInsideTheFootprint : Prop :=
  ∀ (s t : State) (a : Nat), Inv s → step s = .next t → readByte t a ≠ readByte s a →
    (seqMovesNext s = true ∧ s.footprint (a / 4) = true) ∨
    (∃ v rest, s.inputs = .hostWrite 32 (0x01000000 + 4 * (a / 4 : Nat)) v :: rest) ∨
    ∃ inp rest, s.inputs = inp :: rest ∧ isReset inp = true

/-! ## Arithmetic (40_datapath.md) -/

/-- R120, R123: addition and subtraction are the exact sum and difference rounded once, to nearest with ties to even; an
exact zero is −0.0 only as the sum of two negative zeros; with an infinite operand, or two that agree, the result is that
infinity. With NanResultsAreCanonical and SpecialCasesFollowTheirRule this fixes every result. -/
def Obligations.SumsAreCorrectlyRounded : Prop :=
  (∀ (a b : Word), Finite32 a → Finite32 b →
    IsRounded ((val32 a : ℝ) + val32 b) (add32 a b) ∧ IsRounded ((val32 a : ℝ) - val32 b) (sub32 a b) ∧
    (val32 a + val32 b = 0 → add32 a b = if signBit a && signBit b then 0x80000000 else 0x00000000) ∧
    (val32 a - val32 b = 0 → sub32 a b = if signBit a && !signBit b then 0x80000000 else 0x00000000)) ∧
  ∀ n : Bool,
    let inf : Word := if n then 0xFF800000 else 0x7F800000
    let opposite : Word := if n then 0x7F800000 else 0xFF800000
    (∀ b, Finite32 b →
      add32 inf b = inf ∧ add32 b inf = inf ∧ sub32 inf b = inf ∧ sub32 b inf = opposite) ∧
    add32 inf inf = inf ∧ sub32 inf opposite = inf

/-- R120: multiplication and division are the exact product and quotient rounded once, with the sign the exclusive-or
of the operands' signs (R123); an infinity times anything but a zero or a NaN, and an infinity divided by a finite value,
is an infinity, and a finite value divided by an infinity a zero, each of that sign. With NanResultsAreCanonical and
SpecialCasesFollowTheirRule this fixes every result. -/
def Obligations.ProductsAndQuotientsAreCorrectlyRounded : Prop :=
  (∀ (a b : Word), Finite32 a → Finite32 b →
    IsRounded ((val32 a : ℝ) * val32 b) (mul32 a b) ∧ signBit (mul32 a b) = (signBit a ^^ signBit b) ∧
    (val32 b ≠ 0 →
      IsRounded ((val32 a : ℝ) / val32 b) (div32 a b) ∧ signBit (div32 a b) = (signBit a ^^ signBit b))) ∧
  ∀ (n : Bool) (b : Word),
    let inf : Word := if n then 0xFF800000 else 0x7F800000
    let signedInf : Word := if n ^^ signBit b then 0xFF800000 else 0x7F800000
    (isNaN32 b = false → absBits b ≠ 0 → mul32 inf b = signedInf ∧ mul32 b inf = signedInf) ∧
    (Finite32 b →
      div32 inf b = signedInf ∧ div32 b inf = if n ^^ signBit b then 0x80000000 else 0x00000000)

/-- R120, R123: the square root is the exact root rounded once, and a zero keeps its sign. -/
def Obligations.SquareRootsAreCorrectlyRounded : Prop :=
  ∀ (a : Word), Finite32 a → 0 ≤ val32 a →
    IsRounded (Real.sqrt (val32 a)) (sqrt32 a) ∧ signBit (sqrt32 a) = signBit a

/-- R121: `neg32` inverts bit 31 and changes no other bit, for every pattern. -/
def Obligations.NegationInvertsOnlyTheSign : Prop :=
  ∀ (a : Word), (∀ i, i < 32 → (neg32 a).getLsbD i = (if i = 31 then !a.getLsbD i else a.getLsbD i)) ∧
    neg32 (neg32 a) = a

/-- R122: every NaN that an operation makes is 0x7FC00000, and a NaN operand, signalling or quiet, gives it. -/
def Obligations.NanResultsAreCanonical : Prop :=
  (∀ (a b : Word), ∀ r ∈ [add32 a b, sub32 a b, mul32 a b, div32 a b, sqrt32 a, expF a, acosF a],
    isNaN32 r = true → r = 0x7FC00000) ∧
  (∀ (a b : Word), isNaN32 a = true ∨ isNaN32 b = true →
    add32 a b = 0x7FC00000 ∧ sub32 a b = 0x7FC00000 ∧ mul32 a b = 0x7FC00000 ∧ div32 a b = 0x7FC00000) ∧
  ∀ (a : Word), isNaN32 a = true → sqrt32 a = 0x7FC00000 ∧ expF a = 0x7FC00000 ∧ acosF a = 0x7FC00000

/-- R123: the special cases the rule lists. -/
def Obligations.SpecialCasesFollowTheirRule : Prop :=
  (infinity false = 0x7F800000 ∧ infinity true = 0xFF800000 ∧ zero32 false = 0x00000000 ∧ zero32 true = 0x80000000) ∧
  add32 0x00000000 0x80000000 = 0x00000000 ∧ add32 0x80000000 0x80000000 = 0x80000000 ∧
  sqrt32 0x80000000 = 0x80000000 ∧ sqrt32 0x7F800000 = 0x7F800000 ∧
  (∀ x, Finite32 x → sub32 x x = 0x00000000) ∧
  (∀ x y, (isNaN32 (mul32 x y) = false → signBit (mul32 x y) = (signBit x ^^ signBit y)) ∧
    (isNaN32 (div32 x y) = false → signBit (div32 x y) = (signBit x ^^ signBit y))) ∧
  (∀ n, sub32 (infinity n) (infinity n) = 0x7FC00000 ∧ add32 (infinity n) (infinity (!n)) = 0x7FC00000) ∧
  (∀ m n, mul32 (zero32 m) (infinity n) = 0x7FC00000 ∧ mul32 (infinity n) (zero32 m) = 0x7FC00000 ∧
    div32 (zero32 m) (zero32 n) = 0x7FC00000 ∧ div32 (infinity m) (infinity n) = 0x7FC00000) ∧
  (∀ x n, Finite32 x → val32 x ≠ 0 → div32 x (zero32 n) = infinity (signBit x ^^ n)) ∧
  (∀ x, (Finite32 x ∧ val32 x < 0) ∨ x = 0xFF800000 → sqrt32 x = 0x7FC00000) ∧
  ∀ x y, isNaN32 x = true ∨ isNaN32 y = true →
    isNaN32 (add32 x y) = true ∧ isNaN32 (sub32 x y) = true ∧ isNaN32 (mul32 x y) = true ∧
      isNaN32 (div32 x y) = true ∧ (isNaN32 x = true → isNaN32 (sqrt32 x) = true)

/-- R124: the complex product is the rule's formula, and commutes bit for bit. -/
def Obligations.ComplexProductCommutes : Prop :=
  ∀ (a b : Cplx),
    cmul a b = ⟨sub32 (mul32 a.re b.re) (mul32 a.im b.im), add32 (mul32 a.re b.im) (mul32 a.im b.re)⟩ ∧
    cmul a b = cmul b a

/-- R127: every entry of the twiddle ROM is the pair of binary32 values nearest to the exact cosine and sine, exact
zeros +0.0; on the axes the entries are exact. -/
def Obligations.TwiddleRomIsCorrectlyRounded : Prop :=
  ∀ j : Nat, j < 65536 →
    IsNearest (Real.cos (2 * Real.pi * j / 65536)) (twrom j).re ∧
    IsNearest (Real.sin (2 * Real.pi * j / 65536)) (twrom j).im ∧
    (Real.cos (2 * Real.pi * j / 65536) = 0 → (twrom j).re = 0x00000000) ∧
    (Real.sin (2 * Real.pi * j / 65536) = 0 → (twrom j).im = 0x00000000) ∧
    (j = 0 → twrom j = ⟨0x3F800000, 0x00000000⟩) ∧ (j = 16384 → twrom j = ⟨0x00000000, 0x3F800000⟩) ∧
    (j = 32768 → twrom j = ⟨0xBF800000, 0x00000000⟩) ∧ (j = 49152 → twrom j = ⟨0x00000000, 0xBF800000⟩)

/-- R129: `INVSQRT(2^l)` is the binary32 value nearest to `1/√(2^l)`, with the bit patterns of the rule. -/
def Obligations.InverseRootsAreNearest : Prop :=
  ∀ lg : Nat, 1 ≤ lg → lg ≤ 16 →
    IsNearest (1 / Real.sqrt (2 ^ lg)) (invSqrt (2 ^ lg)) ∧
    (invSqrt (2 ^ lg)).toNat =
      if lg % 2 = 0 then (127 - lg / 2) * 2 ^ 23 else (127 - (lg + 1) / 2) * 2 ^ 23 + 0x3504F3

/-- R130: bit `i` of `bitrev(k, l)` is bit `l − 1 − i` of `k`, and `bitrev` undoes itself. -/
def Obligations.BitReversalReversesTheBits : Prop :=
  (∀ k lg, k < 2 ^ lg →
    bitrev k lg < 2 ^ lg ∧ (∀ i, i < lg → (bitrev k lg).testBit i = k.testBit (lg - 1 - i)) ∧
    bitrev (bitrev k lg) lg = k) ∧
  (List.range 8).map (fun k => bitrev k 3) = [0, 4, 2, 6, 1, 5, 3, 7]

/-- R131: `cvt32(k)` equals `k` exactly for `0 ≤ k ≤ 2^24`. -/
def Obligations.IntegersConvertExactly : Prop :=
  ∀ k : Nat, k ≤ 2 ^ 24 → Finite32 (cvt32 k) ∧ val32 (cvt32 k) = k

/-- R132: `EXP_F` at its fixed operands, and elsewhere (the model's form of "faithful", log entry 8): never negative, and
from one computed bound to the other, or +0.0 below the normal range. The bounds enclose `e^x` and are adjacent
binary32 values, or have one value between them, which then is within a relative `2^-200` of `e^x`. -/
def Obligations.ExponentialUnitIsEnclosed : Prop :=
  expF 0x00000000 = 0x3F800000 ∧ expF 0x80000000 = 0x3F800000 ∧ expF 0xFF800000 = 0x00000000 ∧
  expF 0x7F800000 = 0x7F800000 ∧ (∀ x, isNaN32 x = true → expF x = 0x7FC00000) ∧
  ∀ x, Finite32 x → val32 x ≠ 0 →
    let below := expBelow (signBit x) (magnitude (absBits x))
    let above := expAbove (signBit x) (magnitude (absBits x))
    let exact := Real.exp (val32 x)
    signBit (expF x) = false ∧ above ≤ 0x7F800000 ∧ (above = below + 1 ∨ above = below + 2) ∧
    (val32 (withSign false below) : ℝ) ≤ exact ∧
    (above = 0x7F800000 ∨ exact ≤ (val32 (withSign false above) : ℝ)) ∧
    (above = below + 2 → |(val32 (withSign false (below + 1)) : ℝ) - exact| ≤ exact / 2 ^ 200) ∧
    ((below ≤ (expF x).toNat ∧ (expF x).toNat ≤ above) ∨ (expF x = 0x00000000 ∧ exact ≤ 1 / 2 ^ 126))

/-- R133: `ACOS_F` at its fixed operands, and elsewhere (the model's form of "faithful", log entry 9): from one computed
bound to the other. The bounds lie between +0.0 and RN(π), enclose `acos x` and are adjacent binary32 values, or have one
value between them, whose cosine then is within `2^-200` of `x`. -/
def Obligations.ArcCosineUnitIsEnclosed : Prop :=
  acosF 0x3F800000 = 0x00000000 ∧ acosF 0xBF800000 = 0x40490FDB ∧ acosF 0x00000000 = 0x3FC90FDB ∧
  acosF 0x80000000 = 0x3FC90FDB ∧ (∀ x, isNaN32 x = true ∨ absBits x > 0x3F800000 → acosF x = 0x7FC00000) ∧
  ∀ x, absBits x < 0x3F800000 → absBits x ≠ 0 →
    let below := acosBelow (signBit x) (magnitude (absBits x))
    let above := acosAbove (signBit x) (magnitude (absBits x))
    above ≤ 0x40490FDB ∧ (above = below + 1 ∨ above = below + 2) ∧
    (val32 (withSign false below) : ℝ) ≤ Real.arccos (val32 x) ∧
    Real.arccos (val32 x) ≤ (val32 (withSign false above) : ℝ) ∧
    (above = below + 2 → |Real.cos (val32 (withSign false (below + 1))) - val32 x| ≤ 1 / 2 ^ 200) ∧
    below ≤ (acosF x).toNat ∧ (acosF x).toNat ≤ above

/-! ## Registers and the interrupt (10_state.md) -/

/-- R23 to R36: every aligned offset of the register window. A HOST write replaces the one register at its offset and
leaves every other field: RW registers take the value, CTRL its two bits, STATUS loses the W1C bits written 1, and ID,
NCUR, ERRINFO and the reserved offsets ignore it (a write of CMD presents a command: AcceptanceFollowsItsRule,
CommandWriteWhileBusyIsDropped). A HOST read changes nothing of the block and returns the register, the last accepted
word for CMD, 0 for a reserved offset. So a write and then a read give back what the register keeps of it. -/
def Obligations.RegistersReadBack : Prop :=
  (∀ (s : State) (v : Word) (rest : List Input) (off : Nat), s.inReset = false → off < 4096 → off % 4 = 0 →
    off ≠ 0x00C → s.inputs = .hostWrite 32 off v :: rest →
    let s0 := { s with inputs := rest }
    step s = .next (
      if off = 0x004 then { s0 with ie := v.getLsbD 0, numchk := v.getLsbD 1 }
      else if off = 0x008 then { s0 with done := s.done && !v.getLsbD 1, ovr := s.ovr && !v.getLsbD 3 }
      else if off = 0x010 then { s0 with size := v }
      else if off = 0x020 then { s0 with aAddr := v }
      else if off = 0x024 then { s0 with aLen := v }
      else if off = 0x028 then { s0 with bAddr := v }
      else if off = 0x02C then { s0 with bLen := v }
      else if off = 0x030 then { s0 with dAddr := v }
      else if off = 0x034 then { s0 with dLen := v }
      else if off = 0x038 then { s0 with width := v }
      else if off = 0x03C then { s0 with height := v }
      else if off = 0x040 then { s0 with fp0 := v }
      else if off = 0x044 then { s0 with fp1 := v }
      else s0)) ∧
  (∀ (s : State) (rest : List Input) (off : Nat), s.inReset = false → off < 4096 → off % 4 = 0 →
    s.inputs = .hostRead 32 off :: rest →
    let code := match s.errcode with
      | .ok => 0
      | .invalidSize => 1
      | .sizeMismatch => 2
      | .numericAssert => 3
      | .notConfigured => 4
      | .addressRange => 5
      | .illegalCommand => 6
    let status := s.isBusy.toNat + 2 * s.done.toNat + 4 * (decide (code ≠ 0)).toNat + 8 * s.ovr.toNat + 16 * code +
      256 * (decide (s.ncur ≠ 0)).toNat + 65536 * (if s.ncur = 0 then 0 else Nat.log2 s.ncur.toNat)
    step s = .next { s with
      inputs := rest
      rdata :=
        if off = 0x000 then 0x46465401
        else if off = 0x004 then BitVec.ofNat 32 (s.ie.toNat + 2 * s.numchk.toNat)
        else if off = 0x008 then BitVec.ofNat 32 status
        else if off = 0x00C then s.cmd
        else if off = 0x010 then s.size
        else if off = 0x014 then s.ncur
        else if off = 0x018 then s.errinfo
        else if off = 0x020 then s.aAddr
        else if off = 0x024 then s.aLen
        else if off = 0x028 then s.bAddr
        else if off = 0x02C then s.bLen
        else if off = 0x030 then s.dAddr
        else if off = 0x034 then s.dLen
        else if off = 0x038 then s.width
        else if off = 0x03C then s.height
        else if off = 0x040 then s.fp0
        else if off = 0x044 then s.fp1
        else 0x00000000 }) ∧
  ∀ (s : State) (v : Word) (rest : List Input) (off : Nat), s.inReset = false → off < 4096 → off % 4 = 0 →
    off ≠ 0x008 → off ≠ 0x00C →
    s.inputs = .hostWrite 32 off v :: .hostRead 32 off :: rest →
    ∃ t u, step s = .next t ∧ step t = .next u ∧ u = { t with inputs := rest, rdata := u.rdata } ∧
      u.rdata = (
        if off = 0x000 then 0x46465401
        else if off = 0x004 then v &&& 0x00000003
        else if off = 0x014 then s.ncur
        else if off = 0x018 then s.errinfo
        else if off = 0x010 ∨ (0x020 ≤ off ∧ off ≤ 0x044) then v
        else 0x00000000)

/-- R26: the fields of STATUS as HOST reads them, and its write: only a 1 to DONE or OVR clears that bit. -/
def Obligations.StatusShowsTheState : Prop :=
  (∀ (s : State) (rest : List Input), s.inReset = false → s.inputs = .hostRead 32 0x008 :: rest →
    ∃ t, step s = .next t ∧ t = { s with inputs := rest, rdata := t.rdata } ∧
      t.rdata.getLsbD 0 = s.isBusy ∧ t.rdata.getLsbD 1 = s.done ∧ t.rdata.getLsbD 2 = decide (s.errcode ≠ .ok) ∧
      t.rdata.getLsbD 3 = s.ovr ∧
      (t.rdata.extractLsb' 4 4).toNat = (match s.errcode with
        | .ok => 0
        | .invalidSize => 1
        | .sizeMismatch => 2
        | .numericAssert => 3
        | .notConfigured => 4
        | .addressRange => 5
        | .illegalCommand => 6) ∧
      t.rdata.getLsbD 8 = decide (s.ncur ≠ 0) ∧ t.rdata.extractLsb' 9 7 = 0 ∧ t.rdata.extractLsb' 21 11 = 0 ∧
      (s.ncur = 0 → t.rdata.extractLsb' 16 5 = 0) ∧
      ∀ k, k ≤ 16 → s.ncur.toNat = 2 ^ k → t.rdata.extractLsb' 16 5 = BitVec.ofNat 5 k) ∧
  ∀ (s : State) (v : Word) (rest : List Input), s.inReset = false → s.inputs = .hostWrite 32 0x008 v :: rest →
    step s = .next { s with
      inputs := rest, done := s.done && !v.getLsbD 1, ovr := s.ovr && !v.getLsbD 3 }

/-- R29: NCUR is written only by a successful CFG and by reset; it is 0 or a power of two from NMIN to NMAX. -/
def Obligations.NcurChangesOnlyByCfgOrReset : Prop :=
  State.reset.ncur = 0 ∧
  ∀ (s t : State), Inv s → step s = .next t →
    (t.ncur = 0 ∨ ∃ k, 1 ≤ k ∧ k ≤ 16 ∧ t.ncur.toNat = 2 ^ k) ∧
    (t.ncur = s.ncur ∨
      (t.ncur = 0 ∧ ∃ inp rest, s.inputs = inp :: rest ∧ isReset inp = true) ∨
      (t.ncur = s.size ∧ s.seq = .idle ∧ ∃ rest, s.inputs = .hostWrite 32 0x00C 0x00000001 :: rest))

/-- R21: the operand registers are written only by HOST: a step that is no HOST register write and no reset, a
completion among them, leaves every one of them and CTRL. -/
def Obligations.OperandRegistersAreWrittenOnlyByHost : Prop :=
  ∀ (s t : State), step s = .next t →
    (∀ inp rest, s.inputs = inp :: rest → isReset inp = false ∧
      ∀ width off v, inp = .hostWrite width off v → off = 0x00C ∨ 0x01000000 ≤ off) →
    t.ie = s.ie ∧ t.numchk = s.numchk ∧ t.size = s.size ∧ t.aAddr = s.aAddr ∧ t.aLen = s.aLen ∧ t.bAddr = s.bAddr ∧
    t.bLen = s.bLen ∧ t.dAddr = s.dAddr ∧ t.dLen = s.dLen ∧ t.width = s.width ∧ t.height = s.height ∧ t.fp0 = s.fp0 ∧
    t.fp1 = s.fp1

/-- R26, R47: OVR is set only by a CMD write while BUSY and cleared only by a HOST write of 1 to it or by reset. -/
def Obligations.OverrunIsSticky : Prop :=
  ∀ (s t : State), step s = .next t →
    (s.ovr = false → t.ovr = true → s.isBusy = true ∧ ∃ inp rest, s.inputs = inp :: rest ∧ isCommandWrite inp = true) ∧
    (s.ovr = true → t.ovr = false →
      (∃ v rest, s.inputs = .hostWrite 32 0x008 v :: rest ∧ v.getLsbD 3 = true) ∨
      ∃ inp rest, s.inputs = inp :: rest ∧ isReset inp = true)

/-- R42, 60_exceptions.md R253, R254: `irq` is IE and DONE in every state. It rises only when a command completes with IE
set, in its acceptance or in SEQ's step, or when HOST sets IE while DONE is 1. Four things lower it, and nothing else: a
HOST write of 1 to STATUS.DONE, a HOST write that clears IE, the acceptance of a command that SEQ runs, and reset. -/
def Obligations.InterruptRisesOnlyOnCompletionOrEnable : Prop :=
  (∀ s : State, s.irq = (s.ie && s.done)) ∧
  (∀ (s t : State), step s = .next t → s.irq = true →
    (t.irq = false ↔
      (∃ v rest, s.inputs = .hostWrite 32 0x008 v :: rest ∧ v.getLsbD 1 = true) ∨
      (∃ v rest, s.inputs = .hostWrite 32 0x004 v :: rest ∧ v.getLsbD 0 = false) ∨
      (s.isBusy = false ∧ t.isBusy = true ∧ ∃ v rest, s.inputs = .hostWrite 32 0x00C v :: rest) ∨
      ∃ inp rest, s.inputs = inp :: rest ∧ isReset inp = true)) ∧
  ∀ (s t : State), step s = .next t → s.irq = false → t.irq = true →
    (s.ie = true ∧ s.done = false ∧ t.done = true ∧
      ((s.isBusy = true ∧ seqMovesNext s = true) ∨
        (s.isBusy = false ∧ ∃ inp rest, s.inputs = inp :: rest ∧ isCommandWrite inp = true))) ∨
    (s.done = true ∧ ∃ v rest, s.inputs = .hostWrite 32 0x004 v :: rest ∧ v.getLsbD 0 = true)

/-! ## The window (20_memory.md) -/

/-- R60, R62: a HOST write of a DMEM word outside the running command's footprint stores that word and nothing else, and
a HOST read returns it; beyond DMEM_WORDS and in the reserved part of the window reads give 0 and writes are ignored. -/
def Obligations.HostReachesDmemThroughTheWindow : Prop :=
  ∀ (s : State) (w : Nat) (v : Word) (rest : List Input), s.inReset = false → w < 0x400000 →
    (w < s.dmemWords → s.footprint w = false →
      (s.inputs = .hostRead 32 (0x01000000 + 4 * w) :: rest →
        step s = .next { s with inputs := rest, rdata := readWord s w }) ∧
      (s.inputs = .hostWrite 32 (0x01000000 + 4 * w) v :: rest →
        ∃ m, step s = .next { s with inputs := rest, dmem := m } ∧ readWord { s with inputs := rest, dmem := m } w = v ∧
          KeepsBytesOutside s { s with inputs := rest, dmem := m } w 1)) ∧
    ∀ off : Nat, off < 0x02000000 → off % 4 = 0 →
      (0x00001000 ≤ off ∧ off < 0x01000000) ∨ 0x01000000 + 4 * s.dmemWords ≤ off →
      (s.inputs = .hostRead 32 off :: rest → step s = .next { s with inputs := rest, rdata := 0 }) ∧
      (s.inputs = .hostWrite 32 off v :: rest → step s = .next { s with inputs := rest })

/-- R61, 60_exceptions.md R260, 70_reset_and_hazards.md R270: a step is refused exactly when its input is a HOST access
of a width other than 32 bits, outside the window, misaligned, or while reset is asserted. -/
def Obligations.UnsupportedAccessesAreRefused : Prop :=
  (∀ (s : State), (∃ r, step s = .refused r) ↔
    ∃ inp rest, s.inputs = inp :: rest ∧ supportedInput inp { s with inputs := rest } = false) ∧
  ∀ (s : State) (width : Nat) (off : Int),
    accessRefusal width off s = none ↔
      s.inReset = false ∧ width = 32 ∧ 0 ≤ off ∧ off < 0x02000000 ∧ off % 4 = 0

/-- 60_exceptions.md R240: the block has no traps: in a state of the invariant a supported step always goes on. -/
def Obligations.SupportedStepsNeverStop : Prop :=
  ∀ (s : State), Inv s → (∀ inp rest, s.inputs = inp :: rest → supportedInput inp s = true) →
    ∃ t, step s = .next t

/-! ## Reset (70_reset_and_hazards.md) -/

/-- 10_state.md R49: the state after reset as HOST reads it. -/
def Obligations.ResetStateHoldsTheResetValues : Prop :=
  readReg .id State.reset = 0x46465401 ∧
  (∀ r, r ≠ .id → readReg r State.reset = 0x00000000) ∧ State.reset.seq = .idle ∧ State.reset.irq = false ∧
  ∀ a, State.reset.dmem.lookup a = none

/-- R270 to R272: asserting reset puts every piece of state at its reset value but DMEM. DMEM is kept while IDLE; the
destination words of a command it aborts, and the words HOST clobbered, hold free values and every other word is kept;
at power-on no word holds a specified value. Releasing reset changes nothing else. That the words HOST clobbered hold free
values (neither R70 nor R271 says what they hold), how free values are drawn, and what of the surroundings is kept, is
the model's choice (log entries 5, 6, 7 and 15). -/
def Obligations.ResetFollowsItsRules : Prop :=
  (∀ (s : State) (rest : List Input), s.inputs = .releaseReset :: rest →
    step s = .next { s with inputs := rest, inReset := false }) ∧
  ∀ (s : State) (powerOn : Bool) (rest : List Input), s.inputs = .assertReset powerOn :: rest →
    ∃ t, step s = .next t ∧
      t = { State.reset with
        dmem := t.dmem, inReset := true, dmemScale := s.dmemScale, inputs := rest, rdata := s.rdata, draws := t.draws,
        powerCycle := t.powerCycle } ∧
      (powerOn = true → ∀ a, t.dmem.lookup a = none) ∧
      (powerOn = false → s.seq = .idle → t.dmem = s.dmem ∧ t.powerCycle = s.powerCycle) ∧
      ∀ l, powerOn = false → s.seq = .busy l →
        ∀ w, readWord t w =
          if w ∈ s.clobbered ∨ (l.dAddr.toNat ≤ w ∧ w < l.dAddr.toNat + l.dLen.toNat) then Config.freeWord s.draws w
          else readWord s w

/-! ## The invariant (Safety.lean) -/

/-- The invariant holds after reset. -/
def Obligations.ResetMeetsTheInvariant : Prop := Inv State.reset

/-- Every step keeps the invariant: DMEM stays canonical and inside the build's words, the binding is 0 or a supported
size, SEQ runs only commands that passed their check with the status cleared, ERRINFO fits ERRCODE. -/
def Obligations.StepKeepsTheInvariant : Prop :=
  ∀ (s t : State), Inv s → step s = .next t → Inv t
end

