-- ==== Sys2Proof/Laws/Memory.lean ====
section
/-! SUPPORT. The laws of DMEM: what a read gives after a write, and that every memory operation keeps the canonical form
and the address bound. -/

namespace Sys2Proof.Machine

/-! ## Lookup -/

theorem lookup_append (m n : Memory) (k : Nat) : Memory.lookup (m ++ n) k = (m.lookup k).or (n.lookup k) := by
  induction m with
  | nil => simp [Memory.lookup]
  | cons c m ih =>
    obtain ⟨a, b⟩ := c
    by_cases h : a = k <;> simp [Memory.lookup, h, ih]

theorem lookup_filter (m : Memory) (p : Nat → Bool) (k : Nat) :
    Memory.lookup (m.filter fun c => p c.1) k = if p k then m.lookup k else none := by
  induction m with
  | nil => simp [Memory.lookup]
  | cons c m ih =>
    obtain ⟨a, b⟩ := c
    by_cases hp : p a <;> by_cases h : a = k
    · subst h; simp [Memory.lookup, hp]
    · simp [Memory.lookup, hp, h, ih]
    · subst h; simp [hp, ih]
    · simp [Memory.lookup, hp, h, ih]

theorem lookup_cellsFrom (bs : List Byte) (a k : Nat) :
    Memory.lookup (cellsFrom a bs) k = if a ≤ k then bs[k - a]? else none := by
  induction bs generalizing a with
  | nil => simp [cellsFrom, Memory.lookup]
  | cons b bs ih =>
    rcases lt_trichotomy a k with h | h | h
    · have e : k - a = (k - (a + 1)) + 1 := by omega
      simp [cellsFrom, Memory.lookup, ih, h.ne, Nat.succ_le_of_lt h, h.le, e]
    · subst h; simp [cellsFrom, Memory.lookup]
    · simp [cellsFrom, Memory.lookup, ih, h.ne', show ¬ a + 1 ≤ k by omega, show ¬ a ≤ k by omega]

/-- A byte after a write: the byte written there, or what was there before. -/
theorem lookup_writeBytes (m : Memory) (a : Nat) (bs : List Byte) (k : Nat) :
    (m.writeBytes a bs).lookup k = if a ≤ k ∧ k < a + bs.length then bs[k - a]? else m.lookup k := by
  have h1 := lookup_filter m (fun x => decide (x < a)) k
  have h2 := lookup_filter m (fun x => decide (a + bs.length ≤ x)) k
  simp only [Memory.writeBytes, lookup_append, lookup_cellsFrom, h1, h2, decide_eq_true_eq]
  rcases Nat.lt_or_ge k a with h | h
  · simp [h, show ¬ a ≤ k by omega, show ¬ a + bs.length ≤ k by omega]
  · rcases Nat.lt_or_ge k (a + bs.length) with g | g
    · simp [h, g, show ¬ k < a by omega, show k - a < bs.length by omega]
    · simp [h, g, show ¬ k < a by omega, show ¬ k < a + bs.length by omega, show bs.length ≤ k - a by omega]

/-! ## The canonical form and the bound -/

theorem mem_cellsFrom {bs : List Byte} {a : Nat} {c : Host.Cell} (h : c ∈ cellsFrom a bs) :
    a ≤ c.1 ∧ c.1 < a + bs.length := by
  induction bs generalizing a with
  | nil => simp [cellsFrom] at h
  | cons b bs ih =>
    rcases List.mem_cons.1 h with rfl | h
    · simp
    · have := ih h
      simp only [List.length_cons]; omega

theorem wf_cellsFrom (bs : List Byte) (a : Nat) : Memory.wf (cellsFrom a bs) := by
  induction bs generalizing a with
  | nil => simp [cellsFrom, Memory.wf]
  | cons b bs ih =>
    refine List.pairwise_cons.2 ⟨fun c hc => ?_, ih _⟩
    have := (mem_cellsFrom hc).1
    simp only; omega

theorem wf_writeBytes {m : Memory} (h : m.wf) (a : Nat) (bs : List Byte) : (m.writeBytes a bs).wf := by
  refine List.pairwise_append.2 ⟨List.pairwise_append.2 ⟨h.filter _, wf_cellsFrom bs a, ?_⟩, h.filter _, ?_⟩
  · intro x hx y hy
    have hx := (List.mem_filter.1 hx).2
    have := (mem_cellsFrom hy).1
    simp at hx; omega
  · intro x hx y hy
    have hy := (List.mem_filter.1 hy).2
    simp at hy
    rcases List.mem_append.1 hx with hx | hx
    · have hx := (List.mem_filter.1 hx).2
      simp at hx; omega
    · have := (mem_cellsFrom hx).2
      omega

theorem length_bytesOfWords (vs : List Word) : (vs.flatMap bytesOfWord).length = 4 * vs.length := by
  induction vs with
  | nil => rfl
  | cons v vs ih =>
    rw [List.flatMap_cons, List.length_append, ih, List.length_cons]
    simp [bytesOfWord]; omega

theorem wf_writeWords {m : Memory} (h : m.wf) (w : Nat) (vs : List Word) : (m.writeWords w vs).wf :=
  wf_writeBytes h _ _

theorem wf_scramble {m : Memory} (h : m.wf) (draw : Nat) (ws : List Nat) : (m.scramble draw ws).wf := by
  induction ws generalizing m with
  | nil => exact h
  | cons w ws ih => exact ih (wf_writeWords h w _)

/-- A listed byte after a write was written or was listed before. -/
theorem mem_writeWords {m : Memory} {w : Nat} {vs : List Word} {c : Host.Cell} (h : c ∈ m.writeWords w vs) :
    c ∈ m ∨ (4 * w ≤ c.1 ∧ c.1 < 4 * (w + vs.length)) := by
  simp only [Memory.writeWords, Memory.writeBytes, List.mem_append, List.mem_filter] at h
  rcases h with (h | h) | h
  · exact .inl h.1
  · have := mem_cellsFrom h
    rw [length_bytesOfWords] at this
    right; omega
  · exact .inl h.1

theorem below_writeWords {m : Memory} {lim w : Nat} {vs : List Word} (h : ∀ c ∈ m, c.1 < 4 * lim)
    (hw : w + vs.length ≤ lim) : ∀ c ∈ m.writeWords w vs, c.1 < 4 * lim := fun c hc => by
  rcases mem_writeWords hc with hc | hc
  · exact h c hc
  · omega

theorem below_scramble {m : Memory} {lim draw : Nat} {ws : List Nat} (h : ∀ c ∈ m, c.1 < 4 * lim)
    (hw : ∀ w ∈ ws, w < lim) : ∀ c ∈ m.scramble draw ws, c.1 < 4 * lim := by
  induction ws generalizing m with
  | nil => exact h
  | cons w ws ih =>
    refine ih (below_writeWords h ?_) fun v hv => hw v (List.mem_cons_of_mem _ hv)
    have := hw w List.mem_cons_self
    simp; omega

/-! ## Words -/

theorem wordOfBytes_bytesOfWord (v : Word) :
    wordOfBytes (v.extractLsb' 0 8) (v.extractLsb' 8 8) (v.extractLsb' 16 8) (v.extractLsb' 24 8) = v := by
  apply BitVec.eq_of_getLsbD_eq
  intro i hi
  simp only [wordOfBytes, BitVec.getLsbD_append, BitVec.getLsbD_extractLsb']
  rcases Nat.lt_or_ge i 8 with h | h
  · simp [h]
  · rcases Nat.lt_or_ge i 16 with g | g
    · simp [show ¬ i < 8 by omega, show i - 8 < 8 by omega, show 8 + (i - 8) = i by omega]
    · rcases Nat.lt_or_ge i 24 with f | f
      · simp [show ¬ i < 8 by omega, show ¬ i - 8 < 8 by omega, show i - 8 - 8 < 8 by omega,
          show 16 + (i - 8 - 8) = i by omega]
      · simp [show ¬ i < 8 by omega, show ¬ i - 8 < 8 by omega, show ¬ i - 8 - 8 < 8 by omega,
          show i - 8 - 8 - 8 < 8 by omega, show 24 + (i - 8 - 8 - 8) = i by omega]

/-- Byte `j` of word `i` of a list of words laid out in bytes. -/
theorem getElem?_bytesOfWords (vs : List Word) (i j : Nat) (hj : j < 4) :
    (vs.flatMap bytesOfWord)[4 * i + j]? = vs[i]?.map fun v => v.extractLsb' (8 * j) 8 := by
  induction vs generalizing i with
  | nil => simp
  | cons v vs ih =>
    rw [List.flatMap_cons]
    cases i with
    | zero =>
      rw [List.getElem?_append_left (by simp [bytesOfWord]; omega)]
      interval_cases j <;> simp [bytesOfWord]
    | succ i =>
      rw [List.getElem?_append_right (by simp [bytesOfWord]; omega)]
      have e : 4 * (i + 1) + j - (bytesOfWord v).length = 4 * i + j := by simp [bytesOfWord]; omega
      rw [e, ih]; simp

theorem readByte_writeWords (s : State) (b : Nat) (vs : List Word) (a : Nat) :
    readByte { s with dmem := s.dmem.writeWords b vs } a =
      if 4 * b ≤ a ∧ a < 4 * (b + vs.length) then ((vs.flatMap bytesOfWord)[a - 4 * b]?).getD 0
      else readByte s a := by
  simp only [readByte, Memory.writeWords, lookup_writeBytes, length_bytesOfWords,
    show 4 * b + 4 * vs.length = 4 * (b + vs.length) by omega]
  split
  · next h =>
    have : a - 4 * b < (vs.flatMap bytesOfWord).length := by rw [length_bytesOfWords]; omega
    simp [List.getElem?_eq_getElem this]
  · rfl

/-- A word after a write: the word written there, or what was there before. -/
theorem readWord_writeWords (s : State) (b : Nat) (vs : List Word) (w : Nat) :
    readWord { s with dmem := s.dmem.writeWords b vs } w =
      if b ≤ w ∧ w < b + vs.length then (vs[w - b]?).getD 0 else readWord s w := by
  simp only [readWord, readByte_writeWords]
  by_cases h : b ≤ w ∧ w < b + vs.length
  · have hv : w - b < vs.length := by omega
    have e : ∀ j, j < 4 → (vs.flatMap bytesOfWord)[4 * w + j - 4 * b]? = some ((vs[w - b]).extractLsb' (8 * j) 8) := by
      intro j hj
      rw [show 4 * w + j - 4 * b = 4 * (w - b) + j by omega, getElem?_bytesOfWords _ _ _ hj]
      simp [List.getElem?_eq_getElem hv]
    have e0 := e 0 (by omega)
    simp only [Nat.add_zero] at e0
    rw [if_pos (by omega), if_pos (by omega), if_pos (by omega), if_pos (by omega), if_pos h, e0, e 1 (by omega),
      e 2 (by omega), e 3 (by omega), List.getElem?_eq_getElem hv]
    exact wordOfBytes_bytesOfWord _
  · rw [if_neg (by omega), if_neg (by omega), if_neg (by omega), if_neg (by omega), if_neg h]

/-- A word after words were made unspecified: the value drawn for it, or what was there before. -/
theorem readWord_scramble (s : State) (draw : Nat) (ws : List Nat) (w : Nat) :
    readWord { s with dmem := s.dmem.scramble draw ws } w = if w ∈ ws then Config.freeWord draw w else readWord s w := by
  induction ws generalizing s with
  | nil => simp [Memory.scramble]
  | cons v ws ih =>
    have h := ih { s with dmem := s.dmem.writeWords v [Config.freeWord draw v] }
    simp only [Memory.scramble, List.foldl_cons] at h ⊢
    rw [h, readWord_writeWords]
    by_cases hw : w ∈ ws
    · simp [hw]
    · by_cases hv : w = v
      · subst hv; simp [hw]
      · simp [hw, hv]; omega

theorem readByte_scramble (s : State) (draw : Nat) (ws : List Nat) (a : Nat) (h : a / 4 ∉ ws) :
    readByte { s with dmem := s.dmem.scramble draw ws } a = readByte s a := by
  induction ws generalizing s with
  | nil => simp [Memory.scramble]
  | cons v ws ih =>
    simp only [List.mem_cons, not_or] at h
    have g := ih { s with dmem := s.dmem.writeWords v [Config.freeWord draw v] } h.2
    simp only [Memory.scramble, List.foldl_cons] at g ⊢
    rw [g, readByte_writeWords, if_neg]
    simp; omega

end Sys2Proof.Machine
end

