-- ==== Sys2Proof/Laws/State.lean ====
section
/-! SUPPORT. One lemma per field per named update of the state, so that no later proof unfolds one. -/

namespace Sys2Proof.Machine

/-! ## clearForCommand -/

@[simp] theorem clearForCommand_ie (v : Word) (s : State) : (clearForCommand v s).ie = s.ie := rfl
@[simp] theorem clearForCommand_numchk (v : Word) (s : State) : (clearForCommand v s).numchk = s.numchk := rfl
@[simp] theorem clearForCommand_size (v : Word) (s : State) : (clearForCommand v s).size = s.size := rfl
@[simp] theorem clearForCommand_aAddr (v : Word) (s : State) : (clearForCommand v s).aAddr = s.aAddr := rfl
@[simp] theorem clearForCommand_aLen (v : Word) (s : State) : (clearForCommand v s).aLen = s.aLen := rfl
@[simp] theorem clearForCommand_bAddr (v : Word) (s : State) : (clearForCommand v s).bAddr = s.bAddr := rfl
@[simp] theorem clearForCommand_bLen (v : Word) (s : State) : (clearForCommand v s).bLen = s.bLen := rfl
@[simp] theorem clearForCommand_dAddr (v : Word) (s : State) : (clearForCommand v s).dAddr = s.dAddr := rfl
@[simp] theorem clearForCommand_dLen (v : Word) (s : State) : (clearForCommand v s).dLen = s.dLen := rfl
@[simp] theorem clearForCommand_width (v : Word) (s : State) : (clearForCommand v s).width = s.width := rfl
@[simp] theorem clearForCommand_height (v : Word) (s : State) : (clearForCommand v s).height = s.height := rfl
@[simp] theorem clearForCommand_fp0 (v : Word) (s : State) : (clearForCommand v s).fp0 = s.fp0 := rfl
@[simp] theorem clearForCommand_fp1 (v : Word) (s : State) : (clearForCommand v s).fp1 = s.fp1 := rfl
@[simp] theorem clearForCommand_done (v : Word) (s : State) : (clearForCommand v s).done = false := rfl
@[simp] theorem clearForCommand_ovr (v : Word) (s : State) : (clearForCommand v s).ovr = s.ovr := rfl
@[simp] theorem clearForCommand_errcode (v : Word) (s : State) : (clearForCommand v s).errcode = .ok := rfl
@[simp] theorem clearForCommand_errinfo (v : Word) (s : State) : (clearForCommand v s).errinfo = 0 := rfl
@[simp] theorem clearForCommand_cmd (v : Word) (s : State) : (clearForCommand v s).cmd = v := rfl
@[simp] theorem clearForCommand_ncur (v : Word) (s : State) : (clearForCommand v s).ncur = s.ncur := rfl
@[simp] theorem clearForCommand_seq (v : Word) (s : State) : (clearForCommand v s).seq = s.seq := rfl
@[simp] theorem clearForCommand_dmem (v : Word) (s : State) : (clearForCommand v s).dmem = s.dmem := rfl
@[simp] theorem clearForCommand_inReset (v : Word) (s : State) : (clearForCommand v s).inReset = s.inReset := rfl
@[simp] theorem clearForCommand_dmemScale (v : Word) (s : State) : (clearForCommand v s).dmemScale = s.dmemScale := rfl
@[simp] theorem clearForCommand_inputs (v : Word) (s : State) : (clearForCommand v s).inputs = s.inputs := rfl
@[simp] theorem clearForCommand_rdata (v : Word) (s : State) : (clearForCommand v s).rdata = s.rdata := rfl
@[simp] theorem clearForCommand_clobbered (v : Word) (s : State) : (clearForCommand v s).clobbered = s.clobbered := rfl
@[simp] theorem clearForCommand_draws (v : Word) (s : State) : (clearForCommand v s).draws = s.draws := rfl
@[simp] theorem clearForCommand_powerCycle (v : Word) (s : State) : (clearForCommand v s).powerCycle = s.powerCycle := rfl

/-! ## recordError -/

@[simp] theorem recordError_ie (e : CmdError) (s : State) : (recordError e s).ie = s.ie := rfl
@[simp] theorem recordError_numchk (e : CmdError) (s : State) : (recordError e s).numchk = s.numchk := rfl
@[simp] theorem recordError_size (e : CmdError) (s : State) : (recordError e s).size = s.size := rfl
@[simp] theorem recordError_aAddr (e : CmdError) (s : State) : (recordError e s).aAddr = s.aAddr := rfl
@[simp] theorem recordError_aLen (e : CmdError) (s : State) : (recordError e s).aLen = s.aLen := rfl
@[simp] theorem recordError_bAddr (e : CmdError) (s : State) : (recordError e s).bAddr = s.bAddr := rfl
@[simp] theorem recordError_bLen (e : CmdError) (s : State) : (recordError e s).bLen = s.bLen := rfl
@[simp] theorem recordError_dAddr (e : CmdError) (s : State) : (recordError e s).dAddr = s.dAddr := rfl
@[simp] theorem recordError_dLen (e : CmdError) (s : State) : (recordError e s).dLen = s.dLen := rfl
@[simp] theorem recordError_width (e : CmdError) (s : State) : (recordError e s).width = s.width := rfl
@[simp] theorem recordError_height (e : CmdError) (s : State) : (recordError e s).height = s.height := rfl
@[simp] theorem recordError_fp0 (e : CmdError) (s : State) : (recordError e s).fp0 = s.fp0 := rfl
@[simp] theorem recordError_fp1 (e : CmdError) (s : State) : (recordError e s).fp1 = s.fp1 := rfl
@[simp] theorem recordError_done (e : CmdError) (s : State) : (recordError e s).done = s.done := rfl
@[simp] theorem recordError_ovr (e : CmdError) (s : State) : (recordError e s).ovr = s.ovr := rfl
@[simp] theorem recordError_errcode (e : CmdError) (s : State) : (recordError e s).errcode = e.code := rfl
@[simp] theorem recordError_errinfo (e : CmdError) (s : State) : (recordError e s).errinfo = e.info := rfl
@[simp] theorem recordError_cmd (e : CmdError) (s : State) : (recordError e s).cmd = s.cmd := rfl
@[simp] theorem recordError_ncur (e : CmdError) (s : State) : (recordError e s).ncur = s.ncur := rfl
@[simp] theorem recordError_seq (e : CmdError) (s : State) : (recordError e s).seq = s.seq := rfl
@[simp] theorem recordError_dmem (e : CmdError) (s : State) : (recordError e s).dmem = s.dmem := rfl
@[simp] theorem recordError_inReset (e : CmdError) (s : State) : (recordError e s).inReset = s.inReset := rfl
@[simp] theorem recordError_dmemScale (e : CmdError) (s : State) : (recordError e s).dmemScale = s.dmemScale := rfl
@[simp] theorem recordError_inputs (e : CmdError) (s : State) : (recordError e s).inputs = s.inputs := rfl
@[simp] theorem recordError_rdata (e : CmdError) (s : State) : (recordError e s).rdata = s.rdata := rfl
@[simp] theorem recordError_clobbered (e : CmdError) (s : State) : (recordError e s).clobbered = s.clobbered := rfl
@[simp] theorem recordError_draws (e : CmdError) (s : State) : (recordError e s).draws = s.draws := rfl
@[simp] theorem recordError_powerCycle (e : CmdError) (s : State) : (recordError e s).powerCycle = s.powerCycle := rfl

/-! ## markDone -/

@[simp] theorem markDone_ie (s : State) : (markDone s).ie = s.ie := rfl
@[simp] theorem markDone_numchk (s : State) : (markDone s).numchk = s.numchk := rfl
@[simp] theorem markDone_size (s : State) : (markDone s).size = s.size := rfl
@[simp] theorem markDone_aAddr (s : State) : (markDone s).aAddr = s.aAddr := rfl
@[simp] theorem markDone_aLen (s : State) : (markDone s).aLen = s.aLen := rfl
@[simp] theorem markDone_bAddr (s : State) : (markDone s).bAddr = s.bAddr := rfl
@[simp] theorem markDone_bLen (s : State) : (markDone s).bLen = s.bLen := rfl
@[simp] theorem markDone_dAddr (s : State) : (markDone s).dAddr = s.dAddr := rfl
@[simp] theorem markDone_dLen (s : State) : (markDone s).dLen = s.dLen := rfl
@[simp] theorem markDone_width (s : State) : (markDone s).width = s.width := rfl
@[simp] theorem markDone_height (s : State) : (markDone s).height = s.height := rfl
@[simp] theorem markDone_fp0 (s : State) : (markDone s).fp0 = s.fp0 := rfl
@[simp] theorem markDone_fp1 (s : State) : (markDone s).fp1 = s.fp1 := rfl
@[simp] theorem markDone_done (s : State) : (markDone s).done = true := rfl
@[simp] theorem markDone_ovr (s : State) : (markDone s).ovr = s.ovr := rfl
@[simp] theorem markDone_errcode (s : State) : (markDone s).errcode = s.errcode := rfl
@[simp] theorem markDone_errinfo (s : State) : (markDone s).errinfo = s.errinfo := rfl
@[simp] theorem markDone_cmd (s : State) : (markDone s).cmd = s.cmd := rfl
@[simp] theorem markDone_ncur (s : State) : (markDone s).ncur = s.ncur := rfl
@[simp] theorem markDone_seq (s : State) : (markDone s).seq = s.seq := rfl
@[simp] theorem markDone_dmem (s : State) : (markDone s).dmem = s.dmem := rfl
@[simp] theorem markDone_inReset (s : State) : (markDone s).inReset = s.inReset := rfl
@[simp] theorem markDone_dmemScale (s : State) : (markDone s).dmemScale = s.dmemScale := rfl
@[simp] theorem markDone_inputs (s : State) : (markDone s).inputs = s.inputs := rfl
@[simp] theorem markDone_rdata (s : State) : (markDone s).rdata = s.rdata := rfl
@[simp] theorem markDone_clobbered (s : State) : (markDone s).clobbered = s.clobbered := rfl
@[simp] theorem markDone_draws (s : State) : (markDone s).draws = s.draws := rfl
@[simp] theorem markDone_powerCycle (s : State) : (markDone s).powerCycle = s.powerCycle := rfl

/-! ## startBusy -/

@[simp] theorem startBusy_ie (l : Latch) (s : State) : (startBusy l s).ie = s.ie := rfl
@[simp] theorem startBusy_numchk (l : Latch) (s : State) : (startBusy l s).numchk = s.numchk := rfl
@[simp] theorem startBusy_size (l : Latch) (s : State) : (startBusy l s).size = s.size := rfl
@[simp] theorem startBusy_aAddr (l : Latch) (s : State) : (startBusy l s).aAddr = s.aAddr := rfl
@[simp] theorem startBusy_aLen (l : Latch) (s : State) : (startBusy l s).aLen = s.aLen := rfl
@[simp] theorem startBusy_bAddr (l : Latch) (s : State) : (startBusy l s).bAddr = s.bAddr := rfl
@[simp] theorem startBusy_bLen (l : Latch) (s : State) : (startBusy l s).bLen = s.bLen := rfl
@[simp] theorem startBusy_dAddr (l : Latch) (s : State) : (startBusy l s).dAddr = s.dAddr := rfl
@[simp] theorem startBusy_dLen (l : Latch) (s : State) : (startBusy l s).dLen = s.dLen := rfl
@[simp] theorem startBusy_width (l : Latch) (s : State) : (startBusy l s).width = s.width := rfl
@[simp] theorem startBusy_height (l : Latch) (s : State) : (startBusy l s).height = s.height := rfl
@[simp] theorem startBusy_fp0 (l : Latch) (s : State) : (startBusy l s).fp0 = s.fp0 := rfl
@[simp] theorem startBusy_fp1 (l : Latch) (s : State) : (startBusy l s).fp1 = s.fp1 := rfl
@[simp] theorem startBusy_done (l : Latch) (s : State) : (startBusy l s).done = s.done := rfl
@[simp] theorem startBusy_ovr (l : Latch) (s : State) : (startBusy l s).ovr = s.ovr := rfl
@[simp] theorem startBusy_errcode (l : Latch) (s : State) : (startBusy l s).errcode = s.errcode := rfl
@[simp] theorem startBusy_errinfo (l : Latch) (s : State) : (startBusy l s).errinfo = s.errinfo := rfl
@[simp] theorem startBusy_cmd (l : Latch) (s : State) : (startBusy l s).cmd = s.cmd := rfl
@[simp] theorem startBusy_ncur (l : Latch) (s : State) : (startBusy l s).ncur = s.ncur := rfl
@[simp] theorem startBusy_seq (l : Latch) (s : State) : (startBusy l s).seq = .busy l := rfl
@[simp] theorem startBusy_dmem (l : Latch) (s : State) : (startBusy l s).dmem = s.dmem := rfl
@[simp] theorem startBusy_inReset (l : Latch) (s : State) : (startBusy l s).inReset = s.inReset := rfl
@[simp] theorem startBusy_dmemScale (l : Latch) (s : State) : (startBusy l s).dmemScale = s.dmemScale := rfl
@[simp] theorem startBusy_inputs (l : Latch) (s : State) : (startBusy l s).inputs = s.inputs := rfl
@[simp] theorem startBusy_rdata (l : Latch) (s : State) : (startBusy l s).rdata = s.rdata := rfl
@[simp] theorem startBusy_clobbered (l : Latch) (s : State) : (startBusy l s).clobbered = [] := rfl
@[simp] theorem startBusy_draws (l : Latch) (s : State) : (startBusy l s).draws = s.draws := rfl
@[simp] theorem startBusy_powerCycle (l : Latch) (s : State) : (startBusy l s).powerCycle = s.powerCycle := rfl

/-! ## retire -/

@[simp] theorem retire_ie (s : State) : (retire s).ie = s.ie := rfl
@[simp] theorem retire_numchk (s : State) : (retire s).numchk = s.numchk := rfl
@[simp] theorem retire_size (s : State) : (retire s).size = s.size := rfl
@[simp] theorem retire_aAddr (s : State) : (retire s).aAddr = s.aAddr := rfl
@[simp] theorem retire_aLen (s : State) : (retire s).aLen = s.aLen := rfl
@[simp] theorem retire_bAddr (s : State) : (retire s).bAddr = s.bAddr := rfl
@[simp] theorem retire_bLen (s : State) : (retire s).bLen = s.bLen := rfl
@[simp] theorem retire_dAddr (s : State) : (retire s).dAddr = s.dAddr := rfl
@[simp] theorem retire_dLen (s : State) : (retire s).dLen = s.dLen := rfl
@[simp] theorem retire_width (s : State) : (retire s).width = s.width := rfl
@[simp] theorem retire_height (s : State) : (retire s).height = s.height := rfl
@[simp] theorem retire_fp0 (s : State) : (retire s).fp0 = s.fp0 := rfl
@[simp] theorem retire_fp1 (s : State) : (retire s).fp1 = s.fp1 := rfl
@[simp] theorem retire_done (s : State) : (retire s).done = true := rfl
@[simp] theorem retire_ovr (s : State) : (retire s).ovr = s.ovr := rfl
@[simp] theorem retire_errcode (s : State) : (retire s).errcode = s.errcode := rfl
@[simp] theorem retire_errinfo (s : State) : (retire s).errinfo = s.errinfo := rfl
@[simp] theorem retire_cmd (s : State) : (retire s).cmd = s.cmd := rfl
@[simp] theorem retire_ncur (s : State) : (retire s).ncur = s.ncur := rfl
@[simp] theorem retire_seq (s : State) : (retire s).seq = .idle := rfl
@[simp] theorem retire_dmem (s : State) : (retire s).dmem = s.dmem := rfl
@[simp] theorem retire_inReset (s : State) : (retire s).inReset = s.inReset := rfl
@[simp] theorem retire_dmemScale (s : State) : (retire s).dmemScale = s.dmemScale := rfl
@[simp] theorem retire_inputs (s : State) : (retire s).inputs = s.inputs := rfl
@[simp] theorem retire_rdata (s : State) : (retire s).rdata = s.rdata := rfl
@[simp] theorem retire_clobbered (s : State) : (retire s).clobbered = [] := rfl
@[simp] theorem retire_draws (s : State) : (retire s).draws = s.draws := rfl
@[simp] theorem retire_powerCycle (s : State) : (retire s).powerCycle = s.powerCycle := rfl

/-! ## dropCommand -/

@[simp] theorem dropCommand_ie (s : State) : (dropCommand s).ie = s.ie := rfl
@[simp] theorem dropCommand_numchk (s : State) : (dropCommand s).numchk = s.numchk := rfl
@[simp] theorem dropCommand_size (s : State) : (dropCommand s).size = s.size := rfl
@[simp] theorem dropCommand_aAddr (s : State) : (dropCommand s).aAddr = s.aAddr := rfl
@[simp] theorem dropCommand_aLen (s : State) : (dropCommand s).aLen = s.aLen := rfl
@[simp] theorem dropCommand_bAddr (s : State) : (dropCommand s).bAddr = s.bAddr := rfl
@[simp] theorem dropCommand_bLen (s : State) : (dropCommand s).bLen = s.bLen := rfl
@[simp] theorem dropCommand_dAddr (s : State) : (dropCommand s).dAddr = s.dAddr := rfl
@[simp] theorem dropCommand_dLen (s : State) : (dropCommand s).dLen = s.dLen := rfl
@[simp] theorem dropCommand_width (s : State) : (dropCommand s).width = s.width := rfl
@[simp] theorem dropCommand_height (s : State) : (dropCommand s).height = s.height := rfl
@[simp] theorem dropCommand_fp0 (s : State) : (dropCommand s).fp0 = s.fp0 := rfl
@[simp] theorem dropCommand_fp1 (s : State) : (dropCommand s).fp1 = s.fp1 := rfl
@[simp] theorem dropCommand_done (s : State) : (dropCommand s).done = s.done := rfl
@[simp] theorem dropCommand_ovr (s : State) : (dropCommand s).ovr = true := rfl
@[simp] theorem dropCommand_errcode (s : State) : (dropCommand s).errcode = s.errcode := rfl
@[simp] theorem dropCommand_errinfo (s : State) : (dropCommand s).errinfo = s.errinfo := rfl
@[simp] theorem dropCommand_cmd (s : State) : (dropCommand s).cmd = s.cmd := rfl
@[simp] theorem dropCommand_ncur (s : State) : (dropCommand s).ncur = s.ncur := rfl
@[simp] theorem dropCommand_seq (s : State) : (dropCommand s).seq = s.seq := rfl
@[simp] theorem dropCommand_dmem (s : State) : (dropCommand s).dmem = s.dmem := rfl
@[simp] theorem dropCommand_inReset (s : State) : (dropCommand s).inReset = s.inReset := rfl
@[simp] theorem dropCommand_dmemScale (s : State) : (dropCommand s).dmemScale = s.dmemScale := rfl
@[simp] theorem dropCommand_inputs (s : State) : (dropCommand s).inputs = s.inputs := rfl
@[simp] theorem dropCommand_rdata (s : State) : (dropCommand s).rdata = s.rdata := rfl
@[simp] theorem dropCommand_clobbered (s : State) : (dropCommand s).clobbered = s.clobbered := rfl
@[simp] theorem dropCommand_draws (s : State) : (dropCommand s).draws = s.draws := rfl
@[simp] theorem dropCommand_powerCycle (s : State) : (dropCommand s).powerCycle = s.powerCycle := rfl

/-! ## releaseReset -/

@[simp] theorem releaseReset_ie (s : State) : (releaseReset s).ie = s.ie := rfl
@[simp] theorem releaseReset_numchk (s : State) : (releaseReset s).numchk = s.numchk := rfl
@[simp] theorem releaseReset_size (s : State) : (releaseReset s).size = s.size := rfl
@[simp] theorem releaseReset_aAddr (s : State) : (releaseReset s).aAddr = s.aAddr := rfl
@[simp] theorem releaseReset_aLen (s : State) : (releaseReset s).aLen = s.aLen := rfl
@[simp] theorem releaseReset_bAddr (s : State) : (releaseReset s).bAddr = s.bAddr := rfl
@[simp] theorem releaseReset_bLen (s : State) : (releaseReset s).bLen = s.bLen := rfl
@[simp] theorem releaseReset_dAddr (s : State) : (releaseReset s).dAddr = s.dAddr := rfl
@[simp] theorem releaseReset_dLen (s : State) : (releaseReset s).dLen = s.dLen := rfl
@[simp] theorem releaseReset_width (s : State) : (releaseReset s).width = s.width := rfl
@[simp] theorem releaseReset_height (s : State) : (releaseReset s).height = s.height := rfl
@[simp] theorem releaseReset_fp0 (s : State) : (releaseReset s).fp0 = s.fp0 := rfl
@[simp] theorem releaseReset_fp1 (s : State) : (releaseReset s).fp1 = s.fp1 := rfl
@[simp] theorem releaseReset_done (s : State) : (releaseReset s).done = s.done := rfl
@[simp] theorem releaseReset_ovr (s : State) : (releaseReset s).ovr = s.ovr := rfl
@[simp] theorem releaseReset_errcode (s : State) : (releaseReset s).errcode = s.errcode := rfl
@[simp] theorem releaseReset_errinfo (s : State) : (releaseReset s).errinfo = s.errinfo := rfl
@[simp] theorem releaseReset_cmd (s : State) : (releaseReset s).cmd = s.cmd := rfl
@[simp] theorem releaseReset_ncur (s : State) : (releaseReset s).ncur = s.ncur := rfl
@[simp] theorem releaseReset_seq (s : State) : (releaseReset s).seq = s.seq := rfl
@[simp] theorem releaseReset_dmem (s : State) : (releaseReset s).dmem = s.dmem := rfl
@[simp] theorem releaseReset_inReset (s : State) : (releaseReset s).inReset = false := rfl
@[simp] theorem releaseReset_dmemScale (s : State) : (releaseReset s).dmemScale = s.dmemScale := rfl
@[simp] theorem releaseReset_inputs (s : State) : (releaseReset s).inputs = s.inputs := rfl
@[simp] theorem releaseReset_rdata (s : State) : (releaseReset s).rdata = s.rdata := rfl
@[simp] theorem releaseReset_clobbered (s : State) : (releaseReset s).clobbered = s.clobbered := rfl
@[simp] theorem releaseReset_draws (s : State) : (releaseReset s).draws = s.draws := rfl
@[simp] theorem releaseReset_powerCycle (s : State) : (releaseReset s).powerCycle = s.powerCycle := rfl

/-! ## writeStatus -/

@[simp] theorem writeStatus_ie (v : Word) (s : State) : (writeStatus v s).ie = s.ie := rfl
@[simp] theorem writeStatus_numchk (v : Word) (s : State) : (writeStatus v s).numchk = s.numchk := rfl
@[simp] theorem writeStatus_size (v : Word) (s : State) : (writeStatus v s).size = s.size := rfl
@[simp] theorem writeStatus_aAddr (v : Word) (s : State) : (writeStatus v s).aAddr = s.aAddr := rfl
@[simp] theorem writeStatus_aLen (v : Word) (s : State) : (writeStatus v s).aLen = s.aLen := rfl
@[simp] theorem writeStatus_bAddr (v : Word) (s : State) : (writeStatus v s).bAddr = s.bAddr := rfl
@[simp] theorem writeStatus_bLen (v : Word) (s : State) : (writeStatus v s).bLen = s.bLen := rfl
@[simp] theorem writeStatus_dAddr (v : Word) (s : State) : (writeStatus v s).dAddr = s.dAddr := rfl
@[simp] theorem writeStatus_dLen (v : Word) (s : State) : (writeStatus v s).dLen = s.dLen := rfl
@[simp] theorem writeStatus_width (v : Word) (s : State) : (writeStatus v s).width = s.width := rfl
@[simp] theorem writeStatus_height (v : Word) (s : State) : (writeStatus v s).height = s.height := rfl
@[simp] theorem writeStatus_fp0 (v : Word) (s : State) : (writeStatus v s).fp0 = s.fp0 := rfl
@[simp] theorem writeStatus_fp1 (v : Word) (s : State) : (writeStatus v s).fp1 = s.fp1 := rfl
@[simp] theorem writeStatus_done (v : Word) (s : State) : (writeStatus v s).done = (s.done && !v.getLsbD 1) := rfl
@[simp] theorem writeStatus_ovr (v : Word) (s : State) : (writeStatus v s).ovr = (s.ovr && !v.getLsbD 3) := rfl
@[simp] theorem writeStatus_errcode (v : Word) (s : State) : (writeStatus v s).errcode = s.errcode := rfl
@[simp] theorem writeStatus_errinfo (v : Word) (s : State) : (writeStatus v s).errinfo = s.errinfo := rfl
@[simp] theorem writeStatus_cmd (v : Word) (s : State) : (writeStatus v s).cmd = s.cmd := rfl
@[simp] theorem writeStatus_ncur (v : Word) (s : State) : (writeStatus v s).ncur = s.ncur := rfl
@[simp] theorem writeStatus_seq (v : Word) (s : State) : (writeStatus v s).seq = s.seq := rfl
@[simp] theorem writeStatus_dmem (v : Word) (s : State) : (writeStatus v s).dmem = s.dmem := rfl
@[simp] theorem writeStatus_inReset (v : Word) (s : State) : (writeStatus v s).inReset = s.inReset := rfl
@[simp] theorem writeStatus_dmemScale (v : Word) (s : State) : (writeStatus v s).dmemScale = s.dmemScale := rfl
@[simp] theorem writeStatus_inputs (v : Word) (s : State) : (writeStatus v s).inputs = s.inputs := rfl
@[simp] theorem writeStatus_rdata (v : Word) (s : State) : (writeStatus v s).rdata = s.rdata := rfl
@[simp] theorem writeStatus_clobbered (v : Word) (s : State) : (writeStatus v s).clobbered = s.clobbered := rfl
@[simp] theorem writeStatus_draws (v : Word) (s : State) : (writeStatus v s).draws = s.draws := rfl
@[simp] theorem writeStatus_powerCycle (v : Word) (s : State) : (writeStatus v s).powerCycle = s.powerCycle := rfl

/-! ## writeCtrl -/

@[simp] theorem writeCtrl_ie (v : Word) (s : State) : (writeCtrl v s).ie = v.getLsbD 0 := rfl
@[simp] theorem writeCtrl_numchk (v : Word) (s : State) : (writeCtrl v s).numchk = v.getLsbD 1 := rfl
@[simp] theorem writeCtrl_size (v : Word) (s : State) : (writeCtrl v s).size = s.size := rfl
@[simp] theorem writeCtrl_aAddr (v : Word) (s : State) : (writeCtrl v s).aAddr = s.aAddr := rfl
@[simp] theorem writeCtrl_aLen (v : Word) (s : State) : (writeCtrl v s).aLen = s.aLen := rfl
@[simp] theorem writeCtrl_bAddr (v : Word) (s : State) : (writeCtrl v s).bAddr = s.bAddr := rfl
@[simp] theorem writeCtrl_bLen (v : Word) (s : State) : (writeCtrl v s).bLen = s.bLen := rfl
@[simp] theorem writeCtrl_dAddr (v : Word) (s : State) : (writeCtrl v s).dAddr = s.dAddr := rfl
@[simp] theorem writeCtrl_dLen (v : Word) (s : State) : (writeCtrl v s).dLen = s.dLen := rfl
@[simp] theorem writeCtrl_width (v : Word) (s : State) : (writeCtrl v s).width = s.width := rfl
@[simp] theorem writeCtrl_height (v : Word) (s : State) : (writeCtrl v s).height = s.height := rfl
@[simp] theorem writeCtrl_fp0 (v : Word) (s : State) : (writeCtrl v s).fp0 = s.fp0 := rfl
@[simp] theorem writeCtrl_fp1 (v : Word) (s : State) : (writeCtrl v s).fp1 = s.fp1 := rfl
@[simp] theorem writeCtrl_done (v : Word) (s : State) : (writeCtrl v s).done = s.done := rfl
@[simp] theorem writeCtrl_ovr (v : Word) (s : State) : (writeCtrl v s).ovr = s.ovr := rfl
@[simp] theorem writeCtrl_errcode (v : Word) (s : State) : (writeCtrl v s).errcode = s.errcode := rfl
@[simp] theorem writeCtrl_errinfo (v : Word) (s : State) : (writeCtrl v s).errinfo = s.errinfo := rfl
@[simp] theorem writeCtrl_cmd (v : Word) (s : State) : (writeCtrl v s).cmd = s.cmd := rfl
@[simp] theorem writeCtrl_ncur (v : Word) (s : State) : (writeCtrl v s).ncur = s.ncur := rfl
@[simp] theorem writeCtrl_seq (v : Word) (s : State) : (writeCtrl v s).seq = s.seq := rfl
@[simp] theorem writeCtrl_dmem (v : Word) (s : State) : (writeCtrl v s).dmem = s.dmem := rfl
@[simp] theorem writeCtrl_inReset (v : Word) (s : State) : (writeCtrl v s).inReset = s.inReset := rfl
@[simp] theorem writeCtrl_dmemScale (v : Word) (s : State) : (writeCtrl v s).dmemScale = s.dmemScale := rfl
@[simp] theorem writeCtrl_inputs (v : Word) (s : State) : (writeCtrl v s).inputs = s.inputs := rfl
@[simp] theorem writeCtrl_rdata (v : Word) (s : State) : (writeCtrl v s).rdata = s.rdata := rfl
@[simp] theorem writeCtrl_clobbered (v : Word) (s : State) : (writeCtrl v s).clobbered = s.clobbered := rfl
@[simp] theorem writeCtrl_draws (v : Word) (s : State) : (writeCtrl v s).draws = s.draws := rfl
@[simp] theorem writeCtrl_powerCycle (v : Word) (s : State) : (writeCtrl v s).powerCycle = s.powerCycle := rfl

/-! ## The build's size is a function of its field -/

@[simp] theorem dmemWords_clearForCommand (v : Word) (s : State) : (clearForCommand v s).dmemWords = s.dmemWords := rfl
@[simp] theorem dmemWords_recordError (e : CmdError) (s : State) : (recordError e s).dmemWords = s.dmemWords := rfl
@[simp] theorem dmemWords_markDone (s : State) : (markDone s).dmemWords = s.dmemWords := rfl
@[simp] theorem dmemWords_startBusy (l : Latch) (s : State) : (startBusy l s).dmemWords = s.dmemWords := rfl
@[simp] theorem dmemWords_retire (s : State) : (retire s).dmemWords = s.dmemWords := rfl

end Sys2Proof.Machine
end

