-- ==== Sys2Proof/Laws/Ops.lean ====
section
/-! SUPPORT. What each shared operation can do, said once: acceptance, completion, and the step as an inversion over its
input. -/

namespace Sys2Proof.Machine

/-! ## Acceptance -/

/-- What follows an acceptance without error: NOP and CFG are performed, every other command starts SEQ. -/
def afterAccept (i : Instr) (l : Latch) (s : State) : State :=
  match i with
  | .nop => markDone s
  | .cfg => markDone { s with ncur := l.size }
  | .fft _ | .ifft _ | .bitrev _ | .stage _ _ | .norm _ => startBusy l s
  | .expand | .conj | .cmul | .mag | .mag2 | .phase => startBusy l s
  | .acf | .conv | .bispec | .wavelet | .twread | .brread => startBusy l s

/-- While IDLE every command is accepted or completes with its error. -/
theorem exec_idle (i : Instr) {s : State} (h : s.seq = .idle) : exec i s = .next (accept i (afterAccept i) s) := by
  cases i <;>
    simp only [exec, execNop, execCfg, execFft, execIfft, execBitrev, execStage, execNorm, execExpand, execConj, execCmul,
      execMag, execMag2, execPhase, execAcf, execConv, execBispec, execWavelet, execTwread, execBrread, sequencedCommand,
      immediateCommand, h] <;> rfl

/-- An acceptance either records the first failing check, or goes on; nothing else. -/
theorem accept_eq (i : Instr) (onOk : Latch → State → State) (s : State) :
    (∃ e, check i (latch (encode i) s) s.dmemWords = some e ∧
      accept i onOk s = markDone (recordError e (clearForCommand (encode i) s))) ∨
    (check i (latch (encode i) s) s.dmemWords = none ∧
      accept i onOk s = onOk (latch (encode i) s) (clearForCommand (encode i) s)) := by
  cases h : check i (latch (encode i) s) s.dmemWords with
  | some e => exact .inl ⟨e, rfl, by simp only [accept, h]⟩
  | none => exact .inr ⟨rfl, by simp only [accept, h]⟩

/-! ## Completion -/

/-- The result of each command that SEQ runs; NOP and CFG have none. -/
def resultOf (i : Instr) (l : Latch) (s : State) : Result :=
  match i with
  | .nop => ⟨[], none⟩
  | .cfg => ⟨[], none⟩
  | .fft lay => lineResult lay fftLine l s
  | .ifft lay => lineResult lay ifftLine l s
  | .bitrev lay => lineResult lay bitrevPass l s
  | .stage lay stg => lineResult lay (fun n => stagePass n stg.toNat) l s
  | .norm lay => lineResult lay normPass l s
  | .expand => expandResult l s
  | .conj => conjResult l s
  | .cmul => cmulResult l s
  | .mag => magResult l s
  | .mag2 => mag2Result l s
  | .phase => phaseResult l s
  | .acf => acfResult l s
  | .conv => convResult l s
  | .bispec => bispecResult l s
  | .wavelet => waveletResult l s
  | .twread => twreadResult l s
  | .brread => brreadResult l s

/-- With nothing clobbered a completion computes from the state as it is. -/
@[simp] theorem sourceView_unclobbered {s : State} (h : s.clobbered = []) : sourceView s = s := by
  cases s
  subst h
  rfl

/-- What a completion reads: a free value in a word HOST clobbered, DMEM as it is elsewhere. -/
theorem readWord_sourceView (s : State) (w : Nat) :
    readWord (sourceView s) w = if w ∈ s.clobbered then Config.freeWord (s.draws + 1) w else readWord s w :=
  readWord_scramble s (s.draws + 1) s.clobbered w

/-- While BUSY a command with a destination completes with its result. -/
theorem exec_busy {i : Instr} {l : Latch} {s : State} (h : s.seq = .busy l) (hd : usesD i = true) :
    exec i s = .next (complete l (resultOf i l (sourceView s)) s) := by
  cases i <;> first
    | (simp [usesD] at hd; done)
    | (simp only [exec, execFft, execIfft, execBitrev, execStage, execNorm, execExpand, execConj, execCmul, execMag,
        execMag2, execPhase, execAcf, execConv, execBispec, execWavelet, execTwread, execBrread, sequencedCommand, h,
        resultOf])

/-- A completion with nothing clobbered and no failing lag: the destination is written, SEQ is IDLE, DONE is set. -/
theorem complete_unclobbered {l : Latch} {ws : List Word} {s : State} (h : s.clobbered = []) :
    complete l ⟨ws, none⟩ s =
      { s with dmem := s.dmem.writeWords l.dAddr.toNat ws, seq := .idle, done := true, clobbered := [] } := by
  simp [complete, recordLag, storeResult, h, retire]

/-! ## The step -/

/-- SEQ's turn: nothing while IDLE, the stuck state, or the completion step of the running command. -/
theorem seqStep_cases {s t : State} (h : seqStep s = .next t) :
    (s.seq = .idle ∧ t = s) ∨ ∃ l i, s.seq = .busy l ∧ decode l.word = .ok i ∧ exec i s = .next t := by
  unfold seqStep at h
  cases hs : s.seq with
  | idle => rw [hs] at h; left; exact ⟨rfl, by injection h with h; exact h.symm⟩
  | busy l =>
    rw [hs] at h
    cases hd : decode l.word with
    | error e => simp [hd] at h
    | ok i => simp only [hd] at h; exact .inr ⟨l, i, rfl, hd, h⟩

/-- A CMD write: dropped, rejected, or accepted. -/
theorem present_cases {v : Word} {s t : State} (h : present v s = .next t) :
    (∃ l, s.seq = .busy l ∧ t = dropCommand s) ∨
    (s.seq = .idle ∧ (∃ e, decode v = .error e) ∧ t = rejectWord v s) ∨
    ∃ i, s.seq = .idle ∧ decode v = .ok i ∧ t = accept i (afterAccept i) s := by
  unfold present at h
  cases hs : s.seq with
  | busy l => rw [hs] at h; injection h with h; exact .inl ⟨l, rfl, h.symm⟩
  | idle =>
    rw [hs] at h
    cases hd : decode v with
    | error e => simp only [hd] at h; injection h with h; exact .inr (.inl ⟨rfl, ⟨e, rfl⟩, h.symm⟩)
    | ok i =>
      simp only [hd, exec_idle i hs] at h
      injection h with h
      exact .inr (.inr ⟨i, rfl, rfl, h.symm⟩)

/-- A HOST write: a CMD write, a register write, nothing, or a DMEM write. -/
theorem hostWrite_cases {off : Nat} {v : Word} {s t : State} (h : hostWrite off v s = .next t) :
    (target off s = .register .cmd ∧ present v s = .next t) ∨
    (∃ r, target off s = .register r ∧ r ≠ .cmd ∧ t = writeReg r v s) ∨
    (target off s = .nothing ∧ t = s) ∨
    ∃ w, target off s = .dmem w ∧ t = writeDmem w v s := by
  unfold hostWrite at h
  cases ht : target off s with
  | register r =>
    rw [ht] at h
    by_cases hr : r = .cmd
    · subst hr; exact .inl ⟨rfl, h⟩
    · refine .inr (.inl ⟨r, rfl, hr, ?_⟩)
      cases r <;> first
        | exact absurd rfl hr
        | (injection h with h; exact h.symm)
  | nothing => rw [ht] at h; injection h with h; exact .inr (.inr (.inl ⟨rfl, h.symm⟩))
  | dmem w => rw [ht] at h; injection h with h; exact .inr (.inr (.inr ⟨w, rfl, h.symm⟩))

/-- A step takes SEQ's turn when no input is left, and else does what the next input says in the state without it. -/
theorem step_cases {s t : State} (h : step s = .next t) :
    (s.inputs = [] ∧ seqStep s = .next t) ∨
    ∃ inp rest, s.inputs = inp :: rest ∧ runInput inp { s with inputs := rest } = .next t := by
  unfold step nextStep at h
  cases hs : s.inputs with
  | nil => rw [hs] at h; exact .inl ⟨rfl, h⟩
  | cons inp rest => rw [hs] at h; exact .inr ⟨inp, rest, rfl, h⟩

end Sys2Proof.Machine
end

