-- ==== Sys2Proof/Laws/Transform.lean ====
section
/-! SUPPORT. The laws of lines and layouts: what element a pass puts where, that every line function keeps the length, and
what a store of complex elements leaves in DMEM. -/

namespace Sys2Proof.Machine

/-! ## Lists of elements -/

/-- A list made index by index. -/
theorem elem_map_range (n : Nat) (f : Nat → Cplx) (j : Nat) :
    elem ((List.range n).map f) j = if j < n then f j else czero := by
  by_cases h : j < n <;> simp [elem, List.getD, h]

theorem elem_map_range_lt {n j : Nat} (f : Nat → Cplx) (h : j < n) : elem ((List.range n).map f) j = f j := by
  rw [elem_map_range, if_pos h]

/-- A list is the list of its elements. -/
theorem map_elem_range (x : List Cplx) : (List.range x.length).map (elem x) = x := by
  apply List.ext_getElem (by simp)
  intro i h1 h2
  simp [elem, List.getD, h2]

theorem elem_map {f : Cplx → Cplx} (x : List Cplx) {j : Nat} (h : j < x.length) : elem (x.map f) j = f (elem x j) := by
  simp [elem, List.getD, h]

/-- Two lines of one length are equal when their elements are. -/
theorem line_ext {n : Nat} {x y : List Cplx} (hx : x.length = n) (hy : y.length = n)
    (h : ∀ j, j < n → elem x j = elem y j) : x = y := by
  rw [← map_elem_range x, ← map_elem_range y, hx, hy]
  exact List.map_congr_left fun j hj => h j (List.mem_range.1 hj)

/-! ## Lengths -/

@[simp] theorem length_bitrevPass (n : Nat) (x : List Cplx) : (bitrevPass n x).length = n := by simp [bitrevPass]
@[simp] theorem length_stagePass (n stg : Nat) (x : List Cplx) : (stagePass n stg x).length = n := by simp [stagePass]
@[simp] theorem length_normPass (n : Nat) (x : List Cplx) : (normPass n x).length = n := by simp [normPass]
@[simp] theorem length_fftLine (n : Nat) (x : List Cplx) : (fftLine n x).length = n := by simp [fftLine]
@[simp] theorem length_ifftLine (n : Nat) (x : List Cplx) : (ifftLine n x).length = n := by simp [ifftLine]
@[simp] theorem length_readWords (s : State) (b n : Nat) : (readWords s b n).length = n := by simp [readWords]
@[simp] theorem length_readCplx (s : State) (b n : Nat) : (readCplx s b n).length = n := by simp [readCplx]
@[simp] theorem length_expandWords (ws : List Word) : (expandWords ws).length = ws.length := by simp [expandWords]
@[simp] theorem length_acfTransform (n : Nat) (x : List Word) : (acfTransform n x).length = n := by simp [acfTransform]

@[simp] theorem length_applyLines (lay : Layout) (w h n : Nat) (f : List Cplx → List Cplx) (b : List Cplx) :
    (applyLines lay w h n f b).length = w * h := by simp [applyLines]

@[simp] theorem length_gatherLine (lay : Layout) (w n : Nat) (b : List Cplx) (r : Nat) :
    (gatherLine lay w n b r).length = n := by simp [gatherLine]

@[simp] theorem length_cplxWords (zs : List Cplx) : (cplxWords zs).length = 2 * zs.length := by
  induction zs with
  | nil => rfl
  | cons z zs ih => rw [cplxWords, List.flatMap_cons, List.length_append, ← cplxWords, ih]; simp; omega

@[simp] theorem length_bispecSurface (n : Nat) (x : List Cplx) : (bispecSurface n x).length = n * n := by
  simp [bispecSurface, List.length_flatMap]

/-! ## Elements -/

theorem elem_bitrevPass {n j : Nat} (x : List Cplx) (h : j < n) :
    elem (bitrevPass n x) j = elem x (bitrev j (Nat.log2 n)) := elem_map_range_lt _ h

theorem elem_stagePass {n j : Nat} (stg : Nat) (x : List Cplx) (h : j < n) :
    elem (stagePass n stg x) j = stageElem n stg x j := elem_map_range_lt _ h

theorem elem_normPass {n j : Nat} (x : List Cplx) (h : j < n) :
    elem (normPass n x) j = cscale (elem x j) (invSqrt n) := elem_map_range_lt _ h

theorem elem_ifftLine {n j : Nat} (x : List Cplx) (h : j < n) :
    elem (ifftLine n x) j = cconj (elem (fftLine n (x.map cconj)) j) := elem_map _ (by simpa using h)

theorem elem_readCplx {n i : Nat} (s : State) (b : Nat) (h : i < n) : elem (readCplx s b n) i = cplxAt s b i :=
  elem_map_range_lt _ h

/-- Element `f1 · n + f2` of the bispectral surface is the triple product at `(f1, f2)`. -/
theorem elem_bispecSurface {n f1 f2 : Nat} (x : List Cplx) (h1 : f1 < n) (h2 : f2 < n) :
    elem (bispecSurface n x) (f1 * n + f2) = tripleProduct n x f1 f2 := by
  have key : ∀ m, f1 < m →
      elem ((List.range m).flatMap fun g1 => (List.range n).map fun g2 => tripleProduct n x g1 g2) (f1 * n + f2) =
        tripleProduct n x f1 f2 := by
    intro m
    induction m with
    | zero => intro h; omega
    | succ m ih =>
      intro h
      have hl : ((List.range m).flatMap fun g1 => (List.range n).map fun g2 => tripleProduct n x g1 g2).length =
          m * n := by simp [List.length_flatMap]
      rw [List.range_succ, List.flatMap_append, elem, List.getD]
      rcases Nat.lt_or_ge f1 m with g | g
      · have hlt : f1 * n + f2 < m * n := by
          have : (f1 + 1) * n ≤ m * n := Nat.mul_le_mul_right n g
          rw [Nat.add_mul, Nat.one_mul] at this; omega
        rw [List.getElem?_append_left (by rw [hl]; exact hlt)]
        exact ih g
      · have e : f1 = m := by omega
        subst e
        rw [List.getElem?_append_right (by rw [hl]; omega), hl]
        simp [h2]
  exact key n h1

/-! ## Layouts (42_fft.md R171) -/

/-- The place of element `j` of line `r` lies in the buffer, and line and position are read back from it. -/
theorem elementOf_spec {lay : Layout} {w h n r j : Nat} (hn : lineLen lay w h = n) (hr : r < lineCount lay w h)
    (hj : j < n) :
    elementOf lay w r j < w * h ∧ lineOf lay w (elementOf lay w r j) = r ∧
      positionOf lay w (elementOf lay w r j) = j := by
  cases lay with
  | flat =>
    simp only [lineCount, Nat.lt_one_iff] at hr
    exact ⟨lt_of_lt_of_eq hj hn.symm, hr.symm, rfl⟩
  | rows =>
    simp only [lineLen] at hn
    simp only [lineCount] at hr
    subst hn
    simp only [elementOf, lineOf, positionOf]
    have hw : 0 < w := by omega
    refine ⟨?_, ?_, ?_⟩
    · have : (r + 1) * w ≤ h * w := Nat.mul_le_mul_right w hr
      rw [Nat.add_mul, Nat.one_mul] at this
      rw [Nat.mul_comm w h]; omega
    · rw [Nat.mul_comm, Nat.mul_add_div hw, Nat.div_eq_of_lt hj, Nat.add_zero]
    · rw [Nat.mul_comm, Nat.mul_add_mod, Nat.mod_eq_of_lt hj]
  | cols =>
    simp only [lineLen] at hn
    simp only [lineCount] at hr
    subst hn
    simp only [elementOf, lineOf, positionOf]
    have hw : 0 < w := by omega
    refine ⟨?_, ?_, ?_⟩
    · have : (j + 1) * w ≤ h * w := Nat.mul_le_mul_right w hj
      rw [Nat.add_mul, Nat.one_mul] at this
      rw [Nat.mul_comm w h]; omega
    · rw [Nat.mul_comm, Nat.mul_add_mod, Nat.mod_eq_of_lt hr]
    · rw [Nat.mul_comm, Nat.mul_add_div hw, Nat.div_eq_of_lt hr, Nat.add_zero]

/-- Every place of the buffer is the place of its position in its line. -/
theorem elementOf_lineOf {lay : Layout} {w h n e : Nat} (hn : lineLen lay w h = n) (he : e < w * h) :
    lineOf lay w e < lineCount lay w h ∧ positionOf lay w e < n ∧
      elementOf lay w (lineOf lay w e) (positionOf lay w e) = e := by
  have hw : 0 < w := by rcases Nat.eq_zero_or_pos w with h0 | h0 <;> simp_all
  cases lay with
  | flat =>
    exact ⟨Nat.one_pos, lt_of_lt_of_eq he hn, rfl⟩
  | rows =>
    simp only [lineLen] at hn
    subst hn
    simp only [elementOf, lineOf, positionOf, lineCount]
    exact ⟨Nat.div_lt_of_lt_mul he, Nat.mod_lt _ hw, Nat.div_add_mod' e w⟩
  | cols =>
    simp only [lineLen] at hn
    subst hn
    simp only [elementOf, lineOf, positionOf, lineCount]
    exact ⟨Nat.mod_lt _ hw, Nat.div_lt_of_lt_mul he, Nat.div_add_mod' e w⟩

/-- Element `j` of line `r` of the result is element `j` of the line function of line `r` of the source. -/
theorem elem_applyLines {lay : Layout} {w h n r j : Nat} (f : List Cplx → List Cplx) (b : List Cplx)
    (hn : lineLen lay w h = n) (hr : r < lineCount lay w h) (hj : j < n) :
    elem (applyLines lay w h n f b) (elementOf lay w r j) = elem (f (gatherLine lay w n b r)) j := by
  obtain ⟨h1, h2, h3⟩ := elementOf_spec hn hr hj
  rw [applyLines, elem_map_range_lt _ h1, h2, h3]
  simp [List.getD, hr]

/-- Line `r` of the result is the line function of line `r` of the source. -/
theorem gatherLine_applyLines {lay : Layout} {w h n r : Nat} {f : List Cplx → List Cplx} (b : List Cplx)
    (hn : lineLen lay w h = n) (hf : ∀ x, (f x).length = n) (hr : r < lineCount lay w h) :
    gatherLine lay w n (applyLines lay w h n f b) r = f (gatherLine lay w n b r) := by
  refine line_ext (by simp) (hf _) fun j hj => ?_
  rw [gatherLine, elem_map_range_lt _ hj, elem_applyLines f b hn hr hj]

/-- One line function after another is their composition. -/
theorem applyLines_applyLines {lay : Layout} {w h n : Nat} {f g : List Cplx → List Cplx} (b : List Cplx)
    (hn : lineLen lay w h = n) (hf : ∀ x, (f x).length = n) :
    applyLines lay w h n g (applyLines lay w h n f b) = applyLines lay w h n (fun x => g (f x)) b := by
  refine line_ext (length_applyLines ..) (length_applyLines ..) fun e he => ?_
  obtain ⟨h1, h2, h3⟩ := elementOf_lineOf hn he
  rw [← h3, elem_applyLines g _ hn h1 h2, elem_applyLines (fun x => g (f x)) b hn h1 h2,
    gatherLine_applyLines b hn hf h1]

/-! ## Complex elements in DMEM -/

theorem getElem?_cplxWords (zs : List Cplx) (i : Nat) :
    (cplxWords zs)[2 * i]? = zs[i]?.map Cplx.re ∧ (cplxWords zs)[2 * i + 1]? = zs[i]?.map Cplx.im := by
  induction zs generalizing i with
  | nil => simp [cplxWords]
  | cons z zs ih =>
    rw [cplxWords, List.flatMap_cons, ← cplxWords]
    cases i with
    | zero => simp
    | succ i =>
      rw [show 2 * (i + 1) = 2 * i + 2 by omega]
      simpa using ih i

/-- A complex element after a store of complex elements. -/
theorem cplxAt_writeWords (s : State) (b : Nat) (zs : List Cplx) {i : Nat} (h : i < zs.length) :
    cplxAt { s with dmem := s.dmem.writeWords b (cplxWords zs) } b i = elem zs i := by
  obtain ⟨e1, e2⟩ := getElem?_cplxWords zs i
  rw [List.getElem?_eq_getElem h] at e1 e2
  rw [cplxAt, readWord_writeWords, readWord_writeWords, length_cplxWords, if_pos (by omega), if_pos (by omega),
    show b + 2 * i - b = 2 * i by omega, show b + 2 * i + 1 - b = 2 * i + 1 by omega, e1, e2]
  simp [elem, List.getD, List.getElem?_eq_getElem h]

/-- A store of words keeps every byte outside them. -/
theorem keepsBytes_writeWords (s : State) (b n : Nat) (vs : List Word) (h : vs.length = n) :
    KeepsBytesOutside s { s with dmem := s.dmem.writeWords b vs } b n := by
  intro a ha
  rw [readByte_writeWords, if_neg (by omega)]

/-- Reading is a function of DMEM and the power-on counter alone. -/
theorem readByte_congr {s t : State} (h : t.dmem = s.dmem) (hp : t.powerCycle = s.powerCycle) (a : Nat) :
    readByte t a = readByte s a := by simp [readByte, h, hp]

theorem readWord_congr {s t : State} (h : t.dmem = s.dmem) (hp : t.powerCycle = s.powerCycle) (w : Nat) :
    readWord t w = readWord s w := by simp [readWord, readByte_congr h hp]

theorem cplxAt_congr {s t : State} (h : t.dmem = s.dmem) (hp : t.powerCycle = s.powerCycle) (b i : Nat) :
    cplxAt t b i = cplxAt s b i := by simp [cplxAt, readWord_congr h hp]

end Sys2Proof.Machine
end

