-- ==== Sys2Proof/Laws/Check.lean ====
section
/-! SUPPORT. What a passed acceptance check says: no condition holds, the sizes agree, every buffer is in range, and the
result of the command has the length of its destination. -/

namespace Sys2Proof.Machine

/-! ## The first error -/

theorem firstError_eq_none {cs : List (Bool × CmdError)} : firstError cs = none ↔ ∀ c ∈ cs, c.1 = false := by
  induction cs with
  | nil => simp [firstError]
  | cons c cs ih =>
    obtain ⟨b, e⟩ := c
    cases b <;> simp [firstError, ih]

theorem firstError_mem {cs : List (Bool × CmdError)} {e : CmdError} (h : firstError cs = some e) : (true, e) ∈ cs := by
  induction cs with
  | nil => simp [firstError] at h
  | cons c cs ih =>
    obtain ⟨b, f⟩ := c
    cases b
    · exact List.mem_cons_of_mem _ (ih (by simpa [firstError] using h))
    · have : f = e := by simpa [firstError] using h
      subst this; exact List.mem_cons_self

/-! ## A passed check -/

/-- The four parts of a passed check. -/
theorem check_none {i : Instr} {l : Latch} {d : Nat} (h : check i l d = none) :
    (i = .cfg → sizeSupported l.size.toNat = true) ∧ (needsEngine i = true → l.n ≠ 0) ∧
      (∀ c ∈ sizeConditions i l, c.1 = false) ∧ ∀ c ∈ rangeConditions i l d, c.1 = false := by
  have h := firstError_eq_none.1 h
  simp only [conditions, List.cons_append, List.mem_cons, List.mem_append, List.mem_map] at h
  refine ⟨fun hi => ?_, fun hi => ?_, fun c hc => ?_, fun c hc => ?_⟩
  · simpa [hi] using h _ (.inl rfl)
  · simpa [hi] using h _ (.inr (.inl rfl))
  · exact h _ (.inr (.inr (.inl ⟨c, hc, rfl⟩)))
  · exact h _ (.inr (.inr (.inr ⟨c, hc, rfl⟩)))

/-- Every buffer a command uses is in range (20_memory.md R65). -/
theorem check_range {i : Instr} {l : Latch} {d : Nat} (h : check i l d = none) :
    (usesA i = true → l.aAddr.toNat + l.aLen.toNat ≤ d) ∧ (usesB i = true → l.bAddr.toNat + l.bLen.toNat ≤ d) ∧
      (usesD i = true → l.dAddr.toNat + l.dLen.toNat ≤ d) := by
  have h := (check_none h).2.2.2
  simp only [rangeConditions, List.forall_mem_cons, Buffer.outOfRange, Latch.bufA, Latch.bufB, Latch.bufD] at h
  obtain ⟨h1, h2, h3, -⟩ := h
  refine ⟨fun hu => ?_, fun hu => ?_, fun hu => ?_⟩
  · exact Nat.not_lt.1 (of_decide_eq_false (by rw [hu, Bool.true_and] at h1; exact h1))
  · exact Nat.not_lt.1 (of_decide_eq_false (by rw [hu, Bool.true_and] at h2; exact h2))
  · exact Nat.not_lt.1 (of_decide_eq_false (by rw [hu, Bool.true_and] at h3; exact h3))

/-- The geometry and the lengths of a command of the FFT family that passed its check (42_fft.md R172). -/
theorem check_family {i : Instr} {lay : Layout} {l : Latch} {d : Nat} (h : check i l d = none)
    (hi : i = .fft lay ∨ i = .ifft lay ∨ i = .bitrev lay ∨ (∃ stg, i = .stage lay stg) ∨ i = .norm lay) :
    l.w.toNat ≠ 0 ∧ l.h.toNat ≠ 0 ∧ lineLen lay l.w.toNat l.h.toNat = l.n.toNat ∧
      l.aLen.toNat = 2 * l.w.toNat * l.h.toNat ∧ l.dLen.toNat = 2 * l.w.toNat * l.h.toNat := by
  have h := (check_none h).2.2.1
  rcases hi with rfl | rfl | rfl | ⟨stg, rfl⟩ | rfl <;>
  · simp [sizeConditions, familyLengths, badGeometry] at h
    tauto

/-- The result of a command that passed its check fills its destination exactly. -/
theorem length_resultOf {i : Instr} {l : Latch} {s : State} {d : Nat} (h : check i l d = none) (hd : usesD i = true) :
    (resultOf i l s).words.length = l.dLen.toNat := by
  have hs := (check_none h).2.2.1
  cases i with
  | nop | cfg => simp [usesD] at hd
  | fft lay | ifft lay | bitrev lay | stage lay stg | norm lay =>
    have := (check_family (lay := lay) h (by simp)).2.2.2.2
    simp [resultOf, lineResult, this, Nat.mul_assoc]
  | expand => simp [sizeConditions] at hs; simp [resultOf, expandResult, hs]
  | conj =>
    simp [sizeConditions, badComplexLength] at hs
    simp [resultOf, conjResult, sourceA]; omega
  | cmul =>
    simp [sizeConditions, badComplexLength] at hs
    simp [resultOf, cmulResult, sourceA, sourceB]; omega
  | mag => simp [sizeConditions, badComplexLength] at hs; simp [resultOf, magResult, sourceA, hs]
  | mag2 => simp [sizeConditions, badComplexLength] at hs; simp [resultOf, mag2Result, sourceA, hs]
  | phase => simp [sizeConditions, badComplexLength] at hs; simp [resultOf, phaseResult, sourceA, hs]
  | acf => simp [sizeConditions] at hs; simp [resultOf, acfResult, hs]
  | conv => simp [sizeConditions] at hs; simp [resultOf, convResult, hs]
  | bispec => simp [sizeConditions] at hs; simp [resultOf, bispecResult, hs]
  | wavelet => simp [sizeConditions] at hs; simp [resultOf, waveletResult, hs]
  | twread => simp [sizeConditions] at hs; simp [resultOf, twreadResult, hs]
  | brread => simp [sizeConditions] at hs; simp [resultOf, brreadResult, hs]

/-! ## A completion in terms of its memory -/

/-- A command that SEQ runs, with nothing clobbered and no failing lag, completes with its words in the destination. -/
theorem exec_completes {i : Instr} {l : Latch} {s : State} (hs : s.seq = .busy l) (hc : s.clobbered = [])
    (hd : usesD i = true) (hl : (resultOf i l s).lag = none) :
    exec i s = .next (completedWith s (s.dmem.writeWords l.dAddr.toNat (resultOf i l s).words)) := by
  rw [exec_busy hs hd, sourceView_unclobbered hc]
  have := complete_unclobbered (l := l) (ws := (resultOf i l s).words) hc
  rw [← hl] at this
  exact congrArg _ this

end Sys2Proof.Machine
end

