-- ==== Sys2Proof/Laws/HostBus.lean ====
section
/-! SUPPORT. The laws of HOST accesses: a supported access is what it does to its target, and what the target is. -/

namespace Sys2Proof.Machine

/-- A HOST read of an aligned offset of the window, reset released: the step is the read. -/
theorem step_hostRead {s : State} {off : Nat} {rest : List Input} (hi : s.inputs = .hostRead 32 off :: rest)
    (hr : s.inReset = false) (hw : off < windowSize) (ha : off % 4 = 0) :
    step s = .next (hostRead off { s with inputs := rest }) := by
  have h : accessRefusal 32 (off : Int) { s with inputs := rest } = none := by
    simp only [windowSize] at hw
    unfold accessRefusal
    rw [if_neg (by simp [hr]), if_neg (by decide), if_neg (by simp only [windowSize]; omega), if_neg (by omega)]
  simp only [step, nextStep, hi, runInput, h, Int.toNat_natCast]

/-- A HOST write of an aligned offset of the window, reset released: the step is the write. -/
theorem step_hostWrite {s : State} {off : Nat} {v : Word} {rest : List Input}
    (hi : s.inputs = .hostWrite 32 off v :: rest) (hr : s.inReset = false) (hw : off < windowSize) (ha : off % 4 = 0) :
    step s = hostWrite off v { s with inputs := rest } := by
  have h : accessRefusal 32 (off : Int) { s with inputs := rest } = none := by
    simp only [windowSize] at hw
    unfold accessRefusal
    rw [if_neg (by simp [hr]), if_neg (by decide), if_neg (by simp only [windowSize]; omega), if_neg (by omega)]
  simp only [step, nextStep, hi, runInput, h, Int.toNat_natCast]

/-- A CMD write, reset released, presents the word. -/
theorem step_commandWrite {s : State} {v : Word} {rest : List Input} (hi : s.inputs = .hostWrite 32 0x00C v :: rest)
    (hr : s.inReset = false) : step s = present v { s with inputs := rest } := by
  have h := step_hostWrite (off := 0x00C) (by exact_mod_cast hi) hr (by decide) (by decide)
  rw [h]
  rfl

/-! ## Targets (20_memory.md R60) -/

/-- In the register window the target is the register of the map, or nothing. -/
theorem target_registerWindow {off : Nat} (s : State) (h : off < reservedBase) :
    target off s = match registerAt off with
      | some r => .register r
      | none => .nothing := by
  unfold target; exact if_pos h

theorem target_reserved {off : Nat} (s : State) (h1 : reservedBase ≤ off) (h2 : off < dmemBase) :
    target off s = .nothing := by
  unfold target; rw [if_neg (Nat.not_lt.2 h1), if_pos h2]

theorem target_dmem (s : State) {w : Nat} (h : w < s.dmemWords) : target (dmemBase + 4 * w) s = .dmem w := by
  have e : (dmemBase + 4 * w - dmemBase) / 4 = w := by omega
  unfold target
  rw [if_neg (by simp only [reservedBase, dmemBase]; omega), if_neg (by omega), e, if_pos h]

theorem target_beyond {off : Nat} (s : State) (h : dmemBase + 4 * s.dmemWords ≤ off) : target off s = .nothing := by
  have h0 : ¬ off < reservedBase := by simp only [reservedBase, dmemBase] at *; omega
  unfold target
  rw [if_neg h0, if_neg (by omega), if_neg (by omega)]

/-- The registers at the offsets of the map, and no others. -/
theorem registerAt_mem {off : Nat} {r : Reg} (h : registerAt off = some r) : (off, r) ∈ registerMap := by
  unfold registerAt at h
  rw [Option.map_eq_some_iff] at h
  obtain ⟨⟨o, q⟩, hf, rfl⟩ := h
  have e : o = off := by simpa using List.find?_some hf
  subst e
  exact List.mem_of_find?_eq_some hf

end Sys2Proof.Machine
end

