-- ==== Sys2Proof/Laws/PerInstr.lean ====
section
/-! SUPPORT. The per-instruction family `EncodeFields`: the fields of the command word of each instruction, against the
opcode map of 30_encoding.md R95. -/

namespace Sys2Proof.Laws.EncodeFields

/-- The operation number of R95's table. -/
def opcodeOf (i : Instr) : BitVec 8 :=
  match i with
  | .nop => 0x00
  | .cfg => 0x01
  | .fft _ => 0x02
  | .ifft _ => 0x03
  | .bitrev _ => 0x04
  | .stage _ _ => 0x05
  | .norm _ => 0x06
  | .expand => 0x10
  | .conj => 0x11
  | .cmul => 0x12
  | .mag => 0x13
  | .mag2 => 0x14
  | .phase => 0x15
  | .acf => 0x20
  | .conv => 0x21
  | .bispec => 0x22
  | .wavelet => 0x23
  | .twread => 0x30
  | .brread => 0x31

/-- The LAY value: the layout's number for the FFT family, 0 for every other command (R92). -/
def layOf (i : Instr) : BitVec 2 :=
  match i with
  | .fft lay | .ifft lay | .bitrev lay | .stage lay _ | .norm lay => encodeLayout lay
  | .nop | .cfg => 0
  | .expand | .conj | .cmul | .mag | .mag2 | .phase => 0
  | .acf | .conv | .bispec | .wavelet | .twread | .brread => 0

/-- The STG value: the stage for STAGE, 0 for every other command (R93). -/
def stgOf (i : Instr) : BitVec 5 :=
  match i with
  | .stage _ stg => stg
  | .nop | .cfg | .fft _ | .ifft _ | .bitrev _ | .norm _ => 0
  | .expand | .conj | .cmul | .mag | .mag2 | .phase => 0
  | .acf | .conv | .bispec | .wavelet | .twread | .brread => 0

/-- The fields of the command word are the instruction's, and the reserved bits are 0 (R90). -/
def Statement (i : Instr) : Prop :=
  opcField (encode i) = opcodeOf i ∧ layField (encode i) = layOf i ∧ stgField (encode i) = stgOf i ∧
    reservedLow (encode i) = 0 ∧ reservedHigh (encode i) = 0

/-- The fields of a packed word. -/
theorem fields_packCommand (opc : BitVec 8) (lay : BitVec 2) (stg : BitVec 5) :
    opcField (packCommand opc lay stg) = opc ∧ layField (packCommand opc lay stg) = lay ∧
      stgField (packCommand opc lay stg) = stg ∧ reservedLow (packCommand opc lay stg) = 0 ∧
      reservedHigh (packCommand opc lay stg) = 0 := by
  refine ⟨?_, ?_, ?_, ?_, ?_⟩ <;>
  · apply BitVec.eq_of_getLsbD_eq
    intro i hi
    simp only [opcField, layField, stgField, reservedLow, reservedHigh, packCommand, BitVec.getLsbD_extractLsb',
      BitVec.getLsbD_append]
    interval_cases i <;> simp only [reduceIte, Nat.reduceAdd, Nat.reduceSub, Nat.reduceLT, decide_true, Bool.true_and]

theorem nop : Statement .nop := fields_packCommand _ _ _
theorem cfg : Statement .cfg := fields_packCommand _ _ _
theorem fft (lay : Layout) : Statement (.fft lay) := fields_packCommand _ _ _
theorem ifft (lay : Layout) : Statement (.ifft lay) := fields_packCommand _ _ _
theorem bitrev (lay : Layout) : Statement (.bitrev lay) := fields_packCommand _ _ _
theorem stage (lay : Layout) (stg : BitVec 5) : Statement (.stage lay stg) := fields_packCommand _ _ _
theorem norm (lay : Layout) : Statement (.norm lay) := fields_packCommand _ _ _
theorem expand : Statement .expand := fields_packCommand _ _ _
theorem conj : Statement .conj := fields_packCommand _ _ _
theorem cmul : Statement .cmul := fields_packCommand _ _ _
theorem mag : Statement .mag := fields_packCommand _ _ _
theorem mag2 : Statement .mag2 := fields_packCommand _ _ _
theorem phase : Statement .phase := fields_packCommand _ _ _
theorem acf : Statement .acf := fields_packCommand _ _ _
theorem conv : Statement .conv := fields_packCommand _ _ _
theorem bispec : Statement .bispec := fields_packCommand _ _ _
theorem wavelet : Statement .wavelet := fields_packCommand _ _ _
theorem twread : Statement .twread := fields_packCommand _ _ _
theorem brread : Statement .brread := fields_packCommand _ _ _

end Sys2Proof.Laws.EncodeFields
end

