-- ==== Sys2Proof/Tests/Slice0.lean ====
section
/-! SUPPORT. Tests: expected values come from spec/95_test_vectors.md (the vector is named) or are written out from the
spec's tables. The last part shows, for every obligation with hypotheses, a concrete case that meets them. -/

namespace Sys2Proof.Tests

open Sys2Proof.Machine

-- one theorem after another: each kernel evaluation would else hold a thread of its own
set_option Elab.async false

/-! ## Well-formedness and decoding -/

/-- The one ill-formed shape: STAGE with stage 0 (30_encoding.md R93). -/
theorem test_stage_zero_is_ill_formed :
    ∀ lay, (Instr.stage lay 0).wellFormed = false ∧ (Instr.stage lay 1).wellFormed = true ∧
      (Instr.stage lay 31).wellFormed = true := by
  intro lay; cases lay <;> decide

/-- Control and the FFT family, bit by bit from R90 and R95: reserved 15, STG 5, reserved 2, LAY 2, OPC 8. -/
theorem test_decode_transform_words :
    decode 0b000000000000000_00000_00_00_00000000 = .ok .nop ∧
    decode 0b000000000000000_00000_00_00_00000001 = .ok .cfg ∧
    decode 0b000000000000000_00000_00_01_00000010 = .ok (.fft .rows) ∧
    decode 0b000000000000000_00000_00_10_00000011 = .ok (.ifft .cols) ∧
    decode 0b000000000000000_00000_00_00_00000100 = .ok (.bitrev .flat) ∧
    decode 0b000000000000000_10011_00_10_00000101 = .ok (.stage .cols 19) ∧
    decode 0b000000000000000_00000_00_01_00000110 = .ok (.norm .rows) := by decide

theorem test_decode_buffer_words :
    decode 0b000000000000000_00000_00_00_00010000 = .ok .expand ∧
    decode 0b000000000000000_00000_00_00_00010001 = .ok .conj ∧
    decode 0b000000000000000_00000_00_00_00010010 = .ok .cmul ∧
    decode 0b000000000000000_00000_00_00_00010011 = .ok .mag ∧
    decode 0b000000000000000_00000_00_00_00010100 = .ok .mag2 ∧
    decode 0b000000000000000_00000_00_00_00010101 = .ok .phase := by decide

theorem test_decode_derived_words :
    decode 0b000000000000000_00000_00_00_00100000 = .ok .acf ∧
    decode 0b000000000000000_00000_00_00_00100001 = .ok .conv ∧
    decode 0b000000000000000_00000_00_00_00100010 = .ok .bispec ∧
    decode 0b000000000000000_00000_00_00_00100011 = .ok .wavelet ∧
    decode 0b000000000000000_00000_00_00_00110000 = .ok .twread ∧
    decode 0b000000000000000_00000_00_00_00110001 = .ok .brread := by decide

/-- V-DEC-14, and the first value of each reserved range of R95. -/
theorem test_reserved_opcodes_are_rejected :
    ([0x07, 0x0F, 0x16, 0x1F, 0x24, 0x2F, 0x32, 0xFF].map decode).all (· == .error .reservedOpcode) = true := by
  decide

/-- The table's 32 bits of STAGE.rows 3 (42_fft.md R181: 0x00003105), laid out in bytes and read back. -/
theorem test_decode_table_word :
    decodeTableWord 32 0x00003105 = some (.stage .rows 3) ∧ decodeTableWord 8 0x02 = some (.fft .flat) ∧
      decodeTableWord 32 0x00000007 = none ∧ decodeBytes [0x02, 0x01, 0x00] = .error .truncated := by decide

/-! ## Small states -/

/-- Reset, with the given words at DMEM word 0. -/
def loaded (ws : List Word) : State := { State.reset with dmem := Memory.writeWords [] 0 ws }

/-- A latched record: A at word 0, B at word 4, D at word 16, geometry `w × h`, engine size `n`. -/
def operands (aLen dLen w h n : Word) : Latch where
  word := 0
  aAddr := 0
  aLen := aLen
  bAddr := 4
  bLen := aLen
  dAddr := 16
  dLen := dLen
  w := w
  h := h
  fp0 := 0x40800000
  fp1 := 0x3F800000
  size := 0
  numchk := true
  n := n

/-- SEQ is BUSY with the command over the given source words. -/
def running (i : Instr) (l : Latch) (ws : List Word) : State :=
  { loaded ws with seq := .busy { l with word := encode i }, cmd := encode i, ncur := l.n }

/-- `n` words from word `b` of DMEM after an outcome. -/
def wordsAfter (o : Outcome) (b n : Nat) : List Word :=
  match o with
  | .next t => readWords t b n
  | .fault _ => []
  | .refused _ => []

/-- STATUS and ERRINFO after an outcome. -/
def statusAfter (o : Outcome) : Option (Word × Word) :=
  match o with
  | .next t => some (statusWord t, t.errinfo)
  | .fault _ => none
  | .refused _ => none

/-- The operand registers of an idle block with engine size `n`. -/
def idleWith (n a aLen bLen dLen w h : Word) : State :=
  { State.reset with ncur := n, aAddr := a, aLen := aLen, bLen := bLen, dAddr := 16, dLen := dLen, width := w, height := h }

/-! ## Commands -/

/-- V-CFG-1 and V-CFG-3. -/
theorem test_cfg :
    statusAfter (exec .cfg { State.reset with size := 8 }) = some (0x00030102, 0) ∧
      statusAfter (exec .cfg { State.reset with size := 6, ncur := 8 }) = some (0x00030116, 0) := by decide +kernel

/-- V-NOP-1: after reset NOP leaves STATUS = 0x00000002. -/
theorem test_nop : statusAfter (exec .nop State.reset) = some (0x00000002, 0) := by decide +kernel

/-- The source of V-FFT-4: 1, 2, 3, 4 with imaginary parts +0. -/
def oneToFour : List Word := [0x3F800000, 0, 0x40000000, 0, 0x40400000, 0, 0x40800000, 0]

/-- V-FFT-4. -/
theorem test_fft_flat :
    wordsAfter (exec (.fft .flat) (running (.fft .flat) (operands 8 8 4 1 4) oneToFour)) 16 8 =
      [0x40A00000, 0, 0xBF800000, 0xBF800000, 0xBF800000, 0, 0xBF800000, 0x3F800000] := by decide +kernel

/-- V-FFT-7: two columns of four. -/
theorem test_fft_cols :
    wordsAfter (exec (.fft .cols) (running (.fft .cols) (operands 16 16 2 4 4)
      (oneToFour ++ [0x40A00000, 0, 0x40C00000, 0, 0x40E00000, 0, 0x41000000, 0]))) 16 16 =
      [0x41000000, 0, 0x41200000, 0, 0xC0000000, 0xC0000000, 0xC0000000, 0xC0000000, 0xC0000000, 0, 0xC0000000, 0,
        0xC0000000, 0x40000000, 0xC0000000, 0x40000000] := by decide +kernel

/-- V-IFFT-1: the signs of the zeros come from the two conjugations. -/
theorem test_ifft :
    wordsAfter (exec (.ifft .flat) (running (.ifft .flat) (operands 4 4 2 1 2) [0x40400000, 0, 0x3F800000, 0])) 16 4 =
      [0x403504F3, 0x80000000, 0x3FB504F3, 0] := by decide +kernel

/-- V-BITREV-3: two rows of four; the words are copied, a NaN payload among them. -/
theorem test_bitrev_rows :
    wordsAfter (exec (.bitrev .rows) (running (.bitrev .rows) (operands 16 16 4 2 4)
      [0, 1, 2, 0x7FA00001, 4, 5, 6, 7, 8, 9, 10, 11, 12, 13, 14, 15])) 16 16 =
      [0, 1, 4, 5, 2, 0x7FA00001, 6, 7, 8, 9, 12, 13, 10, 11, 14, 15] := by decide +kernel

/-- V-STAGE-4: stage 2 without BITREV. -/
theorem test_stage :
    wordsAfter (exec (.stage .flat 2) (running (.stage .flat 2) (operands 8 8 4 1 4) oneToFour)) 16 8 =
      [0x40800000, 0, 0x40000000, 0x40800000, 0xC0000000, 0, 0x40000000, 0xC0800000] := by decide +kernel

/-- V-NORM-2, and a part that rounds: 3 · RN(1/√2) = 0x4007C3B6 (V-FFT-1). -/
theorem test_norm :
    wordsAfter (exec (.norm .flat) (running (.norm .flat) (operands 4 4 2 1 2) [0x3F800000, 0, 0x40400000, 0x80000000]))
      16 4 = [0x3F3504F3, 0, 0x4007C3B6, 0x80000000] := by decide +kernel

/-- V-EXP-2: a signalling NaN and −0.0 are copied bit for bit. -/
theorem test_expand :
    wordsAfter (exec .expand (running .expand (operands 2 4 0 0 0) [0x7FA00001, 0x80000000])) 16 4 =
      [0x7FA00001, 0, 0x80000000, 0] := by decide +kernel

/-- V-CONJ-4: the sign bit of a NaN is flipped, the payload kept. -/
theorem test_conj :
    wordsAfter (exec .conj (running .conj (operands 4 4 0 0 0) [0, 0x7FA00001, 0, 0xFFC00001])) 16 4 =
      [0, 0xFFA00001, 0, 0x7FC00001] := by decide +kernel

/-- V-CMUL-1, V-CMUL-6. -/
theorem test_cmul :
    wordsAfter (exec .cmul (running .cmul (operands 4 4 0 0 0)
      [0x3F800000, 0x40000000, 0x3F800000, 0x80000000, 0x40400000, 0x40800000, 0x3F800000, 0x80000000])) 16 4 =
      [0xC0A00000, 0x41200000, 0x3F800000, 0x80000000] := by decide +kernel

/-- V-MAG-1, V-MAG-6 (the square is subnormal and inexact). -/
theorem test_mag :
    wordsAfter (exec .mag (running .mag (operands 4 2 0 0 0) [0x40400000, 0x40800000, 0x1E3CE508, 0])) 16 2 =
      [0x40A00000, 0x1E3CE4E7] := by decide +kernel

theorem test_mag2 :
    wordsAfter (exec .mag2 (running .mag2 (operands 4 2 0 0 0) [0x40400000, 0x40800000, 0x1E3CE508, 0])) 16 2 =
      [0x41C80000, 0x000116C2] := by decide +kernel

/-- V-PHASE-1, V-PHASE-2, V-PHASE-6. -/
theorem test_phase_axes :
    wordsAfter (exec .phase (running .phase (operands 8 4 0 0 0)
      [0, 0x3F800000, 0, 0xBF800000, 0xBF800000, 0x80000000, 0, 0])) 16 4 =
      [0x3FC90FDB, 0xBFC90FDB, 0, 0] := by decide +kernel

/-- V-ACF-2. -/
theorem test_acf :
    wordsAfter (exec .acf (running .acf (operands 4 4 0 0 4) [0x3F800000, 0x40000000, 0x40400000, 0x40800000])) 16 4 =
      [0x41700000, 0x41400000, 0x41300000, 0x41400000] := by decide +kernel

/-- V-ACF-4: the numeric check fails at lag 0, the output is written. -/
theorem test_acf_numeric_assert :
    (let o := exec .acf (running .acf (operands 4 4 0 0 4) [0, 0x7FC00000, 0, 0])
     (statusAfter o, wordsAfter o 16 4)) =
      (some (0x00020136, 0), [0x7FC00000, 0x7FC00000, 0x7FC00000, 0x7FC00000]) := by decide +kernel

/-- V-ACF-4 and V-ACF-2 where HOST wrote a destination word meanwhile: the source is intact, so the numeric check is the
same (60_exceptions.md R244; 20_memory.md R70 leaves the destination alone unspecified). -/
theorem test_acf_numeric_assert_clobbered :
    statusAfter (exec .acf { running .acf (operands 4 4 0 0 4) [0, 0x7FC00000, 0, 0] with clobbered := [16] }) =
      some (0x00020136, 0) ∧
    statusAfter (exec .acf { running .acf (operands 4 4 0 0 4) [0x3F800000, 0x40000000, 0x40400000, 0x40800000] with
      clobbered := [17] }) = some (0x00020102, 0) := by decide +kernel

/-- V-CONV-1: A the transform of the impulse (words 0 to 7), B that of 1, 2, 3, 4 (words 8 to 15). -/
theorem test_conv :
    wordsAfter (exec .conv (running .conv { operands 8 4 0 0 4 with bAddr := 8 }
      [0x3F000000, 0, 0x3F000000, 0, 0x3F000000, 0, 0x3F000000, 0,
        0x40A00000, 0, 0xBF800000, 0xBF800000, 0xBF800000, 0, 0xBF800000, 0x3F800000])) 16 4 =
      [0x3F000000, 0x3F800000, 0x3FC00000, 0x40000000] := by decide +kernel

/-- V-BISPEC-1. -/
theorem test_bispec :
    wordsAfter (exec .bispec (running .bispec (operands 4 8 0 0 2) [0x3F800000, 0, 0x40000000, 0])) 16 8 =
      [0x3F800000, 0, 0x40800000, 0, 0x40800000, 0, 0x40800000, 0] := by decide +kernel

/-- V-WAV-1: the peak bin 2, which is the same for every `EXP_F`, and the zero bins 5 to 7. -/
theorem test_wavelet :
    (let o := exec .wavelet (running .wavelet (operands 0 16 0 0 8) [])
     (wordsAfter o 20 2, wordsAfter o 26 6)) = ([0x40D59413, 0], [0, 0, 0, 0, 0, 0]) := by decide +kernel

/-- V-TWREAD-1. -/
theorem test_twread :
    wordsAfter (exec .twread (running .twread (operands 0 8 0 0 4) [])) 16 8 =
      [0x3F800000, 0, 0, 0x3F800000, 0xBF800000, 0, 0, 0xBF800000] := by decide +kernel

/-- V-BRREAD-1. -/
theorem test_brread :
    wordsAfter (exec .brread (running .brread (operands 0 8 0 0 8) [])) 16 8 = [0, 4, 2, 6, 1, 5, 3, 7] := by
  decide +kernel

/-! ## Errors and registers -/

/-- V-ERR-1, V-ERR-4, V-ERR-6, V-ERR-7: the order of the checks of the FFT family. -/
theorem test_family_errors :
    statusAfter (exec (.fft .flat) State.reset) = some (0x00000046, 0) ∧
    statusAfter (exec (.fft .flat) (idleWith 8 0 16 0 16 4 1)) = some (0x00030126, 4) ∧
    statusAfter (exec (.fft .flat) (idleWith 8 0 14 0 14 8 1)) = some (0x00030126, 1) ∧
    statusAfter (exec (.stage .flat 4) (idleWith 8 0 16 0 16 8 1)) = some (0x00030126, 5) := by decide +kernel

/-- V-ERR-9, V-ERR-10, V-ERR-12, V-ERR-14: no wrap, sizes before ranges, B, a surface beyond DMEM. -/
theorem test_size_and_range_errors :
    statusAfter (exec (.fft .flat) (idleWith 8 0xFFFFFFFF 16 0 16 8 1)) = some (0x00030156, 1) ∧
    statusAfter (exec (.fft .flat) (idleWith 8 0xFFFFFFFF 14 0 16 8 1)) = some (0x00030126, 1) ∧
    statusAfter (exec .cmul (idleWith 0 0 4 2 4 0 0)) = some (0x00000026, 2) ∧
    statusAfter (exec .bispec (idleWith 2048 0 4096 0 8388608 0 0)) = some (0x000B0156, 3) := by decide +kernel

/-- V-ERR-19: a CMD write while BUSY is dropped and sets OVR. -/
theorem test_overrun :
    statusAfter (step { running (.fft .flat) (operands 16 16 8 1 8) [] with
      inputs := [.hostWrite 32 0x00C 0x00000000] }) = some (0x00030109, 0) := by decide +kernel

/-- V-REG-1, V-REG-2, V-REG-3. -/
theorem test_register_writes :
    ctrlWord (writeCtrl 0xFFFFFFFF State.reset) = 0x00000003 ∧
    statusWord (writeStatus 0x2 { State.reset with ncur := 8, done := true, ovr := true }) = 0x00030108 ∧
    statusWord (writeStatus 0xFFFFFFFF { State.reset with ncur := 8, done := true, ovr := true }) = 0x00030100 := by
  decide +kernel

/-- V-REG-10: with the smallest build, word 2^17 of the DMEM window is nothing; with the default build it is a word. -/
theorem test_dmem_window :
    target 0x01080000 { State.reset with dmemScale := 0 } = .nothing ∧
      target 0x01080000 State.reset = .dmem 0x20000 := by decide +kernel

/-- V-TW-2, V-TW-1 (entries 1 and 3 of size 8). -/
theorem test_constants :
    (List.range' 1 16).map (fun l => invSqrt (2 ^ l)) =
      [0x3F3504F3, 0x3F000000, 0x3EB504F3, 0x3E800000, 0x3E3504F3, 0x3E000000, 0x3DB504F3, 0x3D800000, 0x3D3504F3,
        0x3D000000, 0x3CB504F3, 0x3C800000, 0x3C3504F3, 0x3C000000, 0x3BB504F3, 0x3B800000] ∧
    tw 8 1 = ⟨0x3F3504F3, 0x3F3504F3⟩ ∧ tw 8 3 = ⟨0xBF3504F3, 0x3F3504F3⟩ := by decide +kernel

/-- A word placed by `withFetchWord` is the next step's command: CFG with SIZE = 8 after reset. -/
theorem test_withFetchWord :
    statusAfter (step (({ State.reset with size := 8 } : State).withFetchWord 32 0x00000001)) =
      some (0x00030102, 0) := by decide +kernel

/-! ## Witnesses: the hypotheses of the obligations can be met -/

/-- A state of the invariant: BUSY with FFT of size 2 over words 0 to 3, destination 16 to 19. -/
def busyFft : State :=
  { running (.fft .flat) (operands 4 4 2 1 2) [0x3F800000, 0, 0x40000000, 0, 0, 0, 0, 0, 0, 0, 0, 0, 0, 0, 0, 0, 1] with
    ie := true }

/-- A state of the invariant: IDLE, size 2 bound, the operand registers of an FFT of size 2. -/
def idleFft : State := { idleWith 2 0 4 0 4 2 1 with ie := true }

theorem witness_busyFft_inv : Inv busyFft :=
  ⟨by decide +kernel, by decide +kernel, by decide +kernel, by decide +kernel, by decide +kernel, by decide +kernel⟩

theorem witness_idleFft_inv : Inv idleFft :=
  ⟨by decide +kernel, by decide +kernel, by decide +kernel, by decide +kernel, by decide +kernel, by decide +kernel⟩

/-- IllegalWordsCompleteWithIllegalCommand: a reserved operation number, a reserved bit, STAGE 0. -/
theorem witness_IllegalWordsCompleteWithIllegalCommand :
    ¬ LegalWord 0x00000007 ∧ ¬ LegalWord 0x80000000 ∧ ¬ LegalWord 0x00000005 ∧ LegalWord 0x0001F205 ∧
      State.reset.inReset = false ∧ State.reset.seq = .idle := by
  unfold LegalWord; decide

/-- StepRunsTheDecodedCommand: each of its three clauses. -/
theorem witness_StepRunsTheDecodedCommand :
    (idleFft.inReset = false ∧ idleFft.seq = .idle ∧ decode 0x00000002 = .ok (.fft .flat)) ∧
      ∃ l, busyFft.seq = .busy l ∧ decode l.word = .ok (.fft .flat) ∧ busyFft.inputs = [] :=
  ⟨by decide, _, rfl, by decide, rfl⟩

/-- CommandWriteWhileBusyIsDropped. -/
theorem witness_CommandWriteWhileBusyIsDropped :
    ∃ s : State, ∃ l, s.inReset = false ∧ s.seq = .busy l ∧ s.inputs = .hostWrite 32 0x00C 0 :: [] :=
  ⟨{ busyFft with inputs := [.hostWrite 32 0x00C 0] }, _, rfl, rfl, rfl⟩

/-- AcceptanceFollowsItsRule: a rejected word, a failed check, NOP, CFG, and a command that starts SEQ. -/
theorem witness_AcceptanceFollowsItsRule :
    idleFft.inReset = false ∧ idleFft.seq = .idle ∧ decode 0x00000007 = .error .reservedOpcode ∧
    check .acf (latch 0x20 idleFft) idleFft.dmemWords = some ⟨.sizeMismatch, 1⟩ ∧
    check .nop (latch 0 idleFft) idleFft.dmemWords = none ∧
    check .cfg (latch 1 { idleFft with size := 4 }) idleFft.dmemWords = none ∧
    check (.fft .flat) (latch 2 idleFft) idleFft.dmemWords = none := by decide +kernel

/-- RunningCommandCompletesNext. -/
theorem witness_RunningCommandCompletesNext :
    Inv busyFft ∧ ∃ l, busyFft.seq = .busy l ∧ busyFft.inputs = [] := ⟨witness_busyFft_inv, _, rfl, rfl⟩

/-- InvalidSizeIsRaisedByCfgAlone: sizes 0, 1, 3 and 131072 are refused, 2 and 65536 are not. -/
theorem witness_InvalidSizeIsRaisedByCfgAlone :
    check .cfg { operands 0 0 0 0 0 with size := 3 } 131072 = some ⟨.invalidSize, 0⟩ ∧ State.reset.seq = .idle ∧
      ([0, 1, 3, 131072].map sizeSupported, [2, 65536].map sizeSupported) =
        ([false, false, false, false], [true, true]) := by decide +kernel

/-- NopCompletesAtOnce, CfgBindsTheSize: an idle state; the sizes at both ends, and one beyond. -/
theorem witness_CfgBindsTheSize :
    State.reset.seq = .idle ∧ (2 : Word).toNat = 2 ^ 1 ∧ (65536 : Word).toNat = 2 ^ 16 ∧
      (List.range' 1 16).all (fun k => (131072 : Word).toNat != 2 ^ k) = true := by decide

/-- ExpandFollowsItsRule to BrreadFollowsItsRule: BUSY with nothing clobbered, and lengths for which each element
clause speaks of its first and last element. -/
theorem witness_BusyCommands :
    let s := running .cmul (operands 4 4 2 1 2) []
    ∃ l, s.seq = .busy l ∧ s.clobbered = [] ∧ 0 < l.aLen.toNat ∧ 1 < l.aLen.toNat / 2 ∧ 1 < l.n.toNat ∧
      l.n.toNat = 2 ^ 1 := ⟨_, rfl, rfl, by decide, by decide, by decide, by decide⟩

/-- FamilyCommandsTransformEveryLine: every command of the family, in each layout, with an accepted latch, and the last
element of the last line. -/
theorem witness_FamilyCommandsTransformEveryLine :
    (let l := operands 8 8 2 2 2
     check (.fft .rows) l 131072 = none ∧ check (.ifft .cols) l 131072 = none ∧ check (.bitrev .rows) l 131072 = none ∧
      check (.stage .cols 1) l 131072 = none ∧ check (.norm .rows) l 131072 = none ∧ elementOf .rows 2 1 1 = 3 ∧
      elementOf .cols 2 1 1 = 3) ∧
    check (.stage .flat 2) (operands 8 8 4 1 4) 131072 = none ∧
    (running (.fft .rows) (operands 8 8 2 2 2) []).clobbered = [] := by decide +kernel

/-- LineTransformsAreTheirPasses: a line of size 2 and its sequence of passes. -/
theorem witness_LineTransformsAreTheirPasses :
    ∃ x : List Cplx, x.length = 2 ^ 1 ∧ ∃ y : Nat → List Cplx,
      y 0 = bitrevPass 2 x ∧ ∀ l, l < 1 → y (l + 1) = stagePass 2 (l + 1) (y l) :=
  ⟨[czero, czero], rfl, fun l => match l with
    | 0 => bitrevPass 2 [czero, czero]
    | _ + 1 => stagePass 2 1 (bitrevPass 2 [czero, czero]), rfl, fun l hl => by
      obtain rfl : l = 0 := by omega
      rfl⟩

/-- StagePairsAreButterflies: the first pair of the first stage and the last pair of the last one; BitrevTwice… and
BitReversal… at the ends of their ranges. -/
theorem witness_StagePairsAreButterflies :
    (1 ≤ 1 ∧ 1 ≤ 2 ∧ 0 < 2 ^ 2 ∧ 0 % 2 ^ 1 < 2 ^ (1 - 1)) ∧ (1 ≤ 2 ∧ 2 ≤ 2 ∧ 1 < 2 ^ 2 ∧ 1 % 2 ^ 2 < 2 ^ (2 - 1)) ∧
      [czero].length = 2 ^ 0 ∧ 7 < 2 ^ 3 := by decide

/-- ImpulseHasAFlatSpectrum and InverseRootsAreNearest (both ends), TwiddleRomIsCorrectlyRounded (the last entry),
IntegersConvertExactly (the bound), BispectrumIsSymmetric (the last pair of size 2). -/
theorem witness_ranges :
    (1 ≤ 1 ∧ 1 ≤ 16) ∧ (1 ≤ 16 ∧ 16 ≤ 16) ∧ 65535 < 65536 ∧ 2 ^ 24 ≤ 2 ^ 24 ∧ 1 < 2 := by decide

/-- PassSequenceEqualsFft: a destination of its own for each of the three commands, the last at the end of DMEM. -/
theorem witness_PassSequenceEqualsFft :
    (Inv idleFft ∧ idleFft.seq = .idle ∧
      check (.fft .flat) (latch (encode (.fft .flat)) idleFft) idleFft.dmemWords = none) ∧
    ([8, 2, 0x3FFFFC] : List Word).length = Nat.log2 idleFft.ncur.toNat + 2 ∧
    ([8, 2, 0x3FFFFC] : List Word).all (fun d => d.toNat + idleFft.dLen.toNat ≤ idleFft.dmemWords) = true :=
  ⟨⟨witness_idleFft_inv, rfl, by decide +kernel⟩, by decide +kernel, by decide +kernel⟩

/-- V-FFT-1's line (3, 1) by BITREV, STAGE 1 and NORM, each with a destination of its own: the transform (4, 2)/√2. -/
theorem test_performChain :
    ((performChain ((.bitrev .flat :: stagesAndNorm .flat 2).zip [8, 2, 20])
      { idleFft with dmem := Memory.writeWords [] 0 [0x40400000, 0, 0x3F800000, 0] }).map
        fun t => readWords t 20 4) = some [0x403504F3, 0, 0x3FB504F3, 0] := by decide +kernel

/-- `hi` is the sum and `lo` the difference, and the twiddle multiplies the second operand: 1 ± i·2 (40_datapath.md R125). -/
theorem test_butterfly :
    bfly ⟨0x3F800000, 0⟩ ⟨0x40000000, 0⟩ ⟨0, 0x3F800000⟩ =
      (⟨0x3F800000, 0x40000000⟩, ⟨0x3F800000, 0xC0000000⟩) := by decide +kernel

/-- Exact arithmetic. -/
noncomputable def exactArith : LineArith ℂ :=
  ⟨0, starRingEnd ℂ, fun u v w => (u + w * v, u - w * v), fun n j => Complex.exp (2 * Real.pi * Complex.I * j / n),
    fun n z => z / (Real.sqrt n : ℂ)⟩

/-- ExactTransformIsTheUnitaryDft, ExactAcfAndConvLaws: exact arithmetic exists, lines of size 2, and a latched size. -/
theorem witness_ExactArith :
    IsExactArith exactArith ∧ (∃ A, IsExactSpectrum A) ∧ ([1, 2] : List ℂ).length = 2 ^ 1 ∧
      ([1, 2] : List ℝ).length = 2 ^ 1 ∧ 1 < 2 ^ 1 ∧ (operands 4 2 0 0 2).n.toNat = 2 ^ 1 :=
  have h : IsExactArith exactArith := ⟨rfl, fun _ => rfl, fun _ _ _ => rfl, fun _ _ => rfl, fun _ _ => rfl⟩
  ⟨h, ⟨⟨exactArith, fun a b => a * b, fun z => (Complex.normSq z : ℂ)⟩, h, fun _ _ => rfl, fun _ => rfl⟩, rfl, rfl,
    by decide, by decide⟩

/-- AcfFollowsItsRule: the lag clause, at a lag that fails (the imaginary part of lag 0 is a NaN), the earlier ones none. -/
theorem witness_AcfFollowsItsRule :
    let s := running .acf (operands 2 2 0 0 2) [0x7FC00000, 0]
    ∃ l, s.seq = .busy l ∧ s.clobbered = [] ∧ l.numchk = true ∧
      ¬ (elem (acfTransform 2 (readWords s 0 2)) 0).im.toNat % 2 ^ 31 ≤ 0x358637BD :=
  ⟨_, rfl, rfl, rfl, by decide +kernel⟩

/-- AcfFollowsItsRule: ±EPS pass, the next pattern, the infinity and the NaN do not (00_scope.md R8). -/
theorem test_eps_comparison :
    (([0x358637BD, 0xB58637BD, 0x358637BE, 0xB58637BE, 0xFF800000, 0x7FC00000, 0x80000000] : List Word).map
      fun v => (le32 (v &&& 0x7FFFFFFF) 0x358637BD, decide (v.toNat % 2 ^ 31 ≤ 0x358637BD))) =
      [(true, true), (true, true), (false, false), (false, false), (false, false), (false, false), (true, true)] := by
  decide +kernel

/-- FootprintAccessesAreUnspecified: the clause on a failing lag, with a word of the destination clobbered. -/
theorem witness_FootprintAccessesAreUnspecified_lag :
    let s : State := { running .acf (operands 2 2 0 0 2) [0x7FC00000, 0] with clobbered := [16] }
    ∃ l, s.seq = .busy l ∧ decode l.word = .ok .acf ∧ usesD .acf = true ∧ s.clobbered ≠ [] ∧ l.numchk = true ∧
      ¬ (elem (acfTransform 2 (readWords (sourceView s) 0 2)) 0).im.toNat % 2 ^ 31 ≤ 0x358637BD :=
  ⟨_, rfl, by decide, by decide, by decide, by decide, by decide +kernel⟩

/-- FootprintAccessesAreUnspecified: a footprint word, its first and last, and a clobbered state. -/
theorem witness_FootprintAccessesAreUnspecified :
    (∃ l, busyFft.seq = .busy l ∧ decode l.word = .ok (.fft .flat) ∧ inFootprint (.fft .flat) l 0 = true ∧
      inFootprint (.fft .flat) l 19 = true ∧ inFootprint (.fft .flat) l 20 = false) ∧ busyFft.inReset = false ∧
      19 < busyFft.dmemWords ∧ ({ busyFft with clobbered := [16] } : State).clobbered ≠ [] :=
  ⟨⟨_, rfl, by decide +kernel⟩, by decide +kernel⟩

/-- ResultsDependOnSourcesAlone: two states that differ in a register and in a word outside the sources. -/
theorem witness_ResultsDependOnSourcesAlone :
    ∃ u : State, ∃ l, busyFft.seq = .busy l ∧ u.seq = .busy l ∧ u ≠ busyFft ∧ readWord u 16 ≠ readWord busyFft 16 ∧
      check (.fft .flat) l busyFft.dmemWords = none ∧
      (List.range 4).all (fun w => readWord busyFft w == readWord u w) = true :=
  ⟨{ busyFft with ie := false, dmem := busyFft.dmem.writeWords 16 [7] }, _, rfl, rfl, by decide +kernel⟩

/-- DmemChangesOnlyInsideTheFootprint: SEQ's step changes a byte; so does a HOST write. -/
theorem witness_DmemChangesOnlyInsideTheFootprint :
    (∃ t, step busyFft = .next t ∧ readByte t 64 ≠ readByte busyFft 64) ∧
      ∃ t, step { idleFft with dmem := [(0, 1)], inputs := [.hostWrite 32 0x01000000 2] } = .next t ∧
        readByte t 0 ≠ readByte { idleFft with dmem := [(0, 1)] } 0 :=
  ⟨⟨_, rfl, by decide +kernel⟩, _, rfl, by decide +kernel⟩

/-- The finite patterns of the arithmetic statements: the least subnormal, 1.0, the greatest finite, and −1.0. -/
theorem witness_Finite32 :
    Finite32 0x00000001 ∧ Finite32 0x3F800000 ∧ Finite32 0x7F7FFFFF ∧ Finite32 0xBF800000 ∧
      val32 0x3F800000 ≠ 0 ∧ val32 0x3F800000 = 1 ∧ 0 ≤ val32 0x3F800000 ∧ val32 0xBF800000 < 0 := by
  refine ⟨by unfold Finite32; decide, by unfold Finite32; decide, by unfold Finite32; decide,
    by unfold Finite32; decide, ?_⟩
  have h : val32 0x3F800000 = 1 := by
    have e : signBit 0x3F800000 = false ∧ magnitude (absBits 0x3F800000) = 2 ^ 149 := by decide +kernel
    rw [val32, e.1, e.2]; norm_num
  have g : val32 0xBF800000 = -1 := by
    have e : signBit 0xBF800000 = true ∧ magnitude (absBits 0xBF800000) = 2 ^ 149 := by decide +kernel
    rw [val32, e.1, e.2]; norm_num
  rw [h, g]
  exact ⟨by norm_num, rfl, by norm_num, by norm_num⟩

/-- V-CMUL-2, V-CMUL-3 and V-FFT-10: the infinities they meet. -/
theorem test_infinities :
    cmul ⟨0x7F800000, 0⟩ ⟨0x3F800000, 0⟩ = ⟨0x7F800000, 0x7FC00000⟩ ∧
    cmul ⟨0x7149F2CA, 0x7149F2CA⟩ ⟨0x7149F2CA, 0x7149F2CA⟩ = ⟨0x7FC00000, 0x7F800000⟩ ∧
    bfly ⟨0, 0⟩ ⟨0x7F800000, 0⟩ ⟨0x3F800000, 0⟩ = (⟨0x7F800000, 0x7FC00000⟩, ⟨0xFF800000, 0x7FC00000⟩) := by
  decide +kernel

/-- SumsAreCorrectlyRounded, ProductsAndQuotientsAreCorrectlyRounded: sums and differences that are exactly zero, of zeros
of both signs and of others, and the operands of the clauses on infinities (with witness_Finite32). -/
theorem witness_ZeroSums :
    val32 0x80000000 + val32 0x80000000 = 0 ∧ val32 0x80000000 - val32 0 = 0 ∧ Finite32 0x80000000 ∧
      isNaN32 0x7F800000 = false ∧ absBits 0x7F800000 ≠ 0 ∧ isNaN32 0x80000001 = false ∧ absBits 0x80000001 ≠ 0 := by
  have z : magnitude (absBits 0x80000000) = 0 ∧ magnitude (absBits 0) = 0 := by decide +kernel
  have v : val32 0x80000000 = 0 ∧ val32 0 = 0 := ⟨by rw [val32, z.1]; norm_num, by rw [val32, z.2]; norm_num⟩
  rw [v.1, v.2]
  exact ⟨by norm_num, by norm_num, by unfold Finite32; decide, by decide, by decide, by decide, by decide⟩

/-- NanResultsAreCanonical, SpecialCasesFollowTheirRule: a signalling and a quiet NaN; results that are no NaN. -/
theorem witness_Nan :
    isNaN32 0x7FA00001 = true ∧ isNaN32 0xFFC00001 = true ∧ isNaN32 (add32 0x7FA00001 0) = true ∧
      isNaN32 (mul32 0x80000000 0x3F800000) = false ∧ isNaN32 (div32 0xBF800000 0) = false := by decide +kernel

/-- ExponentialUnitIsEnclosed, ArcCosineUnitIsEnclosed: 1.0, and 0.5, which lies strictly between 0 and 1. -/
theorem witness_Units :
    (absBits 0x3F000000 < 0x3F800000 ∧ absBits 0x3F000000 ≠ 0) ∧ absBits 0x3F800001 > 0x3F800000 ∧
      isNaN32 0x7FC00000 = true := by decide

/-- RegistersReadBack, StatusShowsTheState: the read of CMD, of STATUS and of the last offset, the write of the last RW
register, a write and a read of SIZE, a read and a write of STATUS. -/
theorem witness_RegistersReadBack :
    ((∀ off ∈ [0x00C, 0x008, 0xFFC], off < 4096 ∧ off % 4 = 0 ∧ ∃ s : State,
        s.inReset = false ∧ s.inputs = .hostRead 32 ((off : Nat) : Int) :: []) ∧
      ∃ s : State, s.inReset = false ∧ s.inputs = .hostWrite 32 ((0x044 : Nat) : Int) 5 :: []) ∧
    (∃ s : State, s.inReset = false ∧ s.inputs = .hostWrite 32 ((0x010 : Nat) : Int) 5 :: .hostRead 32 (0x010 : Nat) :: []) ∧
      (∃ s : State, s.inReset = false ∧ s.inputs = .hostRead 32 0x008 :: [] ∧ s.ncur.toNat = 2 ^ 16) ∧
      ∃ s : State, s.inReset = false ∧ s.inputs = .hostWrite 32 0x008 2 :: [] :=
  ⟨⟨fun off h => ⟨by revert off; decide, by revert off; decide,
      { State.reset with inputs := [.hostRead 32 (off : Nat)] }, rfl, rfl⟩,
    { State.reset with inputs := [.hostWrite 32 (0x044 : Nat) 5] }, rfl, rfl⟩,
    ⟨{ State.reset with inputs := [.hostWrite 32 (0x010 : Nat) 5, .hostRead 32 (0x010 : Nat)] }, rfl, rfl⟩,
    ⟨{ State.reset with inputs := [.hostRead 32 0x008], ncur := 65536 }, rfl, rfl, by decide⟩,
    { State.reset with inputs := [.hostWrite 32 0x008 2] }, rfl, rfl⟩

/-- NcurChangesOnlyByCfgOrReset, StepKeepsTheInvariant, SupportedStepsNeverStop: a CFG that changes the binding. -/
theorem witness_NcurChangesOnlyByCfgOrReset :
    Inv idleFft ∧ ∃ t, step { idleFft with size := 8, inputs := [.hostWrite 32 0x00C 0x00000001] } = .next t ∧
      t.ncur = 8 ∧ supportedInput (.hostWrite 32 0x00C 0x00000001) idleFft = true :=
  ⟨witness_idleFft_inv, _, rfl, by decide +kernel⟩

/-- OperandRegistersAreWrittenOnlyByHost: SEQ's step, and a CMD write. -/
theorem witness_OperandRegistersAreWrittenOnlyByHost :
    (∃ t, step busyFft = .next t ∧ busyFft.inputs = []) ∧
      ∃ t, step { idleFft with inputs := [.hostWrite 32 0x00C 2] } = .next t ∧ t.isBusy = true :=
  ⟨⟨_, rfl, rfl⟩, _, rfl, by decide +kernel⟩

/-- OverrunIsSticky: OVR is set by a dropped write, and cleared by HOST. -/
theorem witness_OverrunIsSticky :
    (∃ t, step { busyFft with inputs := [.hostWrite 32 0x00C 0] } = .next t ∧ busyFft.ovr = false ∧ t.ovr = true) ∧
      ∃ t, step { idleFft with ovr := true, inputs := [.hostWrite 32 0x008 8] } = .next t ∧ t.ovr = false :=
  ⟨⟨_, rfl, rfl, by decide +kernel⟩, _, rfl, by decide +kernel⟩

/-- InterruptRisesOnlyOnCompletionOrEnable: a completion by SEQ, an acceptance of NOP, and setting IE. -/
theorem witness_InterruptRisesOnlyOnCompletionOrEnable :
    (∃ t, step busyFft = .next t ∧ busyFft.irq = false ∧ t.irq = true) ∧
      (∃ t, step { idleFft with inputs := [.hostWrite 32 0x00C 0] } = .next t ∧ idleFft.irq = false ∧ t.irq = true) ∧
      ∃ t, step { State.reset with done := true, inputs := [.hostWrite 32 0x004 1] } = .next t ∧ t.irq = true :=
  ⟨⟨_, rfl, by decide +kernel, by decide +kernel⟩, ⟨_, rfl, by decide +kernel, by decide +kernel⟩, _, rfl,
    by decide +kernel⟩

/-- InterruptRisesOnlyOnCompletionOrEnable: each of the four things that lower `irq`, and one input that does not. -/
theorem witness_InterruptFalls :
    let s : State := { idleFft with done := true }
    s.irq = true ∧
      ([.hostWrite 32 0x008 2, .hostWrite 32 0x004 2, .hostWrite 32 0x00C 2, .assertReset false,
          .hostWrite 32 0x00C 7] : List Input).map
        (fun inp => match step { s with inputs := [inp] } with
          | .next t => some t.irq
          | .fault _ => none
          | .refused _ => none) = [some false, some false, some false, some false, some true] := by decide +kernel

/-- HostReachesDmemThroughTheWindow: the last word of the smallest build, the first beyond it, a reserved offset. -/
theorem witness_HostReachesDmemThroughTheWindow :
    let s : State := { State.reset with dmemScale := 0 }
    s.inReset = false ∧ 131071 < s.dmemWords ∧ ¬ 131072 < s.dmemWords ∧ s.footprint 131071 = false ∧
      0x01000000 + 4 * s.dmemWords ≤ 0x01080000 ∧ 0x01080000 < 0x02000000 := by decide +kernel

/-- UnsupportedAccessesAreRefused: one access of each kind. -/
theorem witness_UnsupportedAccessesAreRefused :
    accessRefusal 16 0 State.reset = some .unsupportedWidth ∧ accessRefusal 32 2 State.reset = some .misalignedOffset ∧
      accessRefusal 32 0x02000000 State.reset = some .outsideWindow ∧
      accessRefusal 32 (-4) State.reset = some .outsideWindow ∧
      accessRefusal 32 0 { State.reset with inReset := true } = some .accessDuringReset ∧
      accessRefusal 32 0x01FFFFFC State.reset = none := by decide +kernel

/-- The last accepted word is what CMD reads: FFT in layout ROWS, while it runs (10_state.md R27). -/
theorem test_command_read_back :
    (match step { running (.fft .rows) (operands 4 4 2 1 2) [] with inputs := [.hostRead 32 0x00C] } with
      | .next t => t.rdata
      | .fault _ => 0
      | .refused _ => 0) = 0x00000102 := by decide +kernel

/-- ResetFollowsItsRules: an assertion while IDLE, at power-on, and while BUSY with a word HOST clobbered; a release. -/
theorem witness_ResetFollowsItsRules :
    (∃ s u : State, s.inputs = .assertReset false :: [] ∧ s.seq = .idle ∧ u.inputs = .assertReset true :: []) ∧
    (∃ s : State, ∃ l, s.inputs = .assertReset false :: [] ∧ s.seq = .busy l ∧ 1 ∈ s.clobbered ∧
      ¬ (l.dAddr.toNat ≤ 1 ∧ 1 < l.dAddr.toNat + l.dLen.toNat)) ∧
    ∃ s : State, s.inputs = .releaseReset :: [] ∧ s.inReset = true :=
  ⟨⟨{ idleFft with inputs := [.assertReset false] }, { idleFft with inputs := [.assertReset true] }, rfl, rfl, rfl⟩,
    ⟨{ busyFft with inputs := [.assertReset false], clobbered := [1] }, _, rfl, rfl, by decide, by decide⟩,
    { State.reset with inputs := [.releaseReset], inReset := true }, rfl, rfl⟩

end Sys2Proof.Tests
end

section
/-! PROOFS. The state family (10_state.md R44, R47): a decoded word is the encoding of its command, what a CMD write does
while IDLE and while BUSY, and the obligations that follow. -/

namespace Sys2Proof

/-! ## A decoded word is the encoding of its command (30_encoding.md R90, R95, R96) -/

/-- The five fields of a command word, put together again, are the word (R90). -/
theorem append_fields (w : Word) :
    reservedHigh w ++ stgField w ++ reservedLow w ++ layField w ++ opcField w = w := by
  simp only [reservedHigh, stgField, reservedLow, layField, opcField]
  rw [BitVec.extractLsb'_append_extractLsb'_eq_extractLsb' (by decide : 17 = 12 + 5),
    BitVec.extractLsb'_append_extractLsb'_eq_extractLsb' (by decide : 12 = 10 + 2),
    BitVec.extractLsb'_append_extractLsb'_eq_extractLsb' (by decide : 10 = 8 + 2),
    BitVec.extractLsb'_append_extractLsb'_eq_extractLsb' (by decide : 8 = 0 + 8)]
  exact BitVec.extractLsb'_eq_self

/-- With its reserved bits 0 a word is packed from its own fields. -/
theorem packCommand_fields {w : Word} (hlow : reservedLow w = 0) (hhigh : reservedHigh w = 0) :
    packCommand (opcField w) (layField w) (stgField w) = w := by
  have h := append_fields w
  rwa [hlow, hhigh] at h

theorem encodeLayout_of_decodeLayout {f : BitVec 2} {lay : Layout} (h : decodeLayout f = some lay) :
    encodeLayout lay = f := by
  revert f lay
  decide

/-- A row's commands are encoded with the operation number `opc` and the fields the row takes. -/
def OpcodeRow.EncodesAs (opc : BitVec 8) : OpcodeRow → Prop
  | .plain i => encode i = packCommand opc 0 0
  | .layout mk => ∀ lay, encode (mk lay) = packCommand opc (encodeLayout lay) 0
  | .layoutStage => ∀ lay stg, encode (.stage lay stg) = packCommand opc (encodeLayout lay) stg

/-- The encoder agrees with the opcode map row by row (R95). -/
theorem opcodeMap_encodesAs : ∀ row ∈ opcodeMap, row.2.EncodesAs row.1 := by
  simp [opcodeMap, OpcodeRow.EncodesAs, encode]

theorem lookupOpcode_encodesAs {opc : BitVec 8} {row : OpcodeRow} (h : lookupOpcode opc = some row) :
    row.EncodesAs opc := by
  obtain ⟨⟨o, r⟩, hfind, rfl⟩ := Option.map_eq_some_iff.1 h
  obtain rfl : o = opc := by simpa using List.find?_some hfind
  exact opcodeMap_encodesAs _ (List.mem_of_find?_eq_some hfind)

theorem reserved_eq_zero_of_decode {w : Word} {i : Instr} (h : decode w = .ok i) :
    reservedLow w = 0 ∧ reservedHigh w = 0 := by
  by_contra hres
  have herr : decode w = .error .reservedBits := if_pos (by tauto)
  simp [herr] at h

/-- A decoded command is encoded with the fields of the word. -/
theorem encode_eq_packCommand_of_decode {w : Word} {i : Instr} (h : decode w = .ok i) :
    encode i = packCommand (opcField w) (layField w) (stgField w) := by
  unfold decode at h
  split at h
  case isTrue => simp at h
  case isFalse =>
  cases hrow : lookupOpcode (opcField w) with
  | none => simp [hrow] at h
  | some row =>
    have henc := lookupOpcode_encodesAs hrow
    cases row with
    | plain j =>
      simp only [hrow] at h
      split_ifs at h with hlay hstg
      obtain rfl := Except.ok.inj h
      rw [not_not.1 hlay, not_not.1 hstg]
      exact henc
    | layout mk =>
      cases hlay : decodeLayout (layField w) with
      | none => simp [hrow, hlay] at h
      | some lay =>
        simp only [hrow, hlay] at h
        split_ifs at h with hstg
        obtain rfl := Except.ok.inj h
        rw [← encodeLayout_of_decodeLayout hlay, not_not.1 hstg]
        exact henc lay
    | layoutStage =>
      cases hlay : decodeLayout (layField w) with
      | none => simp [hrow, hlay] at h
      | some lay =>
        simp only [hrow, hlay] at h
        split_ifs at h with hstg
        obtain rfl := Except.ok.inj h
        rw [← encodeLayout_of_decodeLayout hlay]
        exact henc lay _

/-- No bit of a decoded word is dropped (R90, R96). -/
theorem encode_of_decode {w : Word} {i : Instr} (h : decode w = .ok i) : encode i = w := by
  obtain ⟨hlow, hhigh⟩ := reserved_eq_zero_of_decode h
  rw [encode_eq_packCommand_of_decode h, packCommand_fields hlow hhigh]

end Sys2Proof

namespace Sys2Proof.Machine

/-! ## A CMD write in each phase -/

theorem present_busy {s : State} {l : Latch} (v : Word) (hs : s.seq = .busy l) :
    present v s = .next (dropCommand s) := by
  simp only [present, hs]

theorem present_undecodable {s : State} {v : Word} {e : DecodeError} (hs : s.seq = .idle)
    (hd : decode v = .error e) : present v s = .next (rejectWord v s) := by
  simp only [present, hs, hd]

/-- A command that fails its check completes with the error (R44, R45). -/
theorem present_failing {s : State} {v : Word} {i : Instr} {e : CmdError} (hs : s.seq = .idle)
    (hd : decode v = .ok i) (hc : check i (latch v s) s.dmemWords = some e) :
    present v s = .next (markDone (recordError e (clearForCommand v s))) := by
  have hv := encode_of_decode hd
  simp only [present, hs, hd, exec_idle i hs, accept, hv, hc]

/-- A command that passes its check goes on with the record latched from the word and the registers (R40, R44). -/
theorem present_passing {s : State} {v : Word} {i : Instr} (hs : s.seq = .idle) (hd : decode v = .ok i)
    (hc : check i (latch v s) s.dmemWords = none) :
    present v s = .next (afterAccept i (latch v s) (clearForCommand v s)) := by
  have hv := encode_of_decode hd
  simp only [present, hs, hd, exec_idle i hs, accept, hv, hc]

/-- Every command but NOP and CFG starts SEQ. -/
theorem afterAccept_eq_startBusy {i : Instr} (hnop : i ≠ .nop) (hcfg : i ≠ .cfg) (l : Latch) (s : State) :
    afterAccept i l s = startBusy l s := by
  cases i with
  | nop => exact absurd rfl hnop
  | cfg => exact absurd rfl hcfg
  | _ => rfl

/-! ## The obligations -/

/-- Settles O5: the step presents the word, and while BUSY that drops it. -/
theorem commandWriteWhileBusyIsDropped : Obligations.CommandWriteWhileBusyIsDropped := by
  intro s l v rest hreset hbusy hinputs
  exact (step_commandWrite hinputs hreset).trans (present_busy v hbusy)

/-- Settles O6: the step presents the word, which is rejected, fails its check, or goes on as NOP, CFG or a command SEQ
runs. -/
theorem acceptanceFollowsItsRule : Obligations.AcceptanceFollowsItsRule := by
  intro s v rest hreset hidle hinputs
  rw [step_commandWrite hinputs hreset]
  cases hd : decode v with
  | error e => exact present_undecodable hidle hd
  | ok i =>
    cases hc : check i (latch v s) s.dmemWords with
    | some e =>
      simp only [hc]
      exact present_failing hidle hd hc
    | none =>
      simp only [hc]
      have hpass := present_passing (s := { s with inputs := rest }) hidle hd hc
      split_ifs with hnop hcfg
      · subst hnop
        exact hpass
      · subst hcfg
        exact hpass
      · rw [afterAccept_eq_startBusy hnop hcfg] at hpass
        exact hpass

end Sys2Proof.Machine
end

section
/-! PROOFS. The encoding family (30_encoding.md R91 to R96, 60_exceptions.md R247): which words decode, and what happens
to the others. -/

namespace Sys2Proof

/-! ## The words that decode (R96) -/

/-- The values of LAY and STG that a row of the opcode map takes (R92, R93). -/
def OpcodeRow.Takes (lay : BitVec 2) (stg : BitVec 5) : OpcodeRow → Prop
  | .plain _ => lay = 0 ∧ stg = 0
  | .layout _ => (∃ l, decodeLayout lay = some l) ∧ stg = 0
  | .layoutStage => (∃ l, decodeLayout lay = some l) ∧ stg ≠ 0

theorem mem_opcodeMap_of_lookupOpcode {opc : BitVec 8} {row : OpcodeRow} (h : lookupOpcode opc = some row) :
    (opc, row) ∈ opcodeMap := by
  obtain ⟨⟨o, r⟩, hfind, rfl⟩ := Option.map_eq_some_iff.1 h
  obtain rfl : o = opc := by simpa using List.find?_some hfind
  exact List.mem_of_find?_eq_some hfind

/-- Of the four values of LAY only 3 is reserved (R92). -/
theorem exists_decodeLayout_eq_some_iff (lay : BitVec 2) : (∃ l, decodeLayout lay = some l) ↔ lay ≠ 3 := by
  rw [← Option.isSome_iff_exists]
  revert lay
  decide

/-- A test of the decoder is passed exactly when its error does not apply and the rest of the decoder answers a
command. -/
theorem exists_ite_error_eq_ok_iff {c : Prop} [Decidable c] {e : DecodeError} {rest : Except DecodeError Instr} :
    (∃ i, (if c then .error e else rest) = .ok i) ↔ ¬ c ∧ ∃ i, rest = .ok i := by
  by_cases hc : c <;> simp [hc]

/-- A word decodes exactly when its reserved bits are 0 and the row of its operation number takes its LAY and STG. -/
theorem decode_ok_iff (w : Word) :
    (∃ i, decode w = .ok i) ↔
      reservedLow w = 0 ∧ reservedHigh w = 0 ∧
        ∃ row, lookupOpcode (opcField w) = some row ∧ row.Takes (layField w) (stgField w) := by
  rw [decode, exists_ite_error_eq_ok_iff, not_or, not_not, not_not, and_assoc]
  refine and_congr_right' (and_congr_right' ?_)
  cases hrow : lookupOpcode (opcField w) with
  | none => simp
  | some row =>
    cases row with
    | plain i =>
      simp only [exists_ite_error_eq_ok_iff]
      simp [OpcodeRow.Takes]
    | layout mk =>
      cases hlay : decodeLayout (layField w) with
      | none => simp [OpcodeRow.Takes, hlay]
      | some lay =>
        simp only [exists_ite_error_eq_ok_iff]
        simp [OpcodeRow.Takes, hlay]
    | layoutStage =>
      cases hlay : decodeLayout (layField w) with
      | none => simp [OpcodeRow.Takes, hlay]
      | some lay => simp [exists_ite_error_eq_ok_iff, OpcodeRow.Takes, hlay]

end Sys2Proof

namespace Sys2Proof.Machine

/-! ## The clauses of R96 row by row -/

/-- The last two clauses of R96: the LAY and STG values allowed beside an operation number. -/
def FieldsAllowed (opc : BitVec 8) (lay : BitVec 2) (stg : BitVec 5) : Prop :=
  (if 2 ≤ opc.toNat ∧ opc.toNat ≤ 6 then lay ≠ 3 else lay = 0) ∧ (if opc = 5 then stg ≠ 0 else stg = 0)

theorem legalWord_iff (w : Word) :
    LegalWord w ↔
      reservedLow w = 0 ∧ reservedHigh w = 0 ∧ opcField w ∈ definedOpcodes ∧
        FieldsAllowed (opcField w) (layField w) (stgField w) := Iff.rfl

/-- A row of the opcode map takes the LAY and STG values R96 allows beside its operation number. -/
theorem opcodeMap_takes_iff (lay : BitVec 2) (stg : BitVec 5) :
    ∀ row ∈ opcodeMap, row.2.Takes lay stg ↔ FieldsAllowed row.1 lay stg := by
  simp [opcodeMap, OpcodeRow.Takes, FieldsAllowed, exists_decodeLayout_eq_some_iff]

/-- The defined operation numbers are those of the opcode map (R91, R95). -/
theorem mem_definedOpcodes_iff (opc : BitVec 8) :
    opc ∈ definedOpcodes ↔ ∃ row, lookupOpcode opc = some row := by
  have hmap : definedOpcodes = opcodeMap.map (·.1) := rfl
  rw [← Option.isSome_iff_exists, lookupOpcode, Option.isSome_map, List.find?_isSome, hmap]
  simp

theorem takes_iff_of_lookupOpcode {opc : BitVec 8} {row : OpcodeRow} (h : lookupOpcode opc = some row)
    (lay : BitVec 2) (stg : BitVec 5) : row.Takes lay stg ↔ FieldsAllowed opc lay stg :=
  opcodeMap_takes_iff lay stg _ (mem_opcodeMap_of_lookupOpcode h)

/-- A word decodes exactly when it meets the clauses of R96. -/
theorem decode_ok_iff_legalWord (w : Word) : (∃ i, decode w = .ok i) ↔ LegalWord w := by
  rw [decode_ok_iff, legalWord_iff, mem_definedOpcodes_iff]
  constructor
  · rintro ⟨hlow, hhigh, row, hrow, htakes⟩
    exact ⟨hlow, hhigh, ⟨row, hrow⟩, (takes_iff_of_lookupOpcode hrow _ _).1 htakes⟩
  · rintro ⟨hlow, hhigh, ⟨row, hrow⟩, hfields⟩
    exact ⟨hlow, hhigh, row, hrow, (takes_iff_of_lookupOpcode hrow _ _).2 hfields⟩

theorem decode_error_of_not_legalWord {w : Word} (h : ¬ LegalWord w) : ∃ e, decode w = .error e := by
  cases hd : decode w with
  | error e => exact ⟨e, rfl⟩
  | ok i => exact absurd ((decode_ok_iff_legalWord w).1 ⟨i, hd⟩) h

/-! ## The obligation -/

/-- Settles O3: the decoder accepts the legal words, and the step that presents any other rejects it. -/
theorem illegalWordsCompleteWithIllegalCommand : Obligations.IllegalWordsCompleteWithIllegalCommand := by
  intro v
  refine ⟨decode_ok_iff_legalWord v, ?_⟩
  intro s rest hreset hidle hinputs hillegal
  obtain ⟨e, he⟩ := decode_error_of_not_legalWord hillegal
  rw [step_commandWrite hinputs hreset]
  exact present_undecodable hidle he

end Sys2Proof.Machine
end

section
/-! PROOFS. The patterns of binary32 (00_scope.md R8): the sign and the magnitude of a pattern, what each class of
patterns unpacks to, and the special cases of the operations (40_datapath.md R121, R123). -/

namespace Sys2Proof.Machine

/-! ## Sign and magnitude bits -/

theorem absBits_lt (x : Word) : absBits x < 2 ^ 31 := Nat.mod_lt _ (by norm_num)

theorem infBits_lt : infBits < 2 ^ 31 := by decide

theorem toNat_withSign (neg : Bool) {b : Nat} (hb : b < 2 ^ 31) :
    (withSign neg b).toNat = if neg then 2 ^ 31 + b else b := by
  cases neg <;> simp [withSign] <;> omega

@[simp] theorem signBit_withSign (neg : Bool) {b : Nat} (hb : b < 2 ^ 31) : signBit (withSign neg b) = neg := by
  rw [signBit, toNat_withSign neg hb]
  cases neg
  · simpa using hb
  · simp

@[simp] theorem absBits_withSign (neg : Bool) {b : Nat} (hb : b < 2 ^ 31) : absBits (withSign neg b) = b := by
  rw [absBits, toNat_withSign neg hb]
  cases neg <;> simpa using hb

theorem withSign_signBit_absBits (x : Word) : withSign (signBit x) (absBits x) = x := by
  apply BitVec.eq_of_toNat_eq
  have hx := x.isLt
  rw [toNat_withSign _ (absBits_lt x)]
  simp only [signBit, absBits, decide_eq_true_eq]
  split_ifs <;> omega

theorem signBit_eq_getLsbD (x : Word) : signBit x = x.getLsbD 31 := (BitVec.msb_eq_decide x).symm

/-! ## Negation (R121) -/

theorem getLsbD_neg32 (a : Word) (i : Nat) :
    (neg32 a).getLsbD i = if i = 31 then !a.getLsbD i else a.getLsbD i := by
  have hmask : (0x80000000 : Word) = BitVec.twoPow 32 31 := by decide
  rw [neg32, BitVec.getLsbD_xor, hmask, BitVec.getLsbD_twoPow]
  by_cases h : i = 31
  · simp [h]
  · simp [h, Ne.symm h]

theorem neg32_neg32 (a : Word) : neg32 (neg32 a) = a := by
  simp [neg32]

@[simp] theorem signBit_neg32 (a : Word) : signBit (neg32 a) = !signBit a := by
  rw [signBit_eq_getLsbD, signBit_eq_getLsbD, getLsbD_neg32, if_pos rfl]

@[simp] theorem absBits_neg32 (a : Word) : absBits (neg32 a) = absBits a := by
  apply Nat.eq_of_testBit_eq
  intro i
  have hbit : (neg32 a).toNat.testBit i = if i = 31 then !a.toNat.testBit i else a.toNat.testBit i :=
    getLsbD_neg32 a i
  simp only [absBits, Nat.testBit_mod_two_pow, hbit]
  by_cases h : i = 31 <;> simp [h]

/-- Settles O38: the two facts about `neg32` above. -/
theorem negationInvertsOnlyTheSign : Obligations.NegationInvertsOnlyTheSign :=
  fun a => ⟨fun i _ => getLsbD_neg32 a i, neg32_neg32 a⟩

/-! ## The classes of patterns -/

theorem isNaN32_iff (x : Word) : isNaN32 x = true ↔ infBits < absBits x := decide_eq_true_iff

theorem unpack_of_isNaN32 {x : Word} (h : isNaN32 x = true) : unpack x = .nan :=
  if_pos ((isNaN32_iff x).1 h)

theorem unpack_of_finite32 {x : Word} (h : Finite32 x) : unpack x = .fin (signBit x) (magnitude (absBits x)) := by
  unfold Finite32 at h
  rw [unpack, if_neg (by omega), if_neg (by omega)]

theorem unpack_neg32_of_finite32 {x : Word} (h : Finite32 x) :
    unpack (neg32 x) = .fin (!signBit x) (magnitude (absBits x)) := by
  have hneg : Finite32 (neg32 x) := by simpa [Finite32] using h
  simp [unpack_of_finite32 hneg]

@[simp] theorem unpack_zero32 (neg : Bool) : unpack (zero32 neg) = .fin neg 0 := by
  cases neg <;> decide

theorem ne_canonicalNaN {r : Word} (h : isNaN32 r = false) : r ≠ canonicalNaN := by
  rintro rfl
  exact absurd h (by decide)

/-- What a pattern unpacks to has the sign of the pattern. -/
theorem unpack_sign (x : Word) :
    unpack x = .nan ∨ unpack x = .inf (signBit x) ∨ ∃ k, unpack x = .fin (signBit x) k := by
  unfold unpack
  split_ifs
  · exact .inl rfl
  · exact .inr (.inl rfl)
  · exact .inr (.inr ⟨_, rfl⟩)

theorem magnitude_ne_zero_of_val32 {x : Word} (h : val32 x ≠ 0) : magnitude (absBits x) ≠ 0 := by
  intro hzero
  exact h (by simp [val32, hzero])

theorem signBit_of_val32_neg {x : Word} (h : val32 x < 0) : signBit x = true := by
  by_contra hpos
  have hnonneg : 0 ≤ val32 x := by
    rw [val32, if_neg hpos]
    positivity
  exact absurd h (not_lt.2 hnonneg)

/-! ## The special cases (R123) -/

@[simp] theorem signBit_infinity (neg : Bool) : signBit (infinity neg) = neg := signBit_withSign neg infBits_lt

@[simp] theorem signBit_zero32 (neg : Bool) : signBit (zero32 neg) = neg := signBit_withSign neg (by norm_num)

@[simp] theorem signBit_roundNearest (neg : Bool) (p q : Nat) : signBit (roundNearest neg p q) = neg :=
  signBit_withSign neg (lt_of_le_of_lt (min_le_right _ _) infBits_lt)

/-- A product is the canonical NaN or has the exclusive-or of the signs. -/
theorem mul32_nan_or_sign (x y : Word) :
    mul32 x y = canonicalNaN ∨ signBit (mul32 x y) = (signBit x ^^ signBit y) := by
  rcases unpack_sign x with hx | hx | ⟨k, hx⟩
  · exact .inl (by simp only [mul32, hx])
  · rcases unpack_sign y with hy | hy | ⟨l, hy⟩
    · exact .inl (by simp only [mul32, hx, hy])
    · exact .inr (by simp only [mul32, hx, hy, signBit_infinity])
    · by_cases hl : l = 0
      · exact .inl (by simp only [mul32, hx, hy, if_pos hl])
      · exact .inr (by simp only [mul32, hx, hy, if_neg hl, signBit_infinity])
  · rcases unpack_sign y with hy | hy | ⟨l, hy⟩
    · exact .inl (by simp only [mul32, hx, hy])
    · by_cases hk : k = 0
      · exact .inl (by simp only [mul32, hx, hy, if_pos hk])
      · exact .inr (by simp only [mul32, hx, hy, if_neg hk, signBit_infinity])
    · exact .inr (by simp only [mul32, hx, hy, signBit_roundNearest])

/-- A quotient is the canonical NaN or has the exclusive-or of the signs. -/
theorem div32_nan_or_sign (x y : Word) :
    div32 x y = canonicalNaN ∨ signBit (div32 x y) = (signBit x ^^ signBit y) := by
  rcases unpack_sign x with hx | hx | ⟨k, hx⟩
  · exact .inl (by simp only [div32, hx])
  · rcases unpack_sign y with hy | hy | ⟨l, hy⟩
    · exact .inl (by simp only [div32, hx, hy])
    · exact .inl (by simp only [div32, hx, hy])
    · exact .inr (by simp only [div32, hx, hy, signBit_infinity])
  · rcases unpack_sign y with hy | hy | ⟨l, hy⟩
    · exact .inl (by simp only [div32, hx, hy])
    · exact .inr (by simp only [div32, hx, hy, signBit_zero32])
    · by_cases hl : l = 0
      · by_cases hk : k = 0
        · exact .inl (by simp only [div32, hx, hy, if_pos hl, if_pos hk])
        · exact .inr (by simp only [div32, hx, hy, if_pos hl, if_neg hk, signBit_infinity])
      · exact .inr (by simp only [div32, hx, hy, if_neg hl, signBit_roundNearest])

/-- `x - x` is +0.0 for a finite `x`. -/
theorem sub32_self {x : Word} (h : Finite32 x) : sub32 x x = zero32 false := by
  have hcancel (neg : Bool) (k : Nat) : signed neg k + signed (!neg) k = 0 := by cases neg <;> simp [signed]
  simp only [sub32, add32, unpack_of_finite32 h, unpack_neg32_of_finite32 h, addFinite]
  rw [if_pos (hcancel _ _), Bool.and_not_self]

/-- A finite value that is not zero, divided by a zero, is the infinity of the exclusive-or of the signs. -/
theorem div32_zero32 {x : Word} (h : Finite32 x) (hx : val32 x ≠ 0) (neg : Bool) :
    div32 x (zero32 neg) = infinity (signBit x ^^ neg) := by
  simp only [div32, unpack_of_finite32 h, unpack_zero32, if_true, if_neg (magnitude_ne_zero_of_val32 hx)]

/-- The square root of a value below zero is the canonical NaN. -/
theorem sqrt32_of_neg {x : Word} (h : Finite32 x) (hx : val32 x < 0) : sqrt32 x = canonicalNaN := by
  simp only [sqrt32, unpack_of_finite32 h, signBit_of_val32_neg hx, if_true,
    if_neg (magnitude_ne_zero_of_val32 hx.ne)]

/-! ## Sums and products commute (R124) -/

theorem addFinite_comm (m : Bool) (k : Nat) (n : Bool) (l : Nat) : addFinite m k n l = addFinite n l m k := by
  simp only [addFinite, Int.add_comm (signed m k), Bool.and_comm m]

theorem add32_comm (x y : Word) : add32 x y = add32 y x := by
  unfold add32
  rcases unpack x with _ | m | ⟨m, k⟩ <;> rcases unpack y with _ | n | ⟨n, l⟩ <;> simp only
  · cases m <;> cases n <;> rfl
  · exact addFinite_comm m k n l

theorem mul32_comm (x y : Word) : mul32 x y = mul32 y x := by
  unfold mul32
  rcases unpack x with _ | m | ⟨m, k⟩ <;> rcases unpack y with _ | n | ⟨n, l⟩ <;> simp only
  · rw [Bool.xor_comm]
  · rw [Bool.xor_comm]
  · rw [Bool.xor_comm]
  · rw [Bool.xor_comm, Nat.mul_comm]

theorem cmul_comm (a b : Cplx) : cmul a b = cmul b a := by
  simp only [cmul, mul32_comm b.re, mul32_comm b.im, add32_comm (mul32 a.im b.re)]

/-- Settles O41: the formula is the definition, and its sums and products commute. -/
theorem complexProductCommutes : Obligations.ComplexProductCommutes :=
  fun a b => ⟨rfl, cmul_comm a b⟩

/-! ## NaN operands (R122, R123) -/

theorem add32_nan_left {x : Word} (y : Word) (h : isNaN32 x = true) : add32 x y = canonicalNaN := by
  simp only [add32, unpack_of_isNaN32 h]

theorem mul32_nan_left {x : Word} (y : Word) (h : isNaN32 x = true) : mul32 x y = canonicalNaN := by
  simp only [mul32, unpack_of_isNaN32 h]

theorem add32_nan {x y : Word} (h : isNaN32 x = true ∨ isNaN32 y = true) : add32 x y = canonicalNaN := by
  rcases h with h | h
  · exact add32_nan_left y h
  · rw [add32_comm, add32_nan_left x h]

theorem mul32_nan {x y : Word} (h : isNaN32 x = true ∨ isNaN32 y = true) : mul32 x y = canonicalNaN := by
  rcases h with h | h
  · exact mul32_nan_left y h
  · rw [mul32_comm, mul32_nan_left x h]

theorem div32_nan {x y : Word} (h : isNaN32 x = true ∨ isNaN32 y = true) : div32 x y = canonicalNaN := by
  rcases h with h | h
  · simp only [div32, unpack_of_isNaN32 h]
  · rcases hx : unpack x <;> simp only [div32, hx, unpack_of_isNaN32 h]

theorem isNaN32_neg32 (x : Word) : isNaN32 (neg32 x) = isNaN32 x := by
  simp [isNaN32]

theorem sub32_nan {x y : Word} (h : isNaN32 x = true ∨ isNaN32 y = true) : sub32 x y = canonicalNaN := by
  rw [← isNaN32_neg32 y] at h
  exact add32_nan h

theorem sqrt32_nan {x : Word} (h : isNaN32 x = true) : sqrt32 x = canonicalNaN := by
  simp only [sqrt32, unpack_of_isNaN32 h]

/-- Settles O40: each item of R123's list from its own lemma, the closed ones by evaluation. -/
theorem specialCasesFollowTheirRule : Obligations.SpecialCasesFollowTheirRule := by
  refine ⟨by decide, by decide, by decide, by decide, by decide, fun x => sub32_self, ?signs, by decide, by decide,
    fun x neg hfin hne => div32_zero32 hfin hne neg, ?roots, ?nans⟩
  case signs =>
    exact fun x y => ⟨fun h => (mul32_nan_or_sign x y).resolve_left (ne_canonicalNaN h),
      fun h => (div32_nan_or_sign x y).resolve_left (ne_canonicalNaN h)⟩
  case roots =>
    rintro x (⟨hfin, hneg⟩ | rfl)
    · exact sqrt32_of_neg hfin hneg
    · decide
  case nans =>
    intro x y h
    rw [add32_nan h, sub32_nan h, mul32_nan h, div32_nan h]
    exact ⟨rfl, rfl, rfl, rfl, fun hx => by rw [sqrt32_nan hx]; rfl⟩

end Sys2Proof.Machine
end

section
/-! PROOFS. Bit reversal (40_datapath.md R130). -/

namespace Sys2Proof.Machine

theorem bitrev_lt (l k : Nat) : bitrev k l < 2 ^ l := by
  induction l generalizing k with
  | zero => simp [bitrev]
  | succ l ih =>
    have hhigh := ih (k / 2)
    have hlow : k % 2 * 2 ^ l ≤ 1 * 2 ^ l := Nat.mul_le_mul_right _ (by omega)
    rw [bitrev, Nat.pow_succ]
    omega

/-- Bit `i` of the result is bit `l - 1 - i` of `k`: the lowest bit of `k` goes to the top, the others by induction. -/
theorem testBit_bitrev {l i : Nat} (k : Nat) (hi : i < l) : (bitrev k l).testBit i = k.testBit (l - 1 - i) := by
  induction l generalizing k with
  | zero => omega
  | succ l ih =>
    rw [bitrev, Nat.mul_comm, Nat.testBit_two_pow_mul_add _ (bitrev_lt l _)]
    split_ifs with h
    · rw [ih _ h, ← Nat.testBit_succ]
      congr 1
      omega
    · obtain rfl : i = l := by omega
      simp [Nat.testBit_zero]

theorem bitrev_bitrev {l k : Nat} (hk : k < 2 ^ l) : bitrev (bitrev k l) l = k := by
  apply Nat.eq_of_testBit_eq
  intro i
  by_cases hi : i < l
  · rw [testBit_bitrev _ hi, testBit_bitrev _ (by omega)]
    congr 1
    omega
  · have hle : 2 ^ l ≤ 2 ^ i := Nat.pow_le_pow_right (by norm_num) (by omega)
    rw [Nat.testBit_eq_false_of_lt ((bitrev_lt l _).trans_le hle), Nat.testBit_eq_false_of_lt (hk.trans_le hle)]

/-- Settles O44: the reversal of each bit, from which the involution follows bit by bit. -/
theorem bitReversalReversesTheBits : Obligations.BitReversalReversesTheBits :=
  ⟨fun k l hk => ⟨bitrev_lt l k, fun _ hi => testBit_bitrev k hi, bitrev_bitrev hk⟩, by decide⟩

end Sys2Proof.Machine
end

section
/-! PROOFS. Rounding to nearest (40_datapath.md R120, 00_scope.md R8): the magnitudes of the patterns in order, the
values strictly nearer to one pattern than to any other, and that `nearestBits` finds that pattern; then the constants and
integers that are so rounded (R129, R131). -/

namespace Sys2Proof.Machine

/-! ## Magnitudes in order -/

/-- The magnitude of the pattern with significand `m` and exponent `t`. The next binade's least pattern (`m = 2^24`) is
included. -/
theorem magnitude_mantissa {t m : Nat} (hnormal : t = 0 ∨ 2 ^ 23 ≤ m) (hm : m ≤ 2 ^ 24) :
    magnitude (t * 2 ^ 23 + m) = m * 2 ^ t := by
  rcases Nat.lt_or_ge m (2 ^ 23) with hsub | hge
  · obtain rfl : t = 0 := by omega
    rw [magnitude, if_pos (by omega)]
    ring
  · rcases hm.lt_or_eq with hlt | rfl
    · have hdiv : (t * 2 ^ 23 + m) / 2 ^ 23 = t + 1 := by omega
      have hmod : 2 ^ 23 + (t * 2 ^ 23 + m) % 2 ^ 23 = m := by omega
      rw [magnitude, hdiv, hmod, if_neg (Nat.succ_ne_zero t), Nat.add_sub_cancel]
    · have hdiv : (t * 2 ^ 23 + 2 ^ 24) / 2 ^ 23 = t + 1 + 1 := by omega
      have hmod : (t * 2 ^ 23 + 2 ^ 24) % 2 ^ 23 = 0 := by omega
      rw [magnitude, hdiv, hmod, if_neg (by omega), Nat.add_sub_cancel, Nat.pow_succ]
      ring

theorem exists_mantissa (b : Nat) :
    ∃ t m, b = t * 2 ^ 23 + m ∧ (t = 0 ∨ 2 ^ 23 ≤ m) ∧ m < 2 ^ 24 := by
  rcases Nat.lt_or_ge b (2 ^ 23) with hsub | hge
  · exact ⟨0, b, by omega, .inl rfl, by omega⟩
  · exact ⟨b / 2 ^ 23 - 1, 2 ^ 23 + b % 2 ^ 23, by omega, .inr (by omega), by omega⟩

theorem magnitude_strictMono : StrictMono magnitude := by
  apply strictMono_nat_of_lt_succ
  intro b
  obtain ⟨t, m, rfl, hnormal, hm⟩ := exists_mantissa b
  rw [Nat.add_assoc, magnitude_mantissa hnormal hm.le, magnitude_mantissa (by omega) hm]
  exact Nat.mul_lt_mul_of_pos_right (Nat.lt_succ_self m) (by positivity)

/-- Magnitudes as real numbers keep the order of their patterns. -/
theorem magnitude_cast_strictMono : StrictMono fun b => (magnitude b : ℝ) :=
  fun _ _ h => Nat.cast_lt.2 (magnitude_strictMono h)

/-! ## The pattern nearest to a value -/

/-- `y` units of 2^-149 lie strictly between the midpoints from the magnitude pattern `b` to its two neighbours. -/
def StrictlyNearest (y : ℝ) (b : Nat) : Prop :=
  (b ≠ 0 → (magnitude (b - 1) : ℝ) + magnitude b < 2 * y) ∧ 2 * y < magnitude b + magnitude (b + 1)

theorem strictlyNearest_magnitude (b : Nat) : StrictlyNearest (magnitude b) b := by
  have habove : (magnitude b : ℝ) < magnitude (b + 1) := magnitude_cast_strictMono (Nat.lt_succ_self b)
  refine ⟨fun hb => ?_, by linarith⟩
  have hbelow : (magnitude (b - 1) : ℝ) < magnitude b := magnitude_cast_strictMono (by omega)
  linarith

/-- A value within half a unit in the last place of `m · 2^t`. Below the least significand of a binade the unit is half
as large, hence the second bound. -/
theorem strictlyNearest_mantissa {y : ℝ} {t m : Nat} (hlow : 2 ^ 23 ≤ m) (hhigh : m ≤ 2 ^ 24)
    (hbelow : ((m : ℝ) - 1 / 2) * 2 ^ t < y) (hbinade : ((2 : ℝ) ^ 23 - 1 / 4) * 2 ^ t < y)
    (habove : y < ((m : ℝ) + 1 / 2) * 2 ^ t) : StrictlyNearest y (t * 2 ^ 23 + m) := by
  have hself : (magnitude (t * 2 ^ 23 + m) : ℝ) = m * 2 ^ t := by
    rw [magnitude_mantissa (.inr hlow) hhigh]
    push_cast
    rfl
  refine ⟨fun _ => ?_, ?_⟩
  · rw [hself]
    by_cases hinside : t = 0 ∨ 2 ^ 23 < m
    · have hpred : t * 2 ^ 23 + m - 1 = t * 2 ^ 23 + (m - 1) := by omega
      rw [hpred, magnitude_mantissa (by omega) (by omega)]
      push_cast [show 1 ≤ m by omega]
      linarith
    · obtain ⟨u, rfl⟩ : ∃ u, t = u + 1 := ⟨t - 1, by omega⟩
      obtain rfl : m = 2 ^ 23 := by omega
      have hpred : (u + 1) * 2 ^ 23 + 2 ^ 23 - 1 = u * 2 ^ 23 + (2 ^ 24 - 1) := by omega
      rw [hpred, magnitude_mantissa (.inr (by norm_num)) (by norm_num)]
      rw [pow_succ 2 u] at hbinade ⊢
      push_cast
      linarith
  · rw [hself, Nat.add_assoc]
    have hpos : (0 : ℝ) < 2 ^ t := by positivity
    have hsucc : ((m : ℝ) + 1) * 2 ^ t ≤ magnitude (t * 2 ^ 23 + (m + 1)) := by
      rcases hhigh.lt_or_eq with hlt | rfl
      · rw [magnitude_mantissa (by omega) hlt]
        push_cast
        rfl
      · have hnext : t * 2 ^ 23 + (2 ^ 24 + 1) = (t + 1) * 2 ^ 23 + (2 ^ 23 + 1) := by omega
        rw [hnext, magnitude_mantissa (.inr (by omega)) (by omega), pow_succ 2 t]
        push_cast
        linarith
    linarith

/-- Any other pattern is farther from the value. -/
theorem StrictlyNearest.abs_lt_of_ne {y : ℝ} {a b : Nat} (h : StrictlyNearest y b) (hne : a ≠ b) :
    |(magnitude b : ℝ) - y| < |(magnitude a : ℝ) - y| := by
  obtain ⟨hbelow, habove⟩ := h
  rw [← sq_lt_sq]
  rcases lt_or_gt_of_ne hne with hlt | hgt
  · have horder : (magnitude a : ℝ) < magnitude b := magnitude_cast_strictMono hlt
    have hpred : (magnitude a : ℝ) ≤ magnitude (b - 1) := magnitude_cast_strictMono.monotone (by omega)
    have hmid := hbelow (by omega)
    nlinarith
  · have horder : (magnitude b : ℝ) < magnitude a := magnitude_cast_strictMono hgt
    have hsucc : (magnitude (b + 1) : ℝ) ≤ magnitude a := magnitude_cast_strictMono.monotone hgt
    nlinarith

/-- A magnitude with the opposite sign is farther too, unless both are zero. -/
theorem StrictlyNearest.abs_lt_neg {y : ℝ} {a b : Nat} (h : StrictlyNearest y b) (hy : 0 ≤ y)
    (hne : a ≠ 0 ∨ b ≠ 0) : |(magnitude b : ℝ) - y| < |-(magnitude a : ℝ) - y| := by
  have hzero : magnitude 0 = 0 := rfl
  have ha : (0 : ℝ) ≤ magnitude a := Nat.cast_nonneg _
  rw [← sq_lt_sq]
  rcases Nat.eq_zero_or_pos b with rfl | hb
  · have hpos : ((magnitude 0 : ℕ) : ℝ) < magnitude a := magnitude_cast_strictMono (by omega)
    simp only [hzero, Nat.cast_zero] at hpos ⊢
    nlinarith
  · have hpos : ((magnitude 0 : ℕ) : ℝ) < magnitude b := magnitude_cast_strictMono hb
    have hmid := h.1 hb.ne'
    have hpred : (0 : ℝ) ≤ magnitude (b - 1) := Nat.cast_nonneg _
    simp only [hzero, Nat.cast_zero] at hpos
    nlinarith

/-- The factor of a sign. -/
def signFactor (neg : Bool) : ℝ := if neg then -1 else 1

theorem val32_cast (x : Word) : (val32 x : ℝ) = signFactor (signBit x) * magnitude (absBits x) / 2 ^ 149 := by
  cases h : signBit x <;> simp [val32, signFactor, h]

/-- The distance of `v` from a value of the sign `neg`, in units of 2^-149. -/
theorem abs_val32_sub (v : Word) (neg : Bool) (y : ℝ) :
    |(val32 v : ℝ) - signFactor neg * y / 2 ^ 149| =
      |(if signBit v = neg then (magnitude (absBits v) : ℝ) else -magnitude (absBits v)) - y| / 2 ^ 149 := by
  have hunit : (0 : ℝ) < 2 ^ 149 := by positivity
  rw [val32_cast, ← sub_div, abs_div, abs_of_pos hunit]
  congr 1
  cases neg <;> cases signBit v <;> simp [signFactor]
  all_goals
    rw [← abs_neg]
    ring_nf

/-- The pattern of a magnitude strictly nearest to `y` units, with a sign, is the pattern nearest to that value. -/
theorem isNearest_withSign {y : ℝ} {b : Nat} (neg : Bool) (h : StrictlyNearest y b) (hy : 0 ≤ y) (hb : b < infBits) :
    IsNearest (signFactor neg * y / 2 ^ 149) (withSign neg b) := by
  have hbound : b < 2 ^ 31 := hb.trans infBits_lt
  set x := signFactor neg * y / 2 ^ 149 with hx
  have hstrict : ∀ v : Word, val32 v ≠ val32 (withSign neg b) →
      |(val32 (withSign neg b) : ℝ) - x| < |(val32 v : ℝ) - x| := by
    intro v hne
    rw [hx, abs_val32_sub, abs_val32_sub, signBit_withSign neg hbound, absBits_withSign neg hbound, if_pos rfl]
    apply div_lt_div_of_pos_right _ (by positivity)
    split_ifs with hsign
    · apply h.abs_lt_of_ne
      rintro rfl
      exact hne (by rw [← hsign, withSign_signBit_absBits])
    · apply h.abs_lt_neg hy
      by_contra hzero
      obtain ⟨ha, rfl⟩ : absBits v = 0 ∧ b = 0 := by omega
      exact hne (by simp [val32, ha, magnitude])
  refine ⟨by rwa [Finite32, absBits_withSign neg hbound], fun v _ => ?_, fun v _ hne heq => ?_⟩
  · by_cases hne : val32 v = val32 (withSign neg b)
    · rw [hne]
    · exact (hstrict v hne).le
  · exact absurd heq (hstrict v hne).ne'

/-! ## The rounding finds it -/

/-- The significand that `floorBits` takes, with the exponent `ulpShift`: normal or of the lowest binade. -/
theorem ulpShift_spec (p q : Nat) :
    (ulpShift p q = 0 ∨ 2 ^ 23 ≤ p / (q * 2 ^ ulpShift p q)) ∧ p / (q * 2 ^ ulpShift p q) < 2 ^ 24 := by
  rw [← Nat.div_div_eq_div_mul, ulpShift]
  set n := p / q
  have hlt : n < 2 ^ (Nat.log2 n + 1) := Nat.lt_log2_self
  rcases Nat.lt_or_ge (Nat.log2 n) 24 with hsmall | hlarge
  · have hbound : n < 2 ^ 24 := hlt.trans_le (Nat.pow_le_pow_right (by norm_num) (by omega))
    rw [Nat.sub_eq_zero_of_le (by omega), pow_zero, Nat.div_one]
    exact ⟨.inl rfl, hbound⟩
  · have hn : n ≠ 0 := by
      intro hzero
      rw [hzero, Nat.log2_zero] at hlarge
      omega
    have hle : 2 ^ Nat.log2 n ≤ n := Nat.log2_self_le hn
    have hlog : Nat.log2 n = 23 + (Nat.log2 n - 23) := by omega
    constructor
    · right
      rwa [Nat.le_div_iff_mul_le (by positivity), ← pow_add, ← hlog]
    · rw [Nat.div_lt_iff_lt_mul (by positivity), ← pow_add]
      exact hlt.trans_eq (congrArg (2 ^ ·) (by omega))

/-- Between two patterns next to each other only these two can be nearest, each on its side of the midpoint. -/
theorem StrictlyNearest.eq_or_eq_succ {y : ℝ} {b c : Nat} (h : StrictlyNearest y b) (hle : (magnitude c : ℝ) ≤ y)
    (hlt : y < magnitude (c + 1)) :
    (b = c ∧ 2 * y < magnitude c + magnitude (c + 1)) ∨
      (b = c + 1 ∧ (magnitude c : ℝ) + magnitude (c + 1) < 2 * y) := by
  obtain ⟨hbelow, habove⟩ := h
  have hmono := magnitude_cast_strictMono.monotone
  rcases Nat.lt_trichotomy b c with hbc | rfl | hcb
  · have hself : (magnitude b : ℝ) ≤ magnitude c := hmono hbc.le
    have hsucc : (magnitude (b + 1) : ℝ) ≤ magnitude c := hmono hbc
    linarith
  · exact .inl ⟨rfl, habove⟩
  · have hmid := hbelow (by omega)
    rcases (Nat.succ_le_of_lt hcb).lt_or_eq with hgt | rfl
    · have hself : (magnitude (c + 1) : ℝ) ≤ magnitude b := hmono hgt.le
      have hpred : (magnitude (c + 1) : ℝ) ≤ magnitude (b - 1) := hmono (by omega)
      linarith
    · exact .inr ⟨rfl, hmid⟩

/-- The significand `m`, exponent `t` and remainder `r` that `nearestBits` decides by. -/
theorem exists_nearestBits_eq (p : Nat) {q : Nat} (hq : 0 < q) :
    ∃ t m r, p = q * 2 ^ t * m + r ∧ r < q * 2 ^ t ∧ (t = 0 ∨ 2 ^ 23 ≤ m) ∧ m < 2 ^ 24 ∧
      nearestBits p q = if q * 2 ^ t < 2 * r ∨ (2 * r = q * 2 ^ t ∧ m % 2 = 1) then t * 2 ^ 23 + m + 1
        else t * 2 ^ 23 + m := by
  obtain ⟨hnormal, hm⟩ := ulpShift_spec p q
  exact ⟨_, _, _, (Nat.div_add_mod _ _).symm, Nat.mod_lt _ (by positivity), hnormal, hm, rfl⟩

/-- `nearestBits` finds the pattern strictly nearest to `p / q` units. -/
theorem nearestBits_eq {p q b : Nat} (hq : 0 < q) (h : StrictlyNearest ((p : ℝ) / q) b) : nearestBits p q = b := by
  obtain ⟨t, m, r, rfl, hr, hnormal, hm, hnearest⟩ := exists_nearestBits_eq p hq
  have hself : magnitude (t * 2 ^ 23 + m) = m * 2 ^ t := magnitude_mantissa hnormal hm.le
  have hsucc : magnitude (t * 2 ^ 23 + m + 1) = (m + 1) * 2 ^ t := by
    rw [Nat.add_assoc, magnitude_mantissa (by omega) hm]
  have hq' : (0 : ℝ) < q := by exact_mod_cast hq
  have hy : ((q * 2 ^ t * m + r : ℕ) : ℝ) / q = m * 2 ^ t + r / q := by
    push_cast
    field_simp
  have hfrac : (r : ℝ) / q < 2 ^ t := by
    rw [div_lt_iff₀' hq']
    exact_mod_cast hr
  have hnonneg : (0 : ℝ) ≤ r / q := by positivity
  have hcases := h.eq_or_eq_succ (c := t * 2 ^ 23 + m) (by rw [hself, hy]; push_cast; linarith)
    (by rw [hsucc, hy]; push_cast; linarith)
  rw [hself, hsucc, hy] at hcases
  rcases hcases with ⟨rfl, hside⟩ | ⟨rfl, hside⟩ <;> push_cast at hside
  · have hhalf : 2 * ((r : ℝ) / q) < 2 ^ t := by linarith
    rw [← mul_div_assoc, div_lt_iff₀' hq'] at hhalf
    have hround : 2 * r < q * 2 ^ t := by exact_mod_cast hhalf
    rw [hnearest, if_neg (by omega)]
  · have hhalf : (2 : ℝ) ^ t < 2 * ((r : ℝ) / q) := by linarith
    rw [← mul_div_assoc, lt_div_iff₀' hq'] at hhalf
    have hround : q * 2 ^ t < 2 * r := by exact_mod_cast hhalf
    rw [hnearest, if_pos (.inl hround)]

theorem nearestBits_magnitude (b : Nat) : nearestBits (magnitude b) 1 = b :=
  nearestBits_eq one_pos (by simpa using strictlyNearest_magnitude b)

/-- A number of units that is the magnitude of a finite pattern is rounded to that pattern. -/
theorem roundNearest_magnitude (neg : Bool) {b : Nat} (hb : b < infBits) :
    roundNearest neg (magnitude b) 1 = withSign neg b := by
  rw [roundNearest, nearestBits_magnitude, Nat.min_eq_left hb.le]

/-! ## Integers (R131) -/

/-- An integer up to 2^24, in units of 2^-149, is the magnitude of a finite pattern. -/
theorem exists_magnitude_eq_integer {k : Nat} (hk : k ≤ 2 ^ 24) : ∃ b, b < infBits ∧ magnitude b = k * 2 ^ 149 := by
  rcases Nat.eq_zero_or_pos k with rfl | hpos
  · exact ⟨0, by decide, by simp [magnitude]⟩
  rcases hk.lt_or_eq with hlt | rfl
  · have hlog : Nat.log2 k < 24 := (Nat.log2_lt hpos.ne').2 hlt
    obtain ⟨i, hi⟩ : ∃ i, Nat.log2 k + i = 23 := ⟨23 - Nat.log2 k, by omega⟩
    have hlow : 2 ^ 23 ≤ k * 2 ^ i := by
      rw [← hi, pow_add]
      exact Nat.mul_le_mul_right _ (Nat.log2_self_le hpos.ne')
    have hhigh : k * 2 ^ i < 2 ^ 24 := by
      rw [show 24 = Nat.log2 k + 1 + i by omega, pow_add]
      exact Nat.mul_lt_mul_of_pos_right Nat.lt_log2_self (by positivity)
    refine ⟨(149 - i) * 2 ^ 23 + k * 2 ^ i, by unfold infBits; omega, ?_⟩
    rw [magnitude_mantissa (.inr hlow) hhigh.le, mul_assoc, ← pow_add, Nat.add_sub_cancel' (by omega)]
  · exact ⟨150 * 2 ^ 23 + 2 ^ 23, by decide, by rw [magnitude_mantissa (.inr le_rfl) (by norm_num)]; norm_num⟩

/-- Settles O45: the integer is the magnitude of a pattern, to which `cvt32` rounds it. -/
theorem integersConvertExactly : Obligations.IntegersConvertExactly := by
  intro k hk
  obtain ⟨b, hb, hmag⟩ := exists_magnitude_eq_integer hk
  have hbound := hb.trans infBits_lt
  have hcvt : cvt32 k = withSign false b := by rw [cvt32, ← hmag, roundNearest_magnitude false hb]
  rw [hcvt, Finite32, val32, absBits_withSign false hbound, signBit_withSign false hbound, hmag]
  refine ⟨hb, ?_⟩
  push_cast
  norm_num

/-! ## The normalisation constants (R129) -/

/-- The pattern R129 gives for `INVSQRT(2^l)`. -/
def invSqrtBits (l : Nat) : Nat :=
  if l % 2 = 0 then (127 - l / 2) * 2 ^ 23 else (127 - (l + 1) / 2) * 2 ^ 23 + 0x3504F3

theorem invSqrtBits_lt (l : Nat) : invSqrtBits l < infBits := by
  unfold invSqrtBits infBits
  split_ifs <;> omega

theorem invSqrt_two_pow (l : Nat) : invSqrt (2 ^ l) = withSign false (invSqrtBits l) := by
  rw [invSqrt, Nat.log2_two_pow, invSqrtLog, invSqrtBits]
  split_ifs <;> rfl

/-- For even `l` the value is a power of two, the magnitude of the pattern. -/
theorem strictlyNearest_invSqrtBits_even {h : Nat} (hh : h ≤ 126) :
    StrictlyNearest (2 ^ 149 / Real.sqrt (2 ^ (2 * h))) (invSqrtBits (2 * h)) := by
  have hbits : invSqrtBits (2 * h) = (126 - h) * 2 ^ 23 + 2 ^ 23 := by
    rw [invSqrtBits, if_pos (by omega)]
    omega
  have hroot : Real.sqrt (2 ^ (2 * h)) = 2 ^ h := by
    rw [mul_comm, pow_mul, Real.sqrt_sq (by positivity)]
  have hvalue : (2 : ℝ) ^ 149 / 2 ^ h = magnitude ((126 - h) * 2 ^ 23 + 2 ^ 23) := by
    rw [magnitude_mantissa (.inr le_rfl) (by norm_num), ← pow_add, show 23 + (126 - h) = 149 - h by omega]
    push_cast
    rw [pow_sub₀ _ two_ne_zero (by omega), div_eq_mul_inv]
  rw [hbits, hroot, hvalue]
  exact strictlyNearest_magnitude _

/-- For odd `l` it is √2 times a power of two, and 0xB504F3 is √2 in units of 2^-23 to the nearest integer. -/
theorem strictlyNearest_invSqrtBits_odd {h : Nat} (hh : h ≤ 125) :
    StrictlyNearest (2 ^ 149 / Real.sqrt (2 ^ (2 * h + 1))) (invSqrtBits (2 * h + 1)) := by
  have hbits : invSqrtBits (2 * h + 1) = (125 - h) * 2 ^ 23 + 0xB504F3 := by
    rw [invSqrtBits, if_neg (by omega)]
    omega
  have hroot : Real.sqrt (2 ^ (2 * h + 1)) = 2 ^ h * Real.sqrt 2 := by
    rw [pow_succ, mul_comm 2 h, pow_mul, Real.sqrt_mul (by positivity), Real.sqrt_sq (by positivity)]
  have hvalue : (2 : ℝ) ^ 149 / (2 ^ h * Real.sqrt 2) = 2 ^ 23 * Real.sqrt 2 * 2 ^ (125 - h) := by
    have hsplit : (2 : ℝ) ^ 149 = 2 ^ 23 * 2 * 2 ^ h * 2 ^ (125 - h) := by
      rw [← pow_succ, ← pow_add, ← pow_add]
      congr 1
      omega
    have hsq : Real.sqrt 2 * Real.sqrt 2 = 2 := Real.mul_self_sqrt (by norm_num)
    rw [div_eq_iff (by positivity), hsplit]
    linear_combination -(2 : ℝ) ^ 23 * 2 ^ h * 2 ^ (125 - h) * hsq
  have hbelow : (0xB504F3 - 1 / 2 : ℝ) / 2 ^ 23 < Real.sqrt 2 := Real.lt_sqrt_of_sq_lt (by norm_num)
  have habove : Real.sqrt 2 < (0xB504F3 + 1 / 2 : ℝ) / 2 ^ 23 := (Real.sqrt_lt' (by norm_num)).2 (by norm_num)
  have hpos : (0 : ℝ) < 2 ^ (125 - h) := by positivity
  rw [hbits, hroot, hvalue]
  apply strictlyNearest_mantissa (by norm_num) (by norm_num)
  · apply mul_lt_mul_of_pos_right _ hpos
    push_cast
    linarith
  · apply mul_lt_mul_of_pos_right _ hpos
    linarith
  · apply mul_lt_mul_of_pos_right _ hpos
    push_cast
    linarith

/-- Settles O43: by parity of `l`, exactly or by the bounds on √2. -/
theorem inverseRootsAreNearest : Obligations.InverseRootsAreNearest := by
  intro l _ hl
  have hstrict : StrictlyNearest (2 ^ 149 / Real.sqrt (2 ^ l)) (invSqrtBits l) := by
    rcases Nat.even_or_odd' l with ⟨h, rfl | rfl⟩
    · exact strictlyNearest_invSqrtBits_even (by omega)
    · exact strictlyNearest_invSqrtBits_odd (by omega)
  have hbits := invSqrtBits_lt l
  have hvalue : 1 / Real.sqrt (2 ^ l) = signFactor false * (2 ^ 149 / Real.sqrt (2 ^ l)) / 2 ^ 149 := by
    rw [signFactor, if_neg Bool.false_ne_true, one_mul, div_right_comm, div_self (by positivity)]
  rw [invSqrt_two_pow, hvalue, toNat_withSign false (hbits.trans infBits_lt)]
  exact ⟨isNearest_withSign false hstrict (by positivity) hbits, rfl⟩

end Sys2Proof.Machine
end

section
/-! PROOFS. The cosine and sine in fixed point (40_datapath.md R127, log entry 10): the alternating series against the
exact functions. -/

namespace Sys2Proof.Machine

open scoped Nat

/-! ## The Taylor series from a term on -/

/-- A term of the Taylor series of the cosine (or the sine) of `x`, divided by the term of degree `d`, `k` terms
before. -/
noncomputable def tailTerm (x : ℝ) (d k : ℕ) : ℝ := (-1) ^ k * x ^ (2 * k) * ((d ! : ℝ) / (d + 2 * k)!)

/-- The Taylor series of the cosine (or the sine) of `x` from the term of degree `d` on, divided by that term. -/
noncomputable def seriesTail (x : ℝ) (d : ℕ) : ℝ := ∑' k, tailTerm x d k

/-- The terms lie below those of the hyperbolic cosine. -/
theorem abs_tailTerm_le (x : ℝ) (d k : ℕ) : ‖tailTerm x d k‖ ≤ x ^ (2 * k) / (2 * k)! := by
  have hfact : ((d ! * (2 * k)! : ℕ) : ℝ) ≤ (d + 2 * k)! :=
    Nat.cast_le.2 (Nat.le_of_dvd (Nat.factorial_pos _) (Nat.factorial_mul_factorial_dvd_factorial_add _ _))
  have hpow : |x ^ (2 * k)| = x ^ (2 * k) := abs_of_nonneg ((even_two_mul k).pow_nonneg x)
  have hratio : (d ! : ℝ) / (d + 2 * k)! ≤ 1 / (2 * k)! := by
    rw [div_le_div_iff₀ (by positivity) (by positivity), one_mul]
    exact_mod_cast hfact
  calc ‖tailTerm x d k‖ = x ^ (2 * k) * ((d ! : ℝ) / (d + 2 * k)!) := by
        rw [tailTerm, Real.norm_eq_abs, abs_mul, abs_mul, abs_neg_one_pow, one_mul, hpow,
          abs_of_nonneg (by positivity : (0 : ℝ) ≤ (d ! : ℝ) / (d + 2 * k)!)]
    _ ≤ x ^ (2 * k) * (1 / (2 * k)!) := mul_le_mul_of_nonneg_left hratio ((even_two_mul k).pow_nonneg x)
    _ = x ^ (2 * k) / (2 * k)! := by rw [mul_one_div]

theorem summable_tailTerm (x : ℝ) (d : ℕ) : Summable (tailTerm x d) :=
  Summable.of_norm_bounded (Real.hasSum_cosh x).summable (abs_tailTerm_le x d)

theorem abs_seriesTail_le (x : ℝ) (d : ℕ) : |seriesTail x d| ≤ Real.cosh x :=
  tsum_of_norm_bounded (Real.hasSum_cosh x) (abs_tailTerm_le x d)

theorem seriesTail_zero (x : ℝ) : seriesTail x 0 = Real.cos x := by
  rw [Real.cos_eq_tsum, seriesTail]
  congr 1 with k
  simp [tailTerm]
  ring

theorem mul_seriesTail_one (x : ℝ) : x * seriesTail x 1 = Real.sin x := by
  rw [Real.sin_eq_tsum, seriesTail, ← tsum_mul_left]
  congr 1 with k
  rw [tailTerm, Nat.add_comm 1, Nat.factorial_one]
  push_cast
  ring

/-- Each term is followed by the tail two degrees up, with the opposite sign. -/
theorem seriesTail_eq (x : ℝ) (d : ℕ) :
    seriesTail x d = 1 - x ^ 2 / ((d + 1) * (d + 2)) * seriesTail x (d + 2) := by
  have hfirst : tailTerm x d 0 = 1 := by
    have : (d ! : ℝ) ≠ 0 := by positivity
    simp [tailTerm, this]
  have hnext (k : ℕ) : tailTerm x d (k + 1) = -(x ^ 2 / ((d + 1) * (d + 2))) * tailTerm x (d + 2) k := by
    have hindex : d + 2 * (k + 1) = d + 2 + 2 * k := by ring
    rw [tailTerm, tailTerm, hindex, Nat.factorial_succ (d + 1), Nat.factorial_succ d]
    push_cast
    field_simp
    ring
  rw [seriesTail, (summable_tailTerm x d).tsum_eq_zero_add, hfirst]
  simp only [hnext, tsum_mul_left, seriesTail]
  ring

/-! ## The series in fixed point -/

/-- The term that `alternatingSeries` makes from the term `t` of degree `d`, for the angle `a / 2^f`. -/
def nextTerm (f a d t : ℕ) : ℕ := t * (a * a / 2 ^ f) / 2 ^ f / ((d + 1) * (d + 2))

theorem alternatingSeries_succ (f a n d t : ℕ) :
    alternatingSeries f (a * a / 2 ^ f) (n + 1) d t =
      t - alternatingSeries f (a * a / 2 ^ f) n (d + 2) (nextTerm f a d t) := rfl

theorem natDiv_bounds (m : ℕ) {n : ℕ} (hn : 0 < n) :
    (m : ℝ) / n < (m / n : ℕ) + 1 ∧ ((m / n : ℕ) : ℝ) ≤ m / n := by
  have hn' : (0 : ℝ) < n := Nat.cast_pos.2 hn
  refine ⟨?_, Nat.cast_div_le⟩
  rw [div_lt_iff₀' hn']
  exact_mod_cast Nat.lt_mul_div_succ m hn

theorem abs_natDiv_sub_le (m : ℕ) {n : ℕ} (hn : 0 < n) : |((m / n : ℕ) : ℝ) - m / n| ≤ 1 := by
  obtain ⟨hfloor, hfloor'⟩ := natDiv_bounds m hn
  rw [abs_le]
  constructor <;> linarith

/-- The next term is the exact one rounded down, by less than two units. -/
theorem nextTerm_bounds {f d t : ℕ} (a : ℕ) (ht : t ≤ 2 ^ f * (d + 1)) :
    (nextTerm f a d t : ℝ) ≤ t * (((a : ℝ) / 2 ^ f) ^ 2 / ((d + 1) * (d + 2))) ∧
      t * (((a : ℝ) / 2 ^ f) ^ 2 / ((d + 1) * (d + 2))) < nextTerm f a d t + 2 := by
  obtain ⟨hsquare, hsquare'⟩ := natDiv_bounds (a * a) (n := 2 ^ f) (by positivity)
  obtain ⟨hterm, hterm'⟩ :=
    natDiv_bounds (t * (a * a / 2 ^ f)) (n := 2 ^ f * ((d + 1) * (d + 2))) (by positivity)
  rw [nextTerm, Nat.div_div_eq_div_mul]
  push_cast at hsquare hsquare' hterm hterm'
  set x2 := a * a / 2 ^ f
  set ratio : ℝ := t / (2 ^ f * ((d + 1) * (d + 2)))
  have hratio : 0 ≤ ratio := by positivity
  have hratio' : ratio ≤ 1 := by
    have htc : (t : ℝ) ≤ 2 ^ f * (d + 1) := by exact_mod_cast ht
    rw [div_le_one (by positivity), ← mul_assoc]
    exact htc.trans (le_mul_of_one_le_right (by positivity) (by linarith [Nat.cast_nonneg (α := ℝ) d]))
  have hexact : (t : ℝ) * (((a : ℝ) / 2 ^ f) ^ 2 / ((d + 1) * (d + 2))) = ratio * (a * a / 2 ^ f) := by
    simp only [ratio]
    field_simp
  have hround : (t : ℝ) * x2 / (2 ^ f * ((d + 1) * (d + 2))) = ratio * x2 := by ring
  rw [hround] at hterm hterm'
  rw [hexact]
  constructor
  · exact hterm'.trans (mul_le_mul_of_nonneg_left hsquare' hratio)
  · have hgap : ratio * (a * a / 2 ^ f) ≤ ratio * (x2 + 1) := mul_le_mul_of_nonneg_left hsquare.le hratio
    linarith

section Angle

variable {f a : ℕ} (ha : a ≤ 2 * 2 ^ f)
include ha

theorem sq_angle_le : ((a : ℝ) / 2 ^ f) ^ 2 ≤ 4 := by
  have hangle : (a : ℝ) / 2 ^ f ≤ 2 := by
    rw [div_le_iff₀ (by positivity)]
    exact_mod_cast ha
  have hnonneg : (0 : ℝ) ≤ a / 2 ^ f := by positivity
  nlinarith

theorem nextTerm_le_quarter {d t : ℕ} (ht : t ≤ 2 ^ f * (d + 1)) :
    (nextTerm f a d t : ℝ) ≤ t * (4 / ((d + 1) * (d + 2))) :=
  (nextTerm_bounds a ht).1.trans
    (mul_le_mul_of_nonneg_left (div_le_div_of_nonneg_right (sq_angle_le ha) (by positivity)) (by positivity))

theorem nextTerm_le {d t : ℕ} (ht : t ≤ 2 ^ f * (d + 1)) : nextTerm f a d t ≤ 2 ^ f * (d + 2 + 1) := by
  have hterm := nextTerm_le_quarter ha ht
  have htc : (t : ℝ) ≤ 2 ^ f * (d + 1) := by exact_mod_cast ht
  have hbound : (nextTerm f a d t : ℝ) ≤ 2 ^ f * (d + 2 + 1) := by
    calc (nextTerm f a d t : ℝ) ≤ t * (4 / ((d + 1) * (d + 2))) := hterm
      _ ≤ 2 ^ f * (d + 1) * (4 / ((d + 1) * (d + 2))) := mul_le_mul_of_nonneg_right htc (by positivity)
      _ = 2 ^ f * (4 / (d + 2)) := by field_simp
      _ ≤ 2 ^ f * (d + 2 + 1) := by
        apply mul_le_mul_of_nonneg_left _ (by positivity)
        rw [div_le_iff₀ (by positivity)]
        nlinarith [Nat.cast_nonneg (α := ℝ) d]
  exact_mod_cast hbound

/-- The error of `n` terms of the alternating series from the term `t` of degree `d`: two units a term and the first
term left out, each times a bound on the tails. -/
theorem abs_alternatingSeries_sub_le (n : ℕ) {d t : ℕ} (ht : t ≤ 2 ^ f * (d + 1)) :
    |(alternatingSeries f (a * a / 2 ^ f) n d t : ℝ) - t * seriesTail (a / 2 ^ f) d| ≤
      Real.cosh (a / 2 ^ f) * (2 * n + t * 4 ^ n * ((d ! : ℝ) / (d + 2 * n)!)) := by
  set x : ℝ := a / 2 ^ f
  induction n generalizing d t with
  | zero =>
    have hd : (d ! : ℝ) ≠ 0 := by positivity
    have htail := abs_seriesTail_le x d
    simp only [alternatingSeries, Int.cast_zero, zero_sub, abs_neg, abs_mul, Nat.abs_cast, mul_zero, add_zero,
      pow_zero, mul_one, div_self hd, Nat.cast_zero, zero_add]
    rw [mul_comm]
    exact mul_le_mul_of_nonneg_right htail (Nat.cast_nonneg t)
  | succ n ih =>
    have hinduction := ih (nextTerm_le ha ht)
    obtain ⟨hnext, hnext'⟩ := nextTerm_bounds a ht
    have htail := abs_seriesTail_le x (d + 2)
    set next := nextTerm f a d t
    set exact : ℝ := t * (x ^ 2 / ((d + 1) * (d + 2)))
    have hround : |((next : ℝ) - exact) * seriesTail x (d + 2)| ≤ 2 * Real.cosh x := by
      rw [abs_mul]
      exact mul_le_mul (abs_le.2 ⟨by linarith, by linarith⟩) htail (abs_nonneg _) zero_le_two
    have hlast : next * 4 ^ n * (((d + 2)! : ℝ) / (d + 2 + 2 * n)!) ≤
        t * 4 ^ (n + 1) * ((d ! : ℝ) / (d + 2 * (n + 1))!) := by
      have hquarter : (next : ℝ) ≤ t * (4 / ((d + 1) * (d + 2))) := nextTerm_le_quarter ha ht
      calc next * 4 ^ n * (((d + 2)! : ℝ) / (d + 2 + 2 * n)!)
          ≤ t * (4 / ((d + 1) * (d + 2))) * 4 ^ n * (((d + 2)! : ℝ) / (d + 2 + 2 * n)!) := by gcongr
        _ = t * 4 ^ (n + 1) * ((d ! : ℝ) / (d + 2 * (n + 1))!) := by
          rw [show d + 2 * (n + 1) = d + 2 + 2 * n by ring, Nat.factorial_succ (d + 1), Nat.factorial_succ d]
          push_cast
          field_simp
          ring
    have hsplit : ((t - alternatingSeries f (a * a / 2 ^ f) n (d + 2) next : ℤ) : ℝ) - t * seriesTail x d =
        -(alternatingSeries f (a * a / 2 ^ f) n (d + 2) next - next * seriesTail x (d + 2)) -
          (next - exact) * seriesTail x (d + 2) := by
      rw [seriesTail_eq x d]
      push_cast
      ring
    rw [alternatingSeries_succ, hsplit]
    calc _ ≤ |-((alternatingSeries f (a * a / 2 ^ f) n (d + 2) next : ℝ) - next * seriesTail x (d + 2))| +
          |((next : ℝ) - exact) * seriesTail x (d + 2)| := abs_sub _ _
      _ ≤ Real.cosh x * (2 * n + next * 4 ^ n * (((d + 2)! : ℝ) / (d + 2 + 2 * n)!)) + 2 * Real.cosh x := by
        rw [abs_neg]
        exact add_le_add hinduction hround
      _ ≤ Real.cosh x * (2 * n + t * 4 ^ (n + 1) * ((d ! : ℝ) / (d + 2 * (n + 1))!)) + 2 * Real.cosh x := by
        gcongr
      _ = Real.cosh x * (2 * (n + 1 : ℕ) + t * 4 ^ (n + 1) * ((d ! : ℝ) / (d + 2 * (n + 1))!)) := by
        push_cast
        ring

end Angle

theorem cosh_le_eight {x : ℝ} (h0 : 0 ≤ x) (hx : x ≤ 2) : Real.cosh x ≤ 8 := by
  have hexp : Real.exp 2 ≤ 8 := by
    have hone := Real.exp_one_lt_d9
    rw [show (2 : ℝ) = 1 + 1 by norm_num, Real.exp_add]
    nlinarith [Real.exp_pos 1]
  have hsmall : Real.exp (-x) ≤ Real.exp x := Real.exp_le_exp.2 (by linarith)
  have hlarge : Real.exp x ≤ Real.exp 2 := Real.exp_le_exp.2 hx
  rw [Real.cosh_eq]
  linarith

/-- 24 terms at 128 fraction bits, as the twiddle ROM takes them, from a term of degree 0 or 1: the first term left out
is below one unit. -/
theorem abs_alternatingSeries_24_sub_le {a d t : ℕ} (ha : a ≤ 2 * 2 ^ 128) (ht : t ≤ 2 ^ 128 * (d + 1))
    (hd : d ≤ 1) :
    |(alternatingSeries 128 (a * a / 2 ^ 128) 24 d t : ℝ) - t * seriesTail (a / 2 ^ 128) d| ≤ 400 := by
  have hangle : (a : ℝ) / 2 ^ 128 ≤ 2 := by
    rw [div_le_iff₀ (by positivity)]
    exact_mod_cast ha
  have hcosh : Real.cosh ((a : ℝ) / 2 ^ 128) ≤ 8 := cosh_le_eight (by positivity) hangle
  have hlast : (t : ℝ) * 4 ^ 24 * ((d ! : ℝ) / (d + 2 * 24)!) ≤ 1 := by
    have htc : (t : ℝ) ≤ 2 ^ 129 := by
      have htn : t ≤ 2 ^ 129 := ht.trans (Nat.mul_le_mul_left (2 ^ 128) (by omega : d + 1 ≤ 2))
      exact_mod_cast htn
    have hratio : (d ! : ℝ) / (d + 2 * 24)! ≤ 1 / 2 ^ 177 := by
      interval_cases d <;> norm_num [Nat.factorial]
    calc (t : ℝ) * 4 ^ 24 * ((d ! : ℝ) / (d + 2 * 24)!) ≤ 2 ^ 129 * 4 ^ 24 * (1 / 2 ^ 177) := by gcongr
      _ = 1 := by norm_num
  have hpos : (0 : ℝ) ≤ t * 4 ^ 24 * ((d ! : ℝ) / (d + 2 * 24)!) := by positivity
  have hseries := abs_alternatingSeries_sub_le ha 24 ht
  push_cast at hseries
  nlinarith

theorem abs_cosFixed_sub_le {a : ℕ} (ha : a ≤ 2 * 2 ^ 128) :
    |(cosFixed 128 24 a : ℝ) - 2 ^ 128 * Real.cos (a / 2 ^ 128)| ≤ 400 := by
  have hseries := abs_alternatingSeries_24_sub_le (d := 0) ha le_rfl zero_le_one
  rw [seriesTail_zero] at hseries
  exact_mod_cast hseries

theorem abs_sinFixed_sub_le {a : ℕ} (ha : a ≤ 2 * 2 ^ 128) :
    |(sinFixed 128 24 a : ℝ) - 2 ^ 128 * Real.sin (a / 2 ^ 128)| ≤ 400 := by
  have hseries := abs_alternatingSeries_24_sub_le (d := 1) ha (ha.trans_eq (mul_comm _ _)) le_rfl
  have hsin : (2 : ℝ) ^ 128 * Real.sin (a / 2 ^ 128) = a * seriesTail (a / 2 ^ 128) 1 := by
    rw [← mul_seriesTail_one, ← mul_assoc, mul_div_cancel₀ _ (by positivity)]
  rwa [hsin]

end Sys2Proof.Machine
end

section
/-! PROOFS. The twiddle ROM (40_datapath.md R127). The fixed-point cosine and sine are close to the exact ones; that
both round to one pattern needs a calculation, since no theory says how near the cosine of a given angle comes to a
midpoint of two patterns. The calculation turns one vector through the first octant and checks both coordinates at each
angle. -/

namespace Sys2Proof.Machine

/-! ## The angles -/

/-- The angle of entry `r`: `2π·r / 65536`. -/
noncomputable def rootAngle (r : ℕ) : ℝ := 2 * Real.pi * r / 65536

theorem rootAngle_add_quarter (r : ℕ) : rootAngle (16384 + r) = rootAngle r + Real.pi / 2 := by
  simp only [rootAngle]
  push_cast
  ring

theorem rootAngle_quarter_sub {r : ℕ} (hr : r ≤ 16384) : rootAngle (16384 - r) = Real.pi / 2 - rootAngle r := by
  simp only [rootAngle]
  push_cast [hr]
  ring

theorem abs_piFixed_sub_le : |(piFixed : ℝ) - 2 ^ 128 * Real.pi| ≤ 2 ^ 128 / 10 ^ 20 := by
  have hlow := Real.pi_gt_d20
  have hhigh := Real.pi_lt_d20
  rw [abs_le, piFixed]
  constructor <;> norm_num at hlow hhigh ⊢ <;> linarith

theorem abs_twiddleAngle_sub_le {r : ℕ} (hr : r ≤ 16384) :
    |(twiddleAngle r : ℝ) - 2 ^ 128 * rootAngle r| ≤ 2 ^ 61 := by
  obtain ⟨hround, hround'⟩ := natDiv_bounds (piFixed * r) (n := 32768) (by norm_num)
  have hpi := abs_le.1 abs_piFixed_sub_le
  have hr' : (r : ℝ) ≤ 16384 := by exact_mod_cast hr
  have hr0 : (0 : ℝ) ≤ r := Nat.cast_nonneg r
  have hangle : (twiddleAngle r : ℝ) = ((piFixed * r / 32768 : ℕ) : ℝ) := rfl
  rw [hangle, rootAngle, abs_le]
  push_cast at hround hround'
  constructor
  · nlinarith
  · nlinarith

theorem twiddleAngle_le {r : ℕ} (hr : r ≤ 16384) : twiddleAngle r ≤ 2 * 2 ^ 128 := by
  rw [twiddleAngle, piFixed]
  simp only [Config.nmax]
  omega

/-- A value close to `g (a / 2^128)` is close to `g θ` when `a` is close to `2^128 · θ` and `g` stretches no
distance. -/
theorem abs_sub_le_of_lipschitz {g : ℝ → ℝ} (hg : ∀ x y, |g x - g y| ≤ |x - y|) {v a θ : ℝ}
    (hv : |v - 2 ^ 128 * g (a / 2 ^ 128)| ≤ 400) (ha : |a - 2 ^ 128 * θ| ≤ 2 ^ 61) :
    |v - 2 ^ 128 * g θ| ≤ 2 ^ 62 := by
  have hscale : a / 2 ^ 128 - θ = (a - 2 ^ 128 * θ) / 2 ^ 128 := by field_simp
  have hclose : |g (a / 2 ^ 128) - g θ| ≤ 2 ^ 61 / 2 ^ 128 := by
    refine (hg _ _).trans ?_
    rw [hscale, abs_div, abs_of_pos (by positivity : (0 : ℝ) < 2 ^ 128)]
    exact div_le_div_of_nonneg_right ha (by positivity)
  rw [abs_le] at *
  constructor <;> linarith

/-- The fixed-point cosine of entry `r`, in the first quadrant. -/
theorem abs_cosFixed_twiddleAngle_sub_le {r : ℕ} (hr : r ≤ 16384) :
    |(cosFixed 128 24 (twiddleAngle r) : ℝ) - 2 ^ 128 * Real.cos (rootAngle r)| ≤ 2 ^ 62 :=
  abs_sub_le_of_lipschitz Real.abs_cos_sub_cos_le (abs_cosFixed_sub_le (twiddleAngle_le hr))
    (abs_twiddleAngle_sub_le hr)

theorem abs_sinFixed_twiddleAngle_sub_le {r : ℕ} (hr : r ≤ 16384) :
    |(sinFixed 128 24 (twiddleAngle r) : ℝ) - 2 ^ 128 * Real.sin (rootAngle r)| ≤ 2 ^ 62 :=
  abs_sub_le_of_lipschitz Real.abs_sin_sub_sin_le (abs_sinFixed_sub_le (twiddleAngle_le hr))
    (abs_twiddleAngle_sub_le hr)

/-! ## Values away from the midpoints -/

/-- Whether `c`, with the unit in its last place `2^e`, is more than `2^80` from every midpoint of two patterns.
`Nat.pow` and `Nat.ble` are written out for the kernel, which computes them as they stand. -/
def offMidpoints (e c : ℕ) : Bool :=
  Nat.ble (Nat.pow 2 23 * Nat.pow 2 e + Nat.pow 2 80) c && Nat.ble c (Nat.pow 2 24 * Nat.pow 2 e) &&
    Nat.ble (Nat.pow 2 81 + 1) ((c + Nat.pow 2 80 + Nat.pow 2 e / 2) % Nat.pow 2 e)

theorem natPow_eq (a b : ℕ) : Nat.pow a b = a ^ b := rfl

theorem offMidpoints_iff (e c : ℕ) :
    offMidpoints e c = true ↔
      2 ^ 23 * 2 ^ e + 2 ^ 80 ≤ c ∧ c ≤ 2 ^ 24 * 2 ^ e ∧ 2 ^ 81 < (c + 2 ^ 80 + 2 ^ e / 2) % 2 ^ e := by
  simp only [offMidpoints, Bool.and_eq_true, Nat.ble_eq, and_assoc, Nat.succ_le_iff, natPow_eq]

/-- All values less than `2^80` from `c`, in units of 2^-128, are strictly nearest to one pattern. -/
def RoundsAlike (c : ℕ) : Prop :=
  2 ^ 80 ≤ c ∧ ∃ b, ∀ y : ℝ, |y - c| < 2 ^ 80 → StrictlyNearest (2 ^ 21 * y) b

theorem roundsAlike_of_offMidpoints {e c : ℕ} (h : offMidpoints e c = true) : RoundsAlike c := by
  obtain ⟨hlow, hhigh, hoff⟩ := (offMidpoints_iff e c).1 h
  have hulp : 0 < 2 ^ e := by positivity
  have hrem := Nat.mod_lt (c + 2 ^ 80 + 2 ^ e / 2) hulp
  have hhalf : 2 ^ e / 2 + 2 ^ e / 2 = 2 ^ e := by
    rcases Nat.eq_zero_or_pos e with rfl | he
    · omega
    · have heven : 2 ∣ 2 ^ e := dvd_pow_self 2 he.ne'
      omega
  have hmlow : 2 ^ 23 ≤ (c + 2 ^ 80 + 2 ^ e / 2) / 2 ^ e := (Nat.le_div_iff_mul_le hulp).2 (by omega)
  have hmhigh : (c + 2 ^ 80 + 2 ^ e / 2) / 2 ^ e < 2 ^ 24 + 1 := (Nat.div_lt_iff_lt_mul hulp).2 (by omega)
  have hdiv := Nat.div_add_mod (c + 2 ^ 80 + 2 ^ e / 2) (2 ^ e)
  generalize (c + 2 ^ 80 + 2 ^ e / 2) / 2 ^ e = m at *
  generalize (c + 2 ^ 80 + 2 ^ e / 2) % 2 ^ e = r at *
  generalize 2 ^ e / 2 = half at *
  refine ⟨by omega, (e + 21) * 2 ^ 23 + m, fun y hy => ?_⟩
  obtain ⟨hy, hy'⟩ := abs_lt.1 hy
  have hdivR : (2 : ℝ) ^ e * m + r = c + 2 ^ 80 + half := by exact_mod_cast hdiv
  have hhalfR : (half : ℝ) + half = 2 ^ e := by exact_mod_cast hhalf
  have hoffR : (2 : ℝ) ^ 81 < r := by exact_mod_cast hoff
  have hremR : (r : ℝ) < 2 ^ e := by exact_mod_cast hrem
  have hlowR : (2 : ℝ) ^ 23 * 2 ^ e + 2 ^ 80 ≤ c := by exact_mod_cast hlow
  have hulpR : (0 : ℝ) < 2 ^ e := by positivity
  apply strictlyNearest_mantissa hmlow (by omega) <;> rw [pow_add]
  · linarith
  · linarith
  · linarith

theorem strictlyNearest_roundFixed {x : ℤ} {c : ℕ} {y : ℝ} (hc : RoundsAlike c) (hx : |(x : ℝ) - c| < 2 ^ 80)
    (hy : |y - c| < 2 ^ 80) : StrictlyNearest (2 ^ 21 * y) (roundFixed x) := by
  obtain ⟨hlow, b, hb⟩ := hc
  have hlow' : (2 : ℝ) ^ 80 ≤ c := by exact_mod_cast hlow
  have hxpos : 0 ≤ x := by
    have hreal : (0 : ℝ) ≤ x := by linarith [(abs_lt.1 hx).1]
    exact_mod_cast hreal
  have hround : roundFixed x = b := by
    apply nearestBits_eq one_pos
    have hcast : ((x.toNat * 2 ^ 21 : ℕ) : ℝ) / (1 : ℕ) = 2 ^ 21 * x := by
      have htoNat : ((x.toNat : ℕ) : ℝ) = x := by exact_mod_cast Int.toNat_of_nonneg hxpos
      rw [Nat.cast_mul, htoNat]
      norm_num [mul_comm]
    rw [hcast]
    exact hb x hx
  rw [hround]
  exact hb y hy

/-! ## Turning through the first octant -/

/-- `e^(iθ)` at the angle of entry `r`, in units of 2^-128. -/
noncomputable def scaledRoot (r : ℕ) : ℂ := ((2 ^ 128 : ℝ) : ℂ) * Complex.exp (rootAngle r * Complex.I)

@[simp] theorem scaledRoot_re (r : ℕ) : (scaledRoot r).re = 2 ^ 128 * Real.cos (rootAngle r) := by
  rw [scaledRoot, Complex.re_ofReal_mul, Complex.exp_ofReal_mul_I_re]

@[simp] theorem scaledRoot_im (r : ℕ) : (scaledRoot r).im = 2 ^ 128 * Real.sin (rootAngle r) := by
  rw [scaledRoot, Complex.im_ofReal_mul, Complex.exp_ofReal_mul_I_im]

theorem norm_scaledRoot (r : ℕ) : ‖scaledRoot r‖ = 2 ^ 128 := by
  rw [scaledRoot, norm_mul, Complex.norm_exp_ofReal_mul_I, mul_one, Complex.norm_real, Real.norm_eq_abs,
    abs_of_pos (by positivity)]

theorem scaledRoot_succ (r : ℕ) : scaledRoot (r + 1) = scaledRoot r * scaledRoot 1 / ((2 ^ 128 : ℝ) : ℂ) := by
  have hangle : (rootAngle (r + 1) : ℂ) * Complex.I = rootAngle r * Complex.I + rootAngle 1 * Complex.I := by
    simp only [rootAngle]
    push_cast
    ring
  have hne : ((2 ^ 128 : ℝ) : ℂ) ≠ 0 := by norm_num
  rw [scaledRoot, scaledRoot, scaledRoot, hangle, Complex.exp_add]
  field_simp

/-- The vector of two fixed-point coordinates. -/
def fixedVector (c s : ℕ) : ℂ := ⟨c, s⟩

/-- The vector has turned to the angle of entry `r`, with an error of at most 2^64 units a turn. -/
def Tracks (r c s : ℕ) : Prop := ‖fixedVector c s - scaledRoot r‖ ≤ r * 2 ^ 64

/-- The cosine of one turn, the model's own of entry 1. -/
def cosTurn : ℕ := 340282365357037221779282487371359009126

/-- The sine of one turn. -/
def sinTurn : ℕ := 32624163282081701561065576602700777

theorem cosFixed_one : cosFixed 128 24 (twiddleAngle 1) = cosTurn := by decide +kernel

theorem sinFixed_one : sinFixed 128 24 (twiddleAngle 1) = sinTurn := by decide +kernel

/-- The cosine after one more turn. -/
def turnCos (c s : ℕ) : ℕ := (c * cosTurn - s * sinTurn) / Nat.pow 2 128

/-- The sine after one more turn. -/
def turnSin (c s : ℕ) : ℕ := (c * sinTurn + s * cosTurn) / Nat.pow 2 128

theorem norm_turn_sub_le : ‖fixedVector cosTurn sinTurn - scaledRoot 1‖ ≤ 2 ^ 63 := by
  have hcos := abs_cosFixed_twiddleAngle_sub_le (r := 1) (by norm_num)
  have hsin := abs_sinFixed_twiddleAngle_sub_le (r := 1) (by norm_num)
  rw [cosFixed_one] at hcos
  rw [sinFixed_one] at hsin
  refine (Complex.norm_le_abs_re_add_abs_im _).trans ?_
  rw [Complex.sub_re, Complex.sub_im, scaledRoot_re, scaledRoot_im]
  exact (add_le_add hcos hsin).trans_eq (by norm_num)

theorem tracks_one : Tracks 1 cosTurn sinTurn :=
  norm_turn_sub_le.trans (by norm_num)

/-- Rounding the product of two vectors moves each coordinate by less than one unit. -/
theorem norm_turn_round_le {c s : ℕ} (h : s * sinTurn ≤ c * cosTurn) :
    ‖fixedVector (turnCos c s) (turnSin c s) -
      fixedVector c s * fixedVector cosTurn sinTurn / ((2 ^ 128 : ℝ) : ℂ)‖ ≤ 2 := by
  have hre := abs_natDiv_sub_le (c * cosTurn - s * sinTurn) (n := 2 ^ 128) (by positivity)
  have him := abs_natDiv_sub_le (c * sinTurn + s * cosTurn) (n := 2 ^ 128) (by positivity)
  simp only [Nat.cast_sub h, Nat.cast_add, Nat.cast_mul, Nat.cast_pow, Nat.cast_ofNat] at hre him
  refine (Complex.norm_le_abs_re_add_abs_im _).trans ?_
  rw [Complex.sub_re, Complex.sub_im, Complex.div_ofReal_re, Complex.div_ofReal_im, Complex.mul_re, Complex.mul_im]
  exact (add_le_add hre him).trans_eq one_add_one_eq_two

theorem Tracks.turn {r c s : ℕ} (h : Tracks r c s) (hr : r ≤ 8192) (hle : s * sinTurn ≤ c * cosTurn) :
    Tracks (r + 1) (turnCos c s) (turnSin c s) := by
  have hround := norm_turn_round_le hle
  have hturn := norm_turn_sub_le
  set one : ℂ := ((2 ^ 128 : ℝ) : ℂ)
  set v := fixedVector c s
  set w := fixedVector cosTurn sinTurn
  have hsplit : fixedVector (turnCos c s) (turnSin c s) - scaledRoot (r + 1) =
      (fixedVector (turnCos c s) (turnSin c s) - v * w / one) + (v - scaledRoot r) * w / one +
        scaledRoot r * (w - scaledRoot 1) / one := by
    rw [scaledRoot_succ]
    ring
  have hw : ‖w‖ ≤ 2 ^ 128 + 2 ^ 63 := by
    have htri := norm_add_le (w - scaledRoot 1) (scaledRoot 1)
    rw [sub_add_cancel, norm_scaledRoot] at htri
    linarith
  have hone : ‖one‖ = 2 ^ 128 := by
    rw [Complex.norm_real, Real.norm_eq_abs, abs_of_pos (by positivity)]
  have hfirst : ‖(v - scaledRoot r) * w / one‖ ≤ r * 2 ^ 64 + 2 ^ 12 := by
    rw [norm_div, norm_mul, hone, div_le_iff₀ (by positivity)]
    have hr' : (r : ℝ) ≤ 8192 := by exact_mod_cast hr
    calc ‖v - scaledRoot r‖ * ‖w‖ ≤ r * 2 ^ 64 * (2 ^ 128 + 2 ^ 63) := by gcongr; exact h
      _ ≤ (r * 2 ^ 64 + 2 ^ 12) * 2 ^ 128 := by linarith
  have hsecond : ‖scaledRoot r * (w - scaledRoot 1) / one‖ ≤ 2 ^ 63 := by
    rw [norm_div, norm_mul, hone, norm_scaledRoot, mul_div_cancel_left₀ _ (by positivity)]
    exact hturn
  rw [Tracks, hsplit]
  refine (norm_add₃_le).trans ?_
  push_cast
  linarith

/-- Turns the vector `n` times, checking at each angle that both coordinates are off the midpoints. `e` is the exponent
of the last place of the sine; it is checked too. -/
def sweep : ℕ → ℕ → ℕ → ℕ → Bool
  | 0, _, _, _ => true
  | n + 1, e, c, s =>
    offMidpoints 104 c && offMidpoints e s && Nat.ble (s * sinTurn) (c * cosTurn) &&
      sweep n (e + turnSin c s / Nat.pow 2 (e + 24)) (turnCos c s) (turnSin c s)

/-- At each angle of a sweep that succeeds there is a vector whose coordinates round like all around them. -/
theorem sweep_spec {n e c s r : ℕ} (h : sweep n e c s = true) (hv : Tracks r c s) (hr : r + n ≤ 8193) (k : ℕ)
    (hk : k < n) :
    ∃ c' s', Tracks (r + k) c' s' ∧ RoundsAlike c' ∧ RoundsAlike s' := by
  induction n generalizing e c s r k with
  | zero => omega
  | succ n ih =>
    simp only [sweep, Bool.and_eq_true, Nat.ble_eq] at h
    obtain ⟨⟨⟨hc, hs⟩, hle⟩, hrest⟩ := h
    rcases k with _ | k
    · exact ⟨c, s, hv, roundsAlike_of_offMidpoints hc, roundsAlike_of_offMidpoints hs⟩
    · rw [show r + (k + 1) = r + 1 + k by ring]
      exact ih hrest (hv.turn (by omega) hle) (by omega) k (by omega)

/-- The calculation for the first octant. -/
theorem sweep_octant : sweep 8192 91 cosTurn sinTurn = true := by decide +kernel

/-- Near the exact cosine of every entry inside the first quadrant lies a value that rounds like all around it. In the
second octant the cosine is the sine of the mirrored angle. -/
theorem exists_roundsAlike_cos {r : ℕ} (hr : 1 ≤ r) (hr' : r < 16384) :
    ∃ c, RoundsAlike c ∧ |(c : ℝ) - 2 ^ 128 * Real.cos (rootAngle r)| ≤ 2 ^ 77 := by
  have hoctant : ∀ k, 1 ≤ k → k ≤ 8192 → ∃ c s, Tracks k c s ∧ RoundsAlike c ∧ RoundsAlike s := by
    intro k hk hk'
    have hspec := sweep_spec sweep_octant tracks_one le_rfl (k - 1) (by omega)
    rwa [Nat.add_sub_cancel' hk] at hspec
  have herror : ∀ k : ℕ, k ≤ 8192 → (k : ℝ) * 2 ^ 64 ≤ 2 ^ 77 := by
    intro k hk
    have hkR : (k : ℝ) ≤ 8192 := by exact_mod_cast hk
    linarith
  rcases Nat.lt_or_ge 8192 r with hsecond | hfirst
  · obtain ⟨c, s, hv, -, hs⟩ := hoctant (16384 - r) (by omega) (by omega)
    refine ⟨s, hs, ?_⟩
    have him := (Complex.abs_im_le_norm _).trans (hv.trans (herror _ (by omega)))
    rw [Complex.sub_im, scaledRoot_im, rootAngle_quarter_sub hr'.le, Real.sin_pi_div_two_sub] at him
    exact him
  · obtain ⟨c, s, hv, hc, -⟩ := hoctant r hr hfirst
    refine ⟨c, hc, ?_⟩
    have hre := (Complex.abs_re_le_norm _).trans (hv.trans (herror _ hfirst))
    rw [Complex.sub_re, scaledRoot_re] at hre
    exact hre

/-! ## The entries of a quadrant -/

theorem magnitude_one32 : magnitude 0x3F800000 = 2 ^ 149 := by decide +kernel

theorem quadrantCos_zero : quadrantCos 0 = 0x3F800000 := by decide +kernel

theorem quadrantSin_zero : quadrantSin 0 = 0 := by decide +kernel

/-- The model's fixed-point value and the exact one, both close to a value that rounds like all around it. -/
theorem strictlyNearest_of_roundsAlike {x : ℤ} {c : ℕ} {y : ℝ} (hc : RoundsAlike c)
    (hcy : |(c : ℝ) - 2 ^ 128 * y| ≤ 2 ^ 77) (hxy : |(x : ℝ) - 2 ^ 128 * y| ≤ 2 ^ 62) :
    StrictlyNearest (2 ^ 149 * y) (roundFixed x) := by
  have hscale : (2 : ℝ) ^ 149 * y = 2 ^ 21 * (2 ^ 128 * y) := by ring
  rw [hscale]
  rw [abs_le] at hcy hxy
  apply strictlyNearest_roundFixed hc <;> rw [abs_lt] <;> constructor <;> linarith

theorem strictlyNearest_quadrantCos {r : ℕ} (hr : r < 16384) :
    StrictlyNearest (2 ^ 149 * Real.cos (rootAngle r)) (quadrantCos r) := by
  rcases Nat.eq_zero_or_pos r with rfl | hpos
  · have hone : (2 : ℝ) ^ 149 * Real.cos (rootAngle 0) = magnitude 0x3F800000 := by
      rw [magnitude_one32]
      norm_num [rootAngle]
    rw [hone, quadrantCos_zero]
    exact strictlyNearest_magnitude _
  · obtain ⟨c, hc, hclose⟩ := exists_roundsAlike_cos hpos hr
    exact strictlyNearest_of_roundsAlike hc hclose (abs_cosFixed_twiddleAngle_sub_le hr.le)

theorem strictlyNearest_quadrantSin {r : ℕ} (hr : r < 16384) :
    StrictlyNearest (2 ^ 149 * Real.sin (rootAngle r)) (quadrantSin r) := by
  rcases Nat.eq_zero_or_pos r with rfl | hpos
  · have hzero : (2 : ℝ) ^ 149 * Real.sin (rootAngle 0) = magnitude 0 := by simp [rootAngle, magnitude]
    rw [hzero, quadrantSin_zero]
    exact strictlyNearest_magnitude _
  · obtain ⟨c, hc, hclose⟩ := exists_roundsAlike_cos (r := 16384 - r) (by omega) (by omega)
    rw [rootAngle_quarter_sub hr.le, Real.cos_pi_div_two_sub] at hclose
    exact strictlyNearest_of_roundsAlike hc hclose (abs_sinFixed_twiddleAngle_sub_le hr.le)

theorem rootAngle_mem {r : ℕ} (hr : r < 16384) : 0 ≤ rootAngle r ∧ rootAngle r ≤ Real.pi / 2 := by
  have hr' : (r : ℝ) ≤ 16384 := by exact_mod_cast hr.le
  have hpi := Real.pi_pos
  simp only [rootAngle]
  constructor
  · positivity
  · rw [div_le_iff₀ (by norm_num)]
    nlinarith

/-! ## The entries of the table -/

/-- What R127 asks of each half of an entry: the pattern nearest to the exact value, +0.0 for an exact zero. -/
def IsRomValue (x : ℝ) (w : Word) : Prop := IsNearest x w ∧ (x = 0 → w = 0x00000000)

theorem StrictlyNearest.le_of_le_magnitude {y : ℝ} {b c : Nat} (h : StrictlyNearest y b) (hy : y ≤ magnitude c) :
    b ≤ c := by
  by_contra hlt
  have hself : (magnitude c : ℝ) ≤ magnitude b := magnitude_cast_strictMono.monotone (by omega)
  have hpred : (magnitude c : ℝ) ≤ magnitude (b - 1) := magnitude_cast_strictMono.monotone (by omega)
  linarith [h.1 (by omega)]

/-- The pattern of zero is the nearest one with either sign. -/
theorem IsNearest.posZero {x : ℝ} {neg : Bool} (h : IsNearest x (withSign neg 0)) :
    IsNearest x (withSign false 0) := by
  obtain ⟨-, hnear, htie⟩ := h
  have hval : val32 (withSign neg 0) = val32 (withSign false 0) := by simp [val32, magnitude]
  rw [hval] at hnear htie
  exact ⟨by unfold Finite32; decide, hnear, fun v hv hne heq => by decide⟩

theorem isNearest_signedOrZero (neg : Bool) {y : ℝ} {b : ℕ} (h : StrictlyNearest y b) (hy : 0 ≤ y) (hb : b < infBits) :
    IsNearest (signFactor neg * y / 2 ^ 149) (signedOrZero neg b) := by
  have hsigned := isNearest_withSign neg h hy hb
  rcases Nat.eq_zero_or_pos b with rfl | hpos
  · rw [signedOrZero, bne_self_eq_false, Bool.and_false]
    exact hsigned.posZero
  · rwa [signedOrZero, bne_iff_ne.2 hpos.ne', Bool.and_true]

/-- A value between 0 and 1, with a sign, and its pattern. -/
theorem isRomValue_signedOrZero (neg : Bool) {x : ℝ} {b : ℕ} (h : StrictlyNearest (2 ^ 149 * x) b) (hx : 0 ≤ x)
    (hx' : x ≤ 1) : IsRomValue (signFactor neg * x) (signedOrZero neg b) := by
  have hb : b ≤ 0x3F800000 := by
    apply h.le_of_le_magnitude
    rw [magnitude_one32]
    push_cast
    linarith
  have hvalue : signFactor neg * x = signFactor neg * (2 ^ 149 * x) / 2 ^ 149 := by ring
  constructor
  · rw [hvalue]
    exact isNearest_signedOrZero neg h (by positivity) (hb.trans_lt (by decide))
  · intro hzero
    have hsign : signFactor neg ≠ 0 := by cases neg <;> norm_num [signFactor]
    obtain rfl : x = 0 := (mul_eq_zero.1 hzero).resolve_left hsign
    obtain rfl : b = 0 := Nat.le_zero.1 (h.le_of_le_magnitude (by simp))
    cases neg <;> rfl

/-- A quarter turn takes (cos, sin) to (-sin, cos). -/
theorem cos_sin_quarter_turn (k r : ℕ) :
    Real.cos (rootAngle (16384 * (k + 1) + r)) = -Real.sin (rootAngle (16384 * k + r)) ∧
      Real.sin (rootAngle (16384 * (k + 1) + r)) = Real.cos (rootAngle (16384 * k + r)) := by
  have hangle : rootAngle (16384 * (k + 1) + r) = rootAngle (16384 * k + r) + Real.pi / 2 := by
    rw [← rootAngle_add_quarter]
    congr 1
    ring
  rw [hangle, Real.cos_add_pi_div_two, Real.sin_add_pi_div_two]
  exact ⟨rfl, rfl⟩

theorem isRomValue_quadrantCos {r : ℕ} (hr : r < 16384) (neg : Bool) :
    IsRomValue (signFactor neg * Real.cos (rootAngle r)) (signedOrZero neg (quadrantCos r)) := by
  obtain ⟨hangle, hangle'⟩ := rootAngle_mem hr
  exact isRomValue_signedOrZero neg (strictlyNearest_quadrantCos hr)
    (Real.cos_nonneg_of_neg_pi_div_two_le_of_le (by linarith) hangle') (Real.cos_le_one _)

theorem isRomValue_quadrantSin {r : ℕ} (hr : r < 16384) (neg : Bool) :
    IsRomValue (signFactor neg * Real.sin (rootAngle r)) (signedOrZero neg (quadrantSin r)) := by
  obtain ⟨hangle, hangle'⟩ := rootAngle_mem hr
  exact isRomValue_signedOrZero neg (strictlyNearest_quadrantSin hr)
    (Real.sin_nonneg_of_nonneg_of_le_pi hangle (by linarith)) (Real.sin_le_one _)

/-- The entry of each quadrant, from those of the first by quarter turns. -/
theorem isRomValue_twrom {q r : ℕ} (hq : q < 4) (hr : r < 16384) :
    IsRomValue (Real.cos (rootAngle (16384 * q + r))) (twrom (16384 * q + r)).re ∧
      IsRomValue (Real.sin (rootAngle (16384 * q + r))) (twrom (16384 * q + r)).im := by
  have hquadrant : (16384 * q + r) / (Config.nmax / 4) = q := by
    rw [show Config.nmax / 4 = 16384 from rfl]
    omega
  have hrest : (16384 * q + r) % (Config.nmax / 4) = r := by
    rw [show Config.nmax / 4 = 16384 from rfl]
    omega
  simp only [twrom, hquadrant, hrest]
  have hcos := isRomValue_quadrantCos hr
  have hsin := isRomValue_quadrantSin hr
  simp only [Bool.forall_bool, signFactor, Bool.false_eq_true, if_false, if_true, one_mul, neg_one_mul] at hcos hsin
  obtain ⟨hcos, hcos'⟩ := hcos
  obtain ⟨hsin, hsin'⟩ := hsin
  obtain ⟨hcos₁, hsin₁⟩ := cos_sin_quarter_turn 0 r
  obtain ⟨hcos₂, hsin₂⟩ := cos_sin_quarter_turn 1 r
  obtain ⟨hcos₃, hsin₃⟩ := cos_sin_quarter_turn 2 r
  simp only [Nat.reduceAdd, mul_zero, zero_add] at hcos₁ hsin₁ hcos₂ hsin₂ hcos₃ hsin₃
  obtain rfl | rfl | rfl | rfl : q = 0 ∨ q = 1 ∨ q = 2 ∨ q = 3 := by omega
  · rw [mul_zero, zero_add]
    exact ⟨hcos, hsin⟩
  · rw [hcos₁, hsin₁]
    exact ⟨hsin', hcos⟩
  · rw [hcos₂, hsin₂, hcos₁, hsin₁]
    exact ⟨hcos', hsin'⟩
  · rw [hcos₃, hsin₃, hcos₂, hsin₂, hcos₁, hsin₁, neg_neg]
    exact ⟨hsin, hcos'⟩

/-- Settles O42: quadrant by quadrant; the entries on the axes by evaluation. -/
theorem twiddleRomIsCorrectlyRounded : Obligations.TwiddleRomIsCorrectlyRounded := by
  intro j hj
  have hj' : 16384 * (j / 16384) + j % 16384 = j := Nat.div_add_mod j 16384
  obtain ⟨⟨hre, hre'⟩, him, him'⟩ := isRomValue_twrom (q := j / 16384) (r := j % 16384) (by omega) (by omega)
  rw [hj'] at hre hre' him him'
  refine ⟨hre, him, hre', him', ?_, ?_, ?_, ?_⟩ <;> rintro rfl <;> decide +kernel

end Sys2Proof.Machine
end

section
/-! PROOFS. A command's check and its completion, for every command at once: the check as a chain of tests
(60_exceptions.md R248), and what a completion leaves at the destination and everywhere else (10_state.md R46). -/

namespace Sys2Proof.Machine

/-! ## The check of a command without engine (R245, R248) -/

theorem outOfRange_eq (b : Buffer) (dmemWords : Nat) :
    b.outOfRange dmemWords = decide (b.base + b.len > dmemWords) := rfl

theorem firstError_cons_decide (p : Prop) [Decidable p] (e : CmdError) (cs : List (Bool × CmdError)) :
    firstError ((decide p, e) :: cs) = if p then some e else firstError cs := by
  simp only [firstError, decide_eq_true_eq]

/-- A command other than CFG that needs no engine is tested for its sizes and then for its ranges. -/
theorem check_without_engine {i : Instr} (hcfg : i ≠ .cfg) (hengine : needsEngine i = false) (l : Latch)
    (dmemWords : Nat) :
    check i l dmemWords = firstError ((sizeConditions i l).map (fun c => (c.1, ⟨.sizeMismatch, c.2⟩)) ++
      (rangeConditions i l dmemWords).map (fun c => (c.1, ⟨.addressRange, c.2⟩))) := by
  simp [check, conditions, firstError, hcfg, hengine]

/-! ## The completion of a command (R46) -/

/-- The state after a completion reads as the state before it with the new DMEM. -/
theorem readWord_completedWith (s : State) (m : Memory) (w : Nat) :
    readWord (completedWith s m) w = readWord { s with dmem := m } w := rfl

theorem cplxAt_completedWith (s : State) (m : Memory) (b i : Nat) :
    cplxAt (completedWith s m) b i = cplxAt { s with dmem := m } b i := rfl

theorem keepsBytes_completedWith (s : State) (b n : Nat) (ws : List Word) (h : ws.length = n) :
    KeepsBytesOutside s (completedWith s (s.dmem.writeWords b ws)) b n :=
  keepsBytes_writeWords s b n ws h

section
variable {i : Instr} {l : Latch} {s : State} {n : Nat}

/-- A command whose result is the words `ws`, without a failing lag, stores them and completes. -/
theorem exec_completes_with_words (hs : s.seq = .busy l) (hc : s.clobbered = []) (hd : usesD i = true) {ws : List Word}
    (hr : resultOf i l s = ⟨ws, none⟩) :
    exec i s = .next (completedWith s (s.dmem.writeWords l.dAddr.toNat ws)) := by
  have hexec := exec_completes hs hc hd (by rw [hr])
  rwa [hr] at hexec

/-- A command whose result is `n` words, word `k` being `f k`, completes with them at its destination and changes no
byte outside. -/
theorem completes_with_words (hs : s.seq = .busy l) (hc : s.clobbered = []) (hd : usesD i = true) {ws : List Word}
    {f : Nat → Word} (hr : resultOf i l s = ⟨ws, none⟩) (hlen : ws.length = n)
    (hf : ∀ k, k < n → ws[k]? = some (f k)) :
    ∃ m, exec i s = .next (completedWith s m) ∧
      (∀ k, k < n → readWord (completedWith s m) (l.dAddr.toNat + k) = f k) ∧
      KeepsBytesOutside s (completedWith s m) l.dAddr.toNat n := by
  refine ⟨_, exec_completes_with_words hs hc hd hr, fun k hk => ?_, keepsBytes_completedWith s _ n ws hlen⟩
  rw [readWord_completedWith, readWord_writeWords, if_pos (by omega), Nat.add_sub_cancel_left, hf k hk]
  rfl

/-- The same for `n` complex elements, element `k` being `f k`. -/
theorem completes_with_elements (hs : s.seq = .busy l) (hc : s.clobbered = []) (hd : usesD i = true) {zs : List Cplx}
    {f : Nat → Cplx} (hr : resultOf i l s = ⟨cplxWords zs, none⟩) (hlen : zs.length = n)
    (hf : ∀ k, k < n → elem zs k = f k) :
    ∃ m, exec i s = .next (completedWith s m) ∧
      (∀ k, k < n → cplxAt (completedWith s m) l.dAddr.toNat k = f k) ∧
      KeepsBytesOutside s (completedWith s m) l.dAddr.toNat (2 * n) := by
  refine ⟨_, exec_completes_with_words hs hc hd hr, fun k hk => ?_,
    keepsBytes_completedWith s _ _ _ (by rw [length_cplxWords, hlen])⟩
  rw [cplxAt_completedWith, cplxAt_writeWords s _ zs (hlen ▸ hk), hf k hk]

end

end Sys2Proof.Machine
end

section
/-! PROOFS. The element-wise commands (41_complex_buffer.md R150 to R156): their checks, the elements of their results,
and the obligations that follow from what every completion does. -/

namespace Sys2Proof.Machine

/-! ## The checks -/

theorem badComplexLength_eq (l : Latch) :
    badComplexLength l = decide (l.aLen.toNat = 0 ∨ l.aLen.toNat % 2 = 1) :=
  (Bool.decide_or _ _).symm

/-- The range conditions of a command that uses A and D alone (R246). -/
theorem firstError_rangeConditions {i : Instr} (hA : usesA i = true) (hB : usesB i = false) (hD : usesD i = true)
    (l : Latch) (dmemWords : Nat) :
    firstError ((rangeConditions i l dmemWords).map fun c => (c.1, ⟨.addressRange, c.2⟩)) =
      if l.aAddr.toNat + l.aLen.toNat > dmemWords then some ⟨.addressRange, 1⟩
      else if l.dAddr.toNat + l.dLen.toNat > dmemWords then some ⟨.addressRange, 3⟩
      else none := by
  simp [rangeConditions, hA, hB, hD, firstError, outOfRange_eq, Latch.bufA, Latch.bufD]

/-- The check of a command that uses A and D alone and has two size conditions, of A and of D. -/
theorem check_of_source_and_destination {i : Instr} {l : Latch} {a d : Prop} [Decidable a] [Decidable d]
    (hcfg : i ≠ .cfg) (hengine : needsEngine i = false) (hA : usesA i = true) (hB : usesB i = false)
    (hD : usesD i = true) (hsizes : sizeConditions i l = [(decide a, 1), (decide d, 3)]) (dmemWords : Nat) :
    check i l dmemWords =
      if a then some ⟨.sizeMismatch, 1⟩
      else if d then some ⟨.sizeMismatch, 3⟩
      else if l.aAddr.toNat + l.aLen.toNat > dmemWords then some ⟨.addressRange, 1⟩
      else if l.dAddr.toNat + l.dLen.toNat > dmemWords then some ⟨.addressRange, 3⟩
      else none := by
  rw [check_without_engine hcfg hengine, hsizes, ← firstError_rangeConditions hA hB hD]
  simp only [List.map_cons, List.map_nil, List.cons_append, List.nil_append, firstError_cons_decide]

/-! ## The elements of the results (R150) -/

theorem elem_expandWords_readWords {n k : Nat} (s : State) (b : Nat) (hk : k < n) :
    elem (expandWords (readWords s b n)) k = ⟨readWord s (b + k), posZero⟩ := by
  simp [elem, expandWords, readWords, List.getD, hk]

theorem elem_sourceA {l : Latch} {k : Nat} (s : State) (hk : k < l.aLen.toNat / 2) :
    elem (sourceA l s) k = cplxAt s l.aAddr.toNat k := elem_readCplx s _ hk

theorem elem_sourceB {l : Latch} {k : Nat} (s : State) (hk : k < l.aLen.toNat / 2) :
    elem (sourceB l s) k = cplxAt s l.bAddr.toNat k := elem_readCplx s _ hk

@[simp] theorem length_sourceA (l : Latch) (s : State) : (sourceA l s).length = l.aLen.toNat / 2 :=
  length_readCplx ..

@[simp] theorem length_sourceB (l : Latch) (s : State) : (sourceB l s).length = l.aLen.toNat / 2 :=
  length_readCplx ..

theorem elem_zipWith (f : Cplx → Cplx → Cplx) {x y : List Cplx} {k : Nat} (hx : k < x.length) (hy : k < y.length) :
    elem (List.zipWith f x y) k = f (elem x k) (elem y k) := by
  simp [elem, List.getD, hx, hy]

theorem getElem?_map_sourceA {l : Latch} {k : Nat} (f : Cplx → Word) (s : State) (hk : k < l.aLen.toNat / 2) :
    ((sourceA l s).map f)[k]? = some (f (cplxAt s l.aAddr.toNat k)) := by
  simp [sourceA, readCplx, cplxAt, hk]

/-! ## Complex commands: EXPAND, CONJ, CMUL -/

/-- Settles O12: element `i` is word `i` of A and +0.0. -/
theorem expandFollowsItsRule : Obligations.ExpandFollowsItsRule := by
  refine ⟨by decide, fun l => check_of_source_and_destination (by decide) rfl rfl rfl rfl rfl, ?_⟩
  intro s l hs hc
  obtain ⟨m, hexec, helem, hframe⟩ := completes_with_elements (i := .expand) hs hc rfl rfl
    (by rw [length_expandWords, length_readWords]) (fun k hk => elem_expandWords_readWords s l.aAddr.toNat hk)
  exact ⟨m, hexec, fun i hi => Cplx.mk.inj (helem i hi), hframe⟩

/-- Settles O13: the conjugate of element `i` of A is its real word and its imaginary word with the sign inverted. -/
theorem conjFollowsItsRule : Obligations.ConjFollowsItsRule := by
  refine ⟨by decide, fun l => check_of_source_and_destination (by decide) rfl rfl rfl rfl ?_, ?_⟩
  · rw [← badComplexLength_eq]
    rfl
  intro s l hs hc
  have hconj : ∀ k, k < l.aLen.toNat / 2 →
      elem ((sourceA l s).map cconj) k = cconj (cplxAt s l.aAddr.toNat k) := fun k hk => by
    rw [elem_map _ (by rwa [length_sourceA]), elem_sourceA s hk]
  obtain ⟨m, hexec, helem, hframe⟩ := completes_with_elements (i := .conj) hs hc rfl rfl
    (by rw [List.length_map, length_sourceA]) hconj
  exact ⟨m, hexec, fun i hi => Cplx.mk.inj (helem i hi), hframe⟩

/-- CMUL's check: three lengths, then three ranges (R153). -/
theorem check_cmul (l : Latch) (dmemWords : Nat) :
    check .cmul l dmemWords =
      if l.aLen.toNat = 0 ∨ l.aLen.toNat % 2 = 1 then some ⟨.sizeMismatch, 1⟩
      else if l.bLen.toNat ≠ l.aLen.toNat then some ⟨.sizeMismatch, 2⟩
      else if l.dLen.toNat ≠ l.aLen.toNat then some ⟨.sizeMismatch, 3⟩
      else if l.aAddr.toNat + l.aLen.toNat > dmemWords then some ⟨.addressRange, 1⟩
      else if l.bAddr.toNat + l.bLen.toNat > dmemWords then some ⟨.addressRange, 2⟩
      else if l.dAddr.toNat + l.dLen.toNat > dmemWords then some ⟨.addressRange, 3⟩
      else none := by
  rw [check_without_engine (by decide) rfl]
  simp only [sizeConditions, rangeConditions, badComplexLength_eq, usesA, usesB, usesD, Bool.true_and, outOfRange_eq,
    List.map_cons, List.map_nil, List.cons_append, List.nil_append, firstError_cons_decide]
  rfl

/-- Settles O14: element `i` is the product of the elements `i` of A and B, by R124's formula. -/
theorem cmulFollowsItsRule : Obligations.CmulFollowsItsRule := by
  refine ⟨by decide, check_cmul, ?_⟩
  intro s l hs hc
  have hprod : ∀ k, k < l.aLen.toNat / 2 → elem (List.zipWith cmul (sourceA l s) (sourceB l s)) k =
      cmul (cplxAt s l.aAddr.toNat k) (cplxAt s l.bAddr.toNat k) := fun k hk => by
    rw [elem_zipWith _ (by rwa [length_sourceA]) (by rwa [length_sourceB]), elem_sourceA s hk, elem_sourceB s hk]
  exact completes_with_elements (i := .cmul) hs hc rfl rfl
    (by rw [List.length_zipWith, length_sourceA, length_sourceB, Nat.min_self]) hprod

/-! ## Real commands: MAG, MAG2, PHASE -/

/-- The check MAG, MAG2 and PHASE share (R154). -/
theorem check_realCommand {i : Instr} (hi : i ∈ [Instr.mag, .mag2, .phase]) (l : Latch) (dmemWords : Nat) :
    check i l dmemWords =
      if l.aLen.toNat = 0 ∨ l.aLen.toNat % 2 = 1 then some ⟨.sizeMismatch, 1⟩
      else if l.dLen.toNat ≠ l.aLen.toNat / 2 then some ⟨.sizeMismatch, 3⟩
      else if l.aAddr.toNat + l.aLen.toNat > dmemWords then some ⟨.addressRange, 1⟩
      else if l.dAddr.toNat + l.dLen.toNat > dmemWords then some ⟨.addressRange, 3⟩
      else none := by
  simp only [List.mem_cons, List.not_mem_nil, or_false] at hi
  rcases hi with rfl | rfl | rfl <;>
  · refine check_of_source_and_destination (by decide) rfl rfl rfl rfl ?_ dmemWords
    rw [← badComplexLength_eq]
    rfl

/-- A command that writes the word `f z` for every element `z` of A. -/
theorem completes_with_map {i : Instr} {l : Latch} {s : State} {f : Cplx → Word} (hs : s.seq = .busy l)
    (hc : s.clobbered = []) (hd : usesD i = true) (hr : resultOf i l s = ⟨(sourceA l s).map f, none⟩) :
    ∃ m, exec i s = .next (completedWith s m) ∧
      (∀ k, k < l.aLen.toNat / 2 →
        readWord (completedWith s m) (l.dAddr.toNat + k) = f (cplxAt s l.aAddr.toNat k)) ∧
      KeepsBytesOutside s (completedWith s m) l.dAddr.toNat (l.aLen.toNat / 2) :=
  completes_with_words hs hc hd hr (by rw [List.length_map, length_sourceA])
    (fun _ hk => getElem?_map_sourceA f s hk)

/-- Settles O15: both commands map an operation over the elements of A. -/
theorem magnitudesFollowTheirRules : Obligations.MagnitudesFollowTheirRules := by
  refine ⟨by decide, by decide, fun l d i hi => check_realCommand ?_ l d, fun s l hs hc => ⟨?_, ?_⟩⟩
  · exact List.mem_append_left [Instr.phase] hi
  · exact completes_with_map (i := .mag) (f := mag) hs hc rfl rfl
  · exact completes_with_map (i := .mag2) (f := mag2) hs hc rfl rfl

/-! ## The sign of PHASE (R156) -/

/-- Above zero and below zero are a magnitude that is not zero and the sign bit. -/
theorem lt32_posZero {x : Word} (hx : isNaN32 x = false) :
    lt32 posZero x = (decide (absBits x ≠ 0) && !signBit x) ∧
      lt32 x posZero = (decide (absBits x ≠ 0) && signBit x) := by
  have hzero : orderKey posZero = 0 := by decide
  have hnan : isNaN32 posZero = false := by decide
  have hkey : orderKey x = signed (signBit x) (absBits x) := rfl
  cases hsign : signBit x <;> simp [lt32, hzero, hnan, hx, hkey, hsign, signed, Nat.pos_iff_ne_zero]

/-- The sign on the bits: NaN, zero, or the sign bit. -/
theorem sign32_eq (x : Word) :
    sign32 x = if isNaN32 x then 0x7FC00000 else if absBits x = 0 then 0x00000000
      else if signBit x then 0xBF800000 else 0x3F800000 := by
  cases hnan : isNaN32 x with
  | true => simp [sign32, hnan, canonicalNaN]
  | false =>
    obtain ⟨habove, hbelow⟩ := lt32_posZero hnan
    rw [sign32, hnan, habove, hbelow]
    by_cases hzero : absBits x = 0
    · simp [hzero, posZero]
    · cases hsign : signBit x <;> simp [hzero]

theorem isZero32_iff (x : Word) : isZero32 x = true ↔ absBits x = 0 := decide_eq_true_iff

/-- R156's formula with the magnitude written out and the sign on the bits. -/
theorem phase_eq (z : Cplx) :
    phase z =
      let m2 := sqrt32 (add32 (mul32 z.re z.re) (mul32 z.im z.im))
      let sg : Word := if isNaN32 z.im then 0x7FC00000 else if absBits z.im = 0 then 0x00000000
        else if signBit z.im then 0xBF800000 else 0x3F800000
      if absBits m2 = 0 then 0x00000000 else mul32 sg (acosF (div32 z.re m2)) := by
  simp only [phase, isZero32_iff, sign32_eq]
  rfl

/-- Settles O16: PHASE maps R156's formula over the elements of A. -/
theorem phaseFollowsItsRule : Obligations.PhaseFollowsItsRule := by
  refine ⟨by decide, check_realCommand (by decide), fun s l hs hc => ?_⟩
  obtain ⟨m, hexec, hwords, hframe⟩ := completes_with_map (i := .phase) (f := phase) hs hc rfl rfl
  exact ⟨m, hexec, fun k hk => (hwords k hk).trans (phase_eq _), hframe⟩

end Sys2Proof.Machine
end

section
/-! PROOFS. The passes of a line (42_fft.md R173, R174): the bit-reversal pass is an involution, and the two elements of
a pair of a stage are the halves of one butterfly. -/

namespace Sys2Proof.Machine

/-! ## The bit-reversal pass (R173) -/

theorem elem_bitrevPass_two_pow {lg j : Nat} (x : List Cplx) (hj : j < 2 ^ lg) :
    elem (bitrevPass (2 ^ lg) x) j = elem x (bitrev j lg) := by
  rw [elem_bitrevPass x hj, Nat.log2_two_pow]

/-- Settles O20: the pass reads element `bitrev j`, and `bitrev` is an involution below `2^lg`. -/
theorem bitrevTwiceRestoresTheLine : Obligations.BitrevTwiceRestoresTheLine := by
  intro lg x hx
  refine ⟨fun j hj => elem_bitrevPass_two_pow x hj, line_ext (length_bitrevPass ..) hx fun j hj => ?_⟩
  rw [elem_bitrevPass_two_pow _ hj, elem_bitrevPass_two_pow _ (bitrev_lt lg j), bitrev_bitrev hj]

/-! ## The pairs of a stage (R174) -/

/-- The element above the lower one of a pair: its place in the block, and that it lies in the line. -/
theorem upper_of_pair {lg m j : Nat} (hm : m + 1 ≤ lg) (hj : j < 2 ^ lg) (hlow : j % 2 ^ (m + 1) < 2 ^ m) :
    (j + 2 ^ m) % 2 ^ (m + 1) = j % 2 ^ (m + 1) + 2 ^ m ∧ j + 2 ^ m < 2 ^ lg := by
  have hsize : 2 ^ (m + 1) = 2 * 2 ^ m := Nat.pow_succ'
  constructor
  · rw [← Nat.mod_add_mod, Nat.mod_eq_of_lt (by omega)]
  · obtain ⟨blocks, hblocks⟩ : 2 ^ (m + 1) ∣ 2 ^ lg := Nat.pow_dvd_pow 2 hm
    have hblock : j / 2 ^ (m + 1) < blocks := Nat.div_lt_of_lt_mul (hblocks ▸ hj)
    have hend : 2 ^ (m + 1) * (j / 2 ^ (m + 1) + 1) ≤ 2 ^ lg := hblocks ▸ Nat.mul_le_mul_left _ hblock
    have hsplit := Nat.div_add_mod j (2 ^ (m + 1))
    rw [Nat.mul_add] at hend
    omega

/-- The butterfly of the pair `(j, j + 2^m)` of stage `m + 1` of a line of `n` elements. -/
def pairBfly (n m : Nat) (x : List Cplx) (j : Nat) : Cplx × Cplx :=
  bfly (elem x j) (elem x (j + 2 ^ m)) (tw n (j % 2 ^ (m + 1) * (n / 2 ^ (m + 1))))

/-- The lower element of a pair receives `hi`, the upper one `lo`. -/
theorem elem_stagePass_pair {lg m j : Nat} (x : List Cplx) (hm : m + 1 ≤ lg) (hj : j < 2 ^ lg)
    (hlow : j % 2 ^ (m + 1) < 2 ^ m) :
    elem (stagePass (2 ^ lg) (m + 1) x) j = (pairBfly (2 ^ lg) m x j).1 ∧
      elem (stagePass (2 ^ lg) (m + 1) x) (j + 2 ^ m) = (pairBfly (2 ^ lg) m x j).2 := by
  obtain ⟨hplace, hline⟩ := upper_of_pair hm hj hlow
  have hhalf : 2 ^ (m + 1) / 2 = 2 ^ m := by rw [Nat.pow_succ, Nat.mul_div_cancel _ Nat.two_pos]
  constructor
  · rw [elem_stagePass _ x hj]
    simp only [stageElem, hhalf, if_pos hlow, pairBfly]
  · rw [elem_stagePass _ x hline]
    simp only [stageElem, hhalf, hplace, Nat.not_lt.2 (Nat.le_add_left ..), if_false, Nat.add_sub_cancel, pairBfly]

/-- Settles O19: the butterfly is its formula, and the elements of a pair are the two halves of their butterfly. -/
theorem stagePairsAreButterflies : Obligations.StagePairsAreButterflies := by
  refine ⟨fun u v w => rfl, fun lg stg x j hpos hle hj hlow => ?_⟩
  obtain ⟨m, rfl⟩ : ∃ m, stg = m + 1 := ⟨stg - 1, by omega⟩
  exact elem_stagePass_pair x hle hj hlow

end Sys2Proof.Machine
end

section
/-! PROOFS. The acceptance checks of the FFT family (42_fft.md R172) and of CFG (R170), and what CFG leaves. -/

namespace Sys2Proof.Machine

/-! ## The FFT family (R172) -/

/-- The five commands of the FFT family in a layout. -/
def InFamily (lay : Layout) (i : Instr) : Prop :=
  i = .fft lay ∨ i = .ifft lay ∨ i = .bitrev lay ∨ (∃ stg, i = .stage lay stg) ∨ i = .norm lay

theorem InFamily.uses {lay : Layout} {i : Instr} (hi : InFamily lay i) :
    needsEngine i = true ∧ usesA i = true ∧ usesB i = false ∧ usesD i = true := by
  rcases hi with rfl | rfl | rfl | ⟨stg, rfl⟩ | rfl <;> exact ⟨rfl, rfl, rfl, rfl⟩

/-- A command that needs an engine is tested for it, then for its sizes and then for its ranges (R245, R248). -/
theorem check_with_engine {i : Instr} (hengine : needsEngine i = true) (l : Latch) (dmemWords : Nat) :
    check i l dmemWords =
      if l.n = 0 then some ⟨.notConfigured, 0⟩
      else firstError ((sizeConditions i l).map (fun c => (c.1, ⟨.sizeMismatch, c.2⟩)) ++
        (rangeConditions i l dmemWords).map (fun c => (c.1, ⟨.addressRange, c.2⟩))) := by
  have hcfg : i ≠ .cfg := by
    rintro rfl
    cases hengine
  simp [check, conditions, firstError, hcfg, hengine]

theorem badGeometry_eq (lay : Layout) (l : Latch) :
    badGeometry lay l =
      decide (l.w.toNat = 0 ∨ l.h.toNat = 0 ∨ lineLen lay l.w.toNat l.h.toNat ≠ l.n.toNat) := by
  simp only [badGeometry, Bool.decide_or, Bool.or_assoc]

/-- The tests every command of the family ends with: the lengths of A and D, the ranges of A and D. -/
def lengthsAndRanges (l : Latch) (dmemWords : Nat) : Option CmdError :=
  if l.aLen.toNat ≠ 2 * l.w.toNat * l.h.toNat then some ⟨.sizeMismatch, 1⟩
  else if l.dLen.toNat ≠ 2 * l.w.toNat * l.h.toNat then some ⟨.sizeMismatch, 3⟩
  else if l.aAddr.toNat + l.aLen.toNat > dmemWords then some ⟨.addressRange, 1⟩
  else if l.dAddr.toNat + l.dLen.toNat > dmemWords then some ⟨.addressRange, 3⟩
  else none

theorem firstError_familyLengths {lay : Layout} {i : Instr} (hi : InFamily lay i) (l : Latch) (dmemWords : Nat) :
    firstError ((familyLengths l).map (fun c => (c.1, ⟨.sizeMismatch, c.2⟩)) ++
      (rangeConditions i l dmemWords).map (fun c => (c.1, ⟨.addressRange, c.2⟩))) = lengthsAndRanges l dmemWords := by
  obtain ⟨-, hA, hB, hD⟩ := hi.uses
  simp only [familyLengths, List.map_cons, List.map_nil, List.cons_append, List.nil_append, firstError_cons_decide,
    firstError_rangeConditions hA hB hD, lengthsAndRanges]

/-- The check of a command of the family other than STAGE. -/
theorem check_of_geometry {lay : Layout} {i : Instr} {l : Latch} (hi : InFamily lay i)
    (hsizes : sizeConditions i l = (badGeometry lay l, 4) :: familyLengths l) (dmemWords : Nat) :
    check i l dmemWords =
      if l.n = 0 then some ⟨.notConfigured, 0⟩
      else if l.w.toNat = 0 ∨ l.h.toNat = 0 ∨ lineLen lay l.w.toNat l.h.toNat ≠ l.n.toNat then
        some ⟨.sizeMismatch, 4⟩
      else lengthsAndRanges l dmemWords := by
  rw [check_with_engine hi.uses.1, hsizes, List.map_cons, List.cons_append, badGeometry_eq, firstError_cons_decide,
    firstError_familyLengths hi]

/-- The check of STAGE, with the stage number after the geometry. -/
theorem check_stage (lay : Layout) (stg : BitVec 5) (l : Latch) (dmemWords : Nat) :
    check (.stage lay stg) l dmemWords =
      if l.n = 0 then some ⟨.notConfigured, 0⟩
      else if l.w.toNat = 0 ∨ l.h.toNat = 0 ∨ lineLen lay l.w.toNat l.h.toNat ≠ l.n.toNat then
        some ⟨.sizeMismatch, 4⟩
      else if stg.toNat > Nat.log2 l.n.toNat then some ⟨.sizeMismatch, 5⟩
      else lengthsAndRanges l dmemWords := by
  have hi : InFamily lay (.stage lay stg) := .inr (.inr (.inr (.inl ⟨stg, rfl⟩)))
  rw [check_with_engine rfl, sizeConditions, List.map_cons, List.map_cons, List.cons_append, List.cons_append,
    badGeometry_eq, firstError_cons_decide, firstError_cons_decide, firstError_familyLengths hi]

/-- Settles O8: engine, geometry, for STAGE its number, and the tests the family shares. -/
theorem familyChecksFollowTheirRule : Obligations.FamilyChecksFollowTheirRule := by
  refine fun lay l dmemWords => ⟨fun i hi => ?_, fun stg => check_stage lay stg l dmemWords⟩
  simp only [List.mem_cons, List.not_mem_nil, or_false] at hi
  rcases hi with rfl | rfl | rfl | rfl <;> exact check_of_geometry (by simp [InFamily]) rfl dmemWords

/-! ## CFG (R170) -/

/-- The supported sizes are the powers of two from `2^1` to `2^16`. -/
theorem sizeSupported_iff (size : Nat) :
    sizeSupported size = true ↔ ∃ k, 1 ≤ k ∧ k ≤ 16 ∧ size = 2 ^ k := by
  have hmin_iff (k : Nat) : Config.nmin ≤ 2 ^ k ↔ 1 ≤ k := Nat.pow_le_pow_iff_right (n := 1) Nat.one_lt_two
  have hmax_iff (k : Nat) : 2 ^ k ≤ Config.nmax ↔ k ≤ 16 := Nat.pow_le_pow_iff_right (m := 16) Nat.one_lt_two
  simp only [sizeSupported, Bool.and_eq_true, decide_eq_true_eq]
  constructor
  · rintro ⟨⟨hmin, hmax⟩, hpow⟩
    have hne : size ≠ 0 := (Nat.lt_of_lt_of_le Nat.two_pos hmin).ne'
    obtain ⟨k, rfl⟩ := (Nat.and_sub_one_eq_zero_iff_isPowerOfTwo hne).1 hpow
    exact ⟨k, (hmin_iff k).1 hmin, (hmax_iff k).1 hmax, rfl⟩
  · rintro ⟨k, hmin, hmax, rfl⟩
    exact ⟨⟨(hmin_iff k).2 hmin, (hmax_iff k).2 hmax⟩,
      (Nat.and_sub_one_eq_zero_iff_isPowerOfTwo (Nat.two_pow_pos k).ne').2 ⟨k, rfl⟩⟩

theorem check_cfg (l : Latch) (dmemWords : Nat) :
    check .cfg l dmemWords = if sizeSupported l.size.toNat = true then none else some ⟨.invalidSize, 0⟩ := by
  cases h : sizeSupported l.size.toNat <;>
    simp [check, conditions, firstError, h, needsEngine, sizeConditions, rangeConditions, usesA, usesB, usesD]

/-- CFG presented while IDLE binds a supported size, and records INVALID_SIZE for any other (R170). -/
theorem exec_cfg_idle {s : State} (hidle : s.seq = .idle) :
    exec .cfg s = .next
      (if sizeSupported s.size.toNat = true then
        { s with cmd := 0x00000001, done := true, errcode := .ok, errinfo := 0, ncur := s.size }
      else { s with cmd := 0x00000001, done := true, errcode := .invalidSize, errinfo := 0 }) := by
  have hcheck : check .cfg (latch (encode .cfg) s) s.dmemWords =
      if sizeSupported s.size.toNat = true then none else some ⟨.invalidSize, 0⟩ := check_cfg _ _
  rw [exec_idle _ hidle]
  by_cases hsize : sizeSupported s.size.toNat = true
  · simp only [accept, hcheck, if_pos hsize]
    rfl
  · simp only [accept, hcheck, if_neg hsize]
    rfl

/-- A bound engine shows itself in STATUS: ENGV, and the logarithm of its size in LOG2N. -/
theorem status_of_bound_size {s : State} {k : Nat} (hk : k ≤ 16) (hn : s.ncur.toNat = 2 ^ k) :
    s.engv = true ∧ s.log2n.toNat = k := by
  have hengv : s.engv = true := by
    rw [State.engv, bne_iff_ne]
    intro h0
    exact (Nat.two_pow_pos k).ne (hn ▸ h0 ▸ rfl)
  refine ⟨hengv, ?_⟩
  rw [State.log2n, hengv, if_pos rfl, hn, Nat.log2_two_pow, BitVec.toNat_ofNat, Nat.mod_eq_of_lt (by omega)]

/-- Settles O11: CFG binds exactly the supported sizes, which are the powers of two of the statement. -/
theorem cfgBindsTheSize : Obligations.CfgBindsTheSize := by
  refine ⟨by decide, fun s hidle => ⟨fun k hmin hmax hsize => ?_, fun hsize => ?_⟩⟩
  · have hsupported := (sizeSupported_iff _).2 ⟨k, hmin, hmax, hsize⟩
    exact ⟨_, by rw [exec_cfg_idle hidle, if_pos hsupported], rfl, status_of_bound_size hmax hsize⟩
  · have hunsupported : ¬ sizeSupported s.size.toNat = true := by
      rw [sizeSupported_iff]
      rintro ⟨k, hmin, hmax, hk⟩
      exact hsize k hmin hmax hk
    rw [exec_cfg_idle hidle, if_neg hunsupported]

end Sys2Proof.Machine
end

section
/-! PROOFS. The FFT family over a layout (42_fft.md R171, R178 to R182): the command words, the one line that holds an
element, and what a completion of the family leaves. -/

namespace Sys2Proof.Machine

/-! ## The command words (30_encoding.md R90) -/

theorem toNat_append_eq_add {m n : Nat} (x : BitVec m) (y : BitVec n) :
    (x ++ y).toNat = x.toNat * 2 ^ n + y.toNat := by
  rw [BitVec.toNat_append, ← Nat.shiftLeft_add_eq_or_of_lt y.isLt, Nat.shiftLeft_eq]

theorem toNat_packCommand (opc : BitVec 8) (lay : BitVec 2) (stg : BitVec 5) :
    (packCommand opc lay stg).toNat = stg.toNat * 0x1000 + lay.toNat * 0x100 + opc.toNat := by
  simp only [packCommand, toNat_append_eq_add, BitVec.ofNat_eq_ofNat, BitVec.toNat_zero]
  omega

/-! ## The line functions -/

/-- The line function of a command of the family, for lines of `n` elements (R178 to R182). -/
def lineFunction : Instr → Nat → List Cplx → List Cplx
  | .fft _ => fftLine
  | .ifft _ => ifftLine
  | .bitrev _ => bitrevPass
  | .stage _ stg => fun n => stagePass n stg.toNat
  | .norm _ => normPass
  | _ => fun _ x => x

theorem InFamily.resultOf_eq {lay : Layout} {i : Instr} (hi : InFamily lay i) (l : Latch) (s : State) :
    resultOf i l s = lineResult lay (lineFunction i) l s := by
  rcases hi with rfl | rfl | rfl | ⟨stg, rfl⟩ | rfl <;> rfl

theorem InFamily.length_lineFunction {lay : Layout} {i : Instr} (hi : InFamily lay i) (n : Nat) (x : List Cplx) :
    (lineFunction i n x).length = n := by
  rcases hi with rfl | rfl | rfl | ⟨stg, rfl⟩ | rfl <;> simp [lineFunction]

/-! ## Lines (R171) -/

/-- Every buffer element is one element of one line. -/
theorem existsUnique_place {lay : Layout} {w h n e : Nat} (hn : lineLen lay w h = n) (he : e < w * h) :
    ∃! p : Nat × Nat, p.1 < lineCount lay w h ∧ p.2 < n ∧ elementOf lay w p.1 p.2 = e := by
  refine ⟨(lineOf lay w e, positionOf lay w e), elementOf_lineOf hn he, ?_⟩
  rintro ⟨r, j⟩ ⟨hr, hj, rfl⟩
  obtain ⟨-, hline, hposition⟩ := elementOf_spec hn hr hj
  rw [hline, hposition]

/-- A line gathered from a buffer in DMEM. -/
theorem gatherLine_readCplx {lay : Layout} {w h n r : Nat} (s : State) (b : Nat) (hn : lineLen lay w h = n)
    (hr : r < lineCount lay w h) :
    gatherLine lay w n (readCplx s b (w * h)) r = (List.range n).map fun k => cplxAt s b (elementOf lay w r k) :=
  List.map_congr_left fun _ hk => elem_readCplx s b (elementOf_spec hn hr (List.mem_range.1 hk)).1

/-! ## The completion -/

/-- A command of the family that passed its check gives every line of D the command's line function of the same line
of A, and changes no byte outside D. -/
theorem family_completes {lay : Layout} {i : Instr} {l : Latch} {s : State} {dmemWords : Nat} (hi : InFamily lay i)
    (hs : s.seq = .busy l) (hc : s.clobbered = []) (hcheck : check i l dmemWords = none) :
    ∃ m, exec i s = .next (completedWith s m) ∧
      (∀ r j, r < lineCount lay l.w.toNat l.h.toNat → j < l.n.toNat →
        cplxAt (completedWith s m) l.dAddr.toNat (elementOf lay l.w.toNat r j) =
          elem (lineFunction i l.n.toNat
            ((List.range l.n.toNat).map fun k => cplxAt s l.aAddr.toNat (elementOf lay l.w.toNat r k))) j) ∧
      KeepsBytesOutside s (completedWith s m) l.dAddr.toNat (2 * l.w.toNat * l.h.toNat) := by
  obtain ⟨-, -, hn, -, -⟩ := check_family hcheck hi
  obtain ⟨m, hexec, helem, hframe⟩ :=
    completes_with_elements hs hc hi.uses.2.2.2 (hi.resultOf_eq l s) (length_applyLines ..) (fun k _ => rfl)
  refine ⟨m, hexec, fun r j hr hj => ?_, by rwa [Nat.mul_assoc]⟩
  rw [helem _ (elementOf_spec hn hr hj).1, elem_applyLines _ _ hn hr hj, gatherLine_readCplx s _ hn hr]

/-- Settles O17: the fields of each word, the place of an element, and the completion the family shares. -/
theorem familyCommandsTransformEveryLine : Obligations.FamilyCommandsTransformEveryLine := by
  intro lay stg s l
  refine ⟨?_, fun c hmem hs hclobbered hcheck => ?_⟩
  · simp only [encode, toNat_packCommand]
    cases lay <;> simp [encodeLayout]
  · obtain ⟨hi, hfun⟩ : InFamily lay c.1 ∧ c.2 = lineFunction c.1 l.n.toNat := by
      simp only [List.mem_cons, List.not_mem_nil, or_false] at hmem
      rcases hmem with rfl | rfl | rfl | rfl | rfl <;> simp [InFamily, lineFunction]
    obtain ⟨-, -, hn, -, -⟩ := check_family hcheck hi
    rw [hfun]
    exact ⟨fun e he => existsUnique_place hn he, family_completes hi hs hclobbered hcheck⟩

end Sys2Proof.Machine
end

section
/-! PROOFS. The passes one after the other (42_fft.md R184): a command of the family presented while IDLE and completed
leaves its line function of the source at the destination; a chain of such commands applies their line functions in turn;
BITREV, the stages and NORM in turn are the forward transform. -/

namespace Sys2Proof.Machine

/-! ## A store over a store of the same length -/

theorem filter_below_writeBytes (m : Memory) (a : Nat) (bs : List Byte) :
    (m.writeBytes a bs).filter (fun c => decide (c.1 < a)) = m.filter fun c => decide (c.1 < a) := by
  have hcells : (cellsFrom a bs).filter (fun c => decide (c.1 < a)) = [] :=
    List.filter_eq_nil_iff.2 fun c hc => by simpa using (mem_cellsFrom hc).1
  have habove : (m.filter fun c => decide (a + bs.length ≤ c.1)).filter (fun c => decide (c.1 < a)) = [] := by
    simp only [List.filter_eq_nil_iff, List.mem_filter, decide_eq_true_eq]
    omega
  rw [Memory.writeBytes, List.filter_append, List.filter_append, hcells, habove, List.filter_filter]
  simp

theorem filter_above_writeBytes (m : Memory) (a : Nat) (bs : List Byte) :
    (m.writeBytes a bs).filter (fun c => decide (a + bs.length ≤ c.1)) =
      m.filter fun c => decide (a + bs.length ≤ c.1) := by
  have hcells : (cellsFrom a bs).filter (fun c => decide (a + bs.length ≤ c.1)) = [] :=
    List.filter_eq_nil_iff.2 fun c hc => by simpa using (mem_cellsFrom hc).2
  have hbelow : (m.filter fun c => decide (c.1 < a)).filter (fun c => decide (a + bs.length ≤ c.1)) = [] := by
    simp only [List.filter_eq_nil_iff, List.mem_filter, decide_eq_true_eq]
    omega
  rw [Memory.writeBytes, List.filter_append, List.filter_append, hcells, hbelow, List.filter_filter]
  simp

theorem writeWords_writeWords (m : Memory) (b : Nat) {vs ws : List Word} (h : vs.length = ws.length) :
    (m.writeWords b vs).writeWords b ws = m.writeWords b ws := by
  have hlen : (vs.flatMap bytesOfWord).length = (ws.flatMap bytesOfWord).length := by
    rw [length_bytesOfWords, length_bytesOfWords, h]
  simp only [Memory.writeWords]
  rw [Memory.writeBytes, filter_below_writeBytes, ← hlen, filter_above_writeBytes, hlen, ← Memory.writeBytes]

/-! ## Reading elements -/

/-- The elements stored at a buffer are the ones read from it. -/
theorem readCplx_writeWords (s : State) (b : Nat) (zs : List Cplx) :
    readCplx { s with dmem := s.dmem.writeWords b (cplxWords zs) } b zs.length = zs :=
  line_ext (length_readCplx ..) rfl fun j hj => by rw [elem_readCplx _ b hj, cplxAt_writeWords s b zs hj]

/-- Equal elements are equal words. -/
theorem readWord_eq_of_readCplx_eq {s t : State} {b n i : Nat} (h : readCplx s b n = readCplx t b n)
    (hi : i < 2 * n) : readWord s (b + i) = readWord t (b + i) := by
  have helem : cplxAt s b (i / 2) = cplxAt t b (i / 2) := by
    rw [← elem_readCplx s b (show i / 2 < n by omega), h, elem_readCplx t b (by omega)]
  obtain ⟨hre, him⟩ := Cplx.mk.inj helem
  obtain heven | hodd := Nat.mod_two_eq_zero_or_one i
  · rwa [show b + 2 * (i / 2) = b + i by omega] at hre
  · rwa [show b + 2 * (i / 2) + 1 = b + i by omega] at him

/-! ## States that are ready for a command of the family -/

/-- IDLE, with registers that pass every check of the family in a layout but the stage number (R172). -/
structure FamilyReady (lay : Layout) (s : State) : Prop where
  idle : s.seq = .idle
  engine : s.ncur ≠ 0
  width : s.width.toNat ≠ 0
  height : s.height.toNat ≠ 0
  line : lineLen lay s.width.toNat s.height.toNat = s.ncur.toNat
  aLen : s.aLen.toNat = 2 * s.width.toNat * s.height.toNat
  dLen : s.dLen.toNat = 2 * s.width.toNat * s.height.toNat
  aRange : s.aAddr.toNat + s.aLen.toNat ≤ s.dmemWords
  dRange : s.dAddr.toNat + s.dLen.toNat ≤ s.dmemWords

/-- A state in which a command of the family is accepted is ready. -/
theorem familyReady_of_check {lay : Layout} {i : Instr} {s : State} {v : Word} (hi : InFamily lay i)
    (hidle : s.seq = .idle) (hcheck : check i (latch v s) s.dmemWords = none) : FamilyReady lay s := by
  obtain ⟨hengine, hA, -, hD⟩ := hi.uses
  obtain ⟨hw, hh, hline, haLen, hdLen⟩ := check_family hcheck hi
  obtain ⟨-, hn, -, -⟩ := check_none hcheck
  obtain ⟨ha, -, hd⟩ := check_range hcheck
  exact ⟨hidle, hn hengine, hw, hh, hline, haLen, hdLen, ha hA, hd hD⟩

/-- The host moves the destination. -/
theorem FamilyReady.withDestination {lay : Layout} {s : State} {d : Word} (h : FamilyReady lay s)
    (hd : d.toNat + s.dLen.toNat ≤ s.dmemWords) : FamilyReady lay { s with dAddr := d } :=
  { h with dRange := hd }

/-- The host moves the source to a place where a destination fits. -/
theorem FamilyReady.withSource {lay : Layout} {s : State} {a : Word} (h : FamilyReady lay s)
    (ha : a.toNat + s.dLen.toNat ≤ s.dmemWords) : FamilyReady lay { s with aAddr := a } :=
  { h with aRange := by rwa [← h.dLen.trans h.aLen.symm] }

/-- A pass over lines of `n` elements: a command of the family, with a stage number the size has. -/
def IsPass (lay : Layout) (n : Nat) (i : Instr) : Prop :=
  InFamily lay i ∧ ∀ stg, i = .stage lay stg → stg.toNat ≤ Nat.log2 n

/-- A state that is ready passes the tests the family shares. -/
theorem FamilyReady.lengthsAndRanges_eq_none {lay : Layout} {s : State} (h : FamilyReady lay s) (v : Word) :
    lengthsAndRanges (latch v s) s.dmemWords = none :=
  (if_neg (not_not.2 h.aLen)).trans <| (if_neg (not_not.2 h.dLen)).trans <|
    (if_neg (Nat.not_lt.2 h.aRange)).trans <| if_neg (Nat.not_lt.2 h.dRange)

/-- Every pass is accepted in a state that is ready. -/
theorem FamilyReady.check_eq_none {lay : Layout} {s : State} {i : Instr} (h : FamilyReady lay s)
    (hi : IsPass lay s.ncur.toNat i) (v : Word) : check i (latch v s) s.dmemWords = none := by
  have hgeometry : ¬ (s.width.toNat = 0 ∨ s.height.toNat = 0 ∨
      lineLen lay s.width.toNat s.height.toNat ≠ s.ncur.toNat) := by
    simp [h.width, h.height, h.line]
  have hlast := h.lengthsAndRanges_eq_none v
  have hplain (hsizes : sizeConditions i (latch v s) = (badGeometry lay (latch v s), 4) :: familyLengths (latch v s)) :
      check i (latch v s) s.dmemWords = none :=
    (check_of_geometry hi.1 hsizes _).trans <| (if_neg h.engine).trans <| (if_neg hgeometry).trans hlast
  rcases hi.1 with rfl | rfl | rfl | ⟨stg, rfl⟩ | rfl
  case inr.inr.inr.inl =>
    exact (check_stage lay stg _ _).trans <| (if_neg h.engine).trans <| (if_neg hgeometry).trans <|
      (if_neg (Nat.not_lt.2 (hi.2 stg rfl))).trans hlast
  all_goals exact hplain rfl

/-! ## A command of the family performed -/

/-- The complex elements of the source. -/
def sourceLines (s : State) : List Cplx := readCplx s s.aAddr.toNat (s.width.toNat * s.height.toNat)

/-- What the command word `v` leaves when it is accepted and completes with the elements `zs` (R46). -/
def performedWith (v : Word) (s : State) (zs : List Cplx) : State :=
  completedWith (clearForCommand v s) (s.dmem.writeWords s.dAddr.toNat (cplxWords zs))

/-- A buffer after the pass `i`: every line is transformed (R171). -/
def passBuffer (lay : Layout) (w h n : Nat) (buf : List Cplx) (i : Instr) : List Cplx :=
  applyLines lay w h n (lineFunction i n) buf

/-- The pass for the geometry and the engine of a state. -/
def passIn (lay : Layout) (s : State) : List Cplx → Instr → List Cplx :=
  passBuffer lay s.width.toNat s.height.toNat s.ncur.toNat

@[simp] theorem length_passIn (lay : Layout) (s : State) (buf : List Cplx) (i : Instr) :
    (passIn lay s buf i).length = s.width.toNat * s.height.toNat := length_applyLines ..

/-- A pass presented in a state that is ready, and completed, leaves the transformed source at the destination. -/
theorem perform_pass {lay : Layout} {s : State} {i : Instr} (h : FamilyReady lay s)
    (hi : IsPass lay s.ncur.toNat i) :
    perform i s = some (performedWith (encode i) s (passIn lay s (sourceLines s) i)) := by
  obtain ⟨hengine, -, -, hD⟩ := hi.1.uses
  have hnop : i ≠ .nop := by rintro rfl; cases hD
  have hcfg : i ≠ .cfg := by rintro rfl; cases hD
  have haccept : exec i s = .next (startBusy (latch (encode i) s) (clearForCommand (encode i) s)) := by
    rw [exec_idle i h.idle]
    simp only [accept, h.check_eq_none hi, afterAccept_eq_startBusy hnop hcfg]
  have hcomplete := exec_completes_with_words (s := startBusy (latch (encode i) s) (clearForCommand (encode i) s))
    rfl rfl hD (hi.1.resultOf_eq (latch (encode i) s) _)
  simp only [perform, haccept, hcomplete]
  rfl

theorem FamilyReady.performedWith {lay : Layout} {s : State} (h : FamilyReady lay s) (v : Word) (zs : List Cplx) :
    FamilyReady lay (performedWith v s zs) :=
  { h with idle := rfl }

/-- The destination of a performed command holds its elements. -/
theorem readCplx_performedWith (v : Word) (s : State) {zs : List Cplx} {n : Nat} (hzs : zs.length = n) :
    readCplx (performedWith v s zs) s.dAddr.toNat n = zs := by
  subst hzs
  exact readCplx_writeWords s s.dAddr.toNat zs

/-- Of two commands with one destination the second alone is seen. -/
theorem performedWith_performedWith (v v' : Word) (s : State) {zs zs' : List Cplx} (h : zs.length = zs'.length) :
    performedWith v' (performedWith v s zs) zs' = performedWith v' s zs' := by
  have hdmem := writeWords_writeWords s.dmem s.dAddr.toNat (vs := cplxWords zs) (ws := cplxWords zs')
    (by rw [length_cplxWords, length_cplxWords, h])
  exact congrArg (completedWith (clearForCommand v' s)) hdmem

/-! ## Passes in a row -/

/-- Passes in a row, each with a destination of its own: the last destination holds the source after all of them. -/
theorem performChain_passes {lay : Layout} {cs : List Instr} {ds : List Word} {s : State}
    (hlen : ds.length = cs.length) (h : FamilyReady lay s) (hok : s.errcode = .ok ∨ cs ≠ [])
    (hcs : ∀ i ∈ cs, IsPass lay s.ncur.toNat i) (hds : ∀ d ∈ ds, d.toNat + s.dLen.toNat ≤ s.dmemWords) :
    ∃ t, performChain (cs.zip ds) s = some t ∧ t.errcode = .ok ∧
      readCplx t (ds.getLastD s.aAddr).toNat (s.width.toNat * s.height.toNat) =
        cs.foldl (passIn lay s) (sourceLines s) := by
  induction cs generalizing ds s with
  | nil =>
    obtain rfl := List.length_eq_zero_iff.1 hlen
    exact ⟨s, rfl, hok.resolve_right (not_not.2 rfl), rfl⟩
  | cons i cs ih =>
    obtain _ | ⟨d, ds⟩ := ds
    · cases hlen
    have hd := hds d List.mem_cons_self
    have hhere := h.withDestination hd
    have hperform := perform_pass hhere (hcs i List.mem_cons_self)
    obtain ⟨t, hchain, hcode, hlast⟩ :=
      ih (ds := ds) (s := { performedWith (encode i) { s with dAddr := d }
          (passIn lay s (sourceLines s) i) with aAddr := d })
        (Nat.succ.inj hlen) ((hhere.performedWith _ _).withSource hd) (.inl rfl)
        (fun j hj => hcs j (List.mem_cons_of_mem _ hj)) (fun e he => hds e (List.mem_cons_of_mem _ he))
    refine ⟨t, ?_, hcode, ?_⟩
    · rw [List.zip_cons_cons, performChain, hperform]
      exact hchain
    · rw [List.getLastD_cons, List.foldl_cons]
      exact hlast.trans (congrArg (cs.foldl (passIn lay s))
        (readCplx_performedWith (encode i) { s with dAddr := d } (length_passIn lay s (sourceLines s) i)))

/-- Passes in a row in one buffer: the state is the one a single command with the last word leaves that transforms by
all of them. -/
theorem performAll_passes {lay : Layout} {cs : List Instr} {s : State} {v : Word} {zs : List Cplx}
    (hplace : s.aAddr = s.dAddr) (h : FamilyReady lay s) (hzs : zs.length = s.width.toNat * s.height.toNat)
    (hcs : ∀ i ∈ cs, IsPass lay s.ncur.toNat i) :
    performAll cs (performedWith v s zs) =
      some (performedWith ((cs.map encode).getLastD v) s (cs.foldl (passIn lay s) zs)) := by
  induction cs generalizing v zs with
  | nil => rfl
  | cons i cs ih =>
    have hsource : sourceLines (performedWith v s zs) = zs :=
      (congrArg (fun a : Word => readCplx (performedWith v s zs) a.toNat _) hplace).trans
        (readCplx_performedWith v s hzs)
    have hperform := perform_pass (h.performedWith v zs) (hcs i List.mem_cons_self)
    rw [hsource, performedWith_performedWith _ _ _ (by rw [hzs, length_passIn]; rfl)] at hperform
    rw [performAll, hperform, List.map_cons, List.getLastD_cons, List.foldl_cons]
    exact ih (length_passIn ..) fun j hj => hcs j (List.mem_cons_of_mem _ hj)

/-! ## The passes of a transform (R176) -/

/-- Passes over a transformed buffer transform each line in turn. -/
theorem foldl_passBuffer {lay : Layout} {w h n : Nat} {cs : List Instr} {f : List Cplx → List Cplx} (b : List Cplx)
    (hn : lineLen lay w h = n) (hf : ∀ x, (f x).length = n) (hcs : ∀ i ∈ cs, InFamily lay i) :
    cs.foldl (passBuffer lay w h n) (applyLines lay w h n f b) =
      applyLines lay w h n (fun x => cs.foldl (fun y i => lineFunction i n y) (f x)) b := by
  induction cs generalizing f with
  | nil => rfl
  | cons i cs ih =>
    rw [List.foldl_cons, passBuffer, applyLines_applyLines b hn hf]
    exact ih (fun x => (hcs i List.mem_cons_self).length_lineFunction n (f x))
      fun j hj => hcs j (List.mem_cons_of_mem _ hj)

/-- A stage number up to `log2` of a 32-bit size is kept by the field STG. -/
theorem toNat_ofNat_stage {n : Word} {k : Nat} (hk : k ≤ Nat.log2 n.toNat) : (BitVec.ofNat 5 k).toNat = k := by
  have hlog : Nat.log2 n.toNat < 32 := by
    obtain h0 | hne := Nat.eq_zero_or_pos n.toNat
    · simp [h0]
    · exact (Nat.log2_lt hne.ne').2 n.isLt
  rw [BitVec.toNat_ofNat, Nat.mod_eq_of_lt (by omega)]

theorem isPass_of_mem_stagesAndNorm {lay : Layout} {n : Word} {i : Instr} (hi : i ∈ stagesAndNorm lay n.toNat) :
    IsPass lay n.toNat i := by
  simp only [stagesAndNorm, List.mem_append, List.mem_map, List.mem_range'_1, List.mem_singleton] at hi
  obtain ⟨k, ⟨-, hk⟩, rfl⟩ | rfl := hi
  · refine ⟨by simp [InFamily], fun stg hstg => ?_⟩
    obtain rfl := (Instr.stage.inj hstg).2
    rw [toNat_ofNat_stage (n := n) (by omega)]
    omega
  · exact ⟨by simp [InFamily], fun stg hstg => by cases hstg⟩

/-- Bit reversal, the stages and the normalisation of a line are its transform. -/
theorem foldl_stagesAndNorm (lay : Layout) (n : Word) (x : List Cplx) :
    (stagesAndNorm lay n.toNat).foldl (fun y i => lineFunction i n.toNat y) (bitrevPass n.toNat x) =
      fftLine n.toNat x := by
  rw [stagesAndNorm, List.foldl_append, List.foldl_map]
  refine congrArg (normPass n.toNat) (List.foldl_ext _ _ _ fun y k hk => ?_)
  rw [List.mem_range'_1] at hk
  rw [lineFunction, toNat_ofNat_stage (n := n) (by omega)]

/-- The buffer after BITREV, the stages and NORM is the buffer after FFT. -/
theorem foldl_passIn_eq_fft {lay : Layout} {s : State} (h : FamilyReady lay s) (b : List Cplx) :
    (stagesAndNorm lay s.ncur.toNat).foldl (passIn lay s) (passIn lay s b (.bitrev lay)) =
      passIn lay s b (.fft lay) := by
  refine (foldl_passBuffer b h.line (length_bitrevPass _) fun i hi => (isPass_of_mem_stagesAndNorm hi).1).trans ?_
  exact congrArg (fun f => applyLines lay _ _ _ f b) (funext (foldl_stagesAndNorm lay s.ncur))

/-! ## The obligation (R184) -/

theorem isPass_bitrev (lay : Layout) (n : Nat) : IsPass lay n (.bitrev lay) :=
  ⟨by simp [InFamily], fun stg hstg => by cases hstg⟩

theorem isPass_fft (lay : Layout) (n : Nat) : IsPass lay n (.fft lay) :=
  ⟨by simp [InFamily], fun stg hstg => by cases hstg⟩

theorem isPass_of_mem_sequence {lay : Layout} {n : Word} {i : Instr}
    (hi : i ∈ Instr.bitrev lay :: stagesAndNorm lay n.toNat) : IsPass lay n.toNat i := by
  obtain rfl | hstages := List.mem_cons.1 hi
  · exact isPass_bitrev lay n.toNat
  · exact isPass_of_mem_stagesAndNorm hstages

/-- With a destination for every command, the last destination holds the words FFT writes there. -/
theorem performChain_eq_fft {lay : Layout} {s : State} {ds : List Word} (h : FamilyReady lay s)
    (hlen : ds.length = Nat.log2 s.ncur.toNat + 2) (hds : ∀ d ∈ ds, d.toNat + s.dLen.toNat ≤ s.dmemWords) :
    ∃ t u, performChain ((.bitrev lay :: stagesAndNorm lay s.ncur.toNat).zip ds) s = some t ∧
      perform (.fft lay) { s with dAddr := ds.getLastD 0 } = some u ∧ t.errcode = .ok ∧ u.errcode = .ok ∧
      ∀ i, i < s.dLen.toNat →
        readWord t ((ds.getLastD 0).toNat + i) = readWord u ((ds.getLastD 0).toNat + i) := by
  have hcount : ds.length = (Instr.bitrev lay :: stagesAndNorm lay s.ncur.toNat).length := by
    rw [hlen]
    simp [stagesAndNorm]
  obtain ⟨d, ds, rfl⟩ := List.exists_cons_of_length_eq_add_one hlen
  obtain ⟨t, hchain, hcode, ht⟩ :=
    performChain_passes hcount h (.inr (List.cons_ne_nil _ _)) (fun _ => isPass_of_mem_sequence) hds
  rw [List.getLastD_cons] at ht ⊢
  have hfft := perform_pass (h.withDestination (hds _ List.getLastD_mem_cons)) (isPass_fft ..)
  have hu := readCplx_performedWith (encode (.fft lay)) { s with dAddr := ds.getLastD d }
    (length_passIn lay s (sourceLines s) (.fft lay))
  refine ⟨t, _, hchain, hfft, hcode, rfl, fun i hi =>
    readWord_eq_of_readCplx_eq ((ht.trans (foldl_passIn_eq_fft h _)).trans hu.symm) ?_⟩
  rwa [h.dLen, Nat.mul_assoc] at hi

/-- With one destination for every command, the state is the one FFT leaves, but for the read-back and the source. -/
theorem performAll_eq_fft {lay : Layout} {s : State} (h : FamilyReady lay s) :
    ∃ t1 t u, perform (.bitrev lay) s = some t1 ∧
      performAll (stagesAndNorm lay s.ncur.toNat) { t1 with aAddr := t1.dAddr } = some t ∧
      perform (.fft lay) s = some u ∧ t = { u with cmd := encode (.norm lay), aAddr := s.dAddr } := by
  have hstages := performAll_passes (s := { s with aAddr := s.dAddr }) (v := encode (.bitrev lay)) rfl
    (h.withSource h.dRange) (length_passIn lay s (sourceLines s) (.bitrev lay))
    (fun _ => isPass_of_mem_stagesAndNorm)
  refine ⟨_, _, _, perform_pass h (isPass_bitrev ..), hstages, perform_pass h (isPass_fft ..), ?_⟩
  have hword : ((stagesAndNorm lay s.ncur.toNat).map encode).getLastD (encode (.bitrev lay)) = encode (.norm lay) := by
    rw [stagesAndNorm, List.map_append, List.map_singleton, List.getLastD_concat]
  rw [← foldl_passIn_eq_fft h, hword]
  rfl

/-- Settles O21: both sequences transform every line by the passes FFT is made of. -/
theorem passSequenceEqualsFft : Obligations.PassSequenceEqualsFft := by
  intro s lay _ hidle hcheck
  have h := familyReady_of_check (isPass_fft lay 0).1 hidle hcheck
  exact ⟨fun ds => performChain_eq_fft h, performAll_eq_fft h⟩

end Sys2Proof.Machine
end

section
/-! PROOFS. The derived transforms (43_derived.md R200 to R204): their checks, ACF's numeric check on the bits, the
elements of their results, and the obligations that follow from what every completion does. -/

namespace Sys2Proof.Machine

/-! ## The checks -/

/-- The check of a command that needs an engine, uses A and D alone and has two size conditions, of A and of D. -/
theorem check_of_engine_source_and_destination {i : Instr} {l : Latch} {a d : Prop} [Decidable a] [Decidable d]
    (hengine : needsEngine i = true) (hA : usesA i = true) (hB : usesB i = false) (hD : usesD i = true)
    (hsizes : sizeConditions i l = [(decide a, 1), (decide d, 3)]) (dmemWords : Nat) :
    check i l dmemWords =
      if l.n = 0 then some ⟨.notConfigured, 0⟩
      else if a then some ⟨.sizeMismatch, 1⟩
      else if d then some ⟨.sizeMismatch, 3⟩
      else if l.aAddr.toNat + l.aLen.toNat > dmemWords then some ⟨.addressRange, 1⟩
      else if l.dAddr.toNat + l.dLen.toNat > dmemWords then some ⟨.addressRange, 3⟩
      else none := by
  rw [check_with_engine hengine, hsizes, ← firstError_rangeConditions hA hB hD]
  simp only [List.map_cons, List.map_nil, List.cons_append, List.nil_append, firstError_cons_decide]

/-- The check of a command that needs an engine, uses D alone and has one size condition, of D. -/
theorem check_of_engine_destination {i : Instr} {l : Latch} {d : Prop} [Decidable d] (hengine : needsEngine i = true)
    (hA : usesA i = false) (hB : usesB i = false) (hD : usesD i = true) (hsizes : sizeConditions i l = [(decide d, 3)])
    (dmemWords : Nat) :
    check i l dmemWords =
      if l.n = 0 then some ⟨.notConfigured, 0⟩
      else if d then some ⟨.sizeMismatch, 3⟩
      else if l.dAddr.toNat + l.dLen.toNat > dmemWords then some ⟨.addressRange, 3⟩
      else none := by
  rw [check_with_engine hengine, hsizes]
  simp [rangeConditions, hA, hB, hD, firstError, outOfRange_eq, Latch.bufD]

/-- CONV's check: the engine, three lengths, then three ranges (R202). -/
theorem check_conv (l : Latch) (dmemWords : Nat) :
    check .conv l dmemWords =
      if l.n = 0 then some ⟨.notConfigured, 0⟩
      else if l.aLen.toNat ≠ 2 * l.n.toNat then some ⟨.sizeMismatch, 1⟩
      else if l.bLen.toNat ≠ 2 * l.n.toNat then some ⟨.sizeMismatch, 2⟩
      else if l.dLen.toNat ≠ l.n.toNat then some ⟨.sizeMismatch, 3⟩
      else if l.aAddr.toNat + l.aLen.toNat > dmemWords then some ⟨.addressRange, 1⟩
      else if l.bAddr.toNat + l.bLen.toNat > dmemWords then some ⟨.addressRange, 2⟩
      else if l.dAddr.toNat + l.dLen.toNat > dmemWords then some ⟨.addressRange, 3⟩
      else none := by
  rw [check_with_engine rfl]
  simp only [sizeConditions, rangeConditions, usesA, usesB, usesD, Bool.true_and, outOfRange_eq, List.map_cons,
    List.map_nil, List.cons_append, List.nil_append, firstError_cons_decide]
  rfl

/-! ## ACF: the second transform (R200) -/

theorem expandWords_readWords (s : State) (b n : Nat) :
    expandWords (readWords s b n) = (List.range n).map fun i => ⟨readWord s (b + i), posZero⟩ := by
  simp [expandWords, readWords]

theorem expandWords_map {n : Nat} (f : Cplx → Word) {x : List Cplx} (hx : x.length = n) :
    expandWords (x.map f) = (List.range n).map fun k => ⟨f (elem x k), posZero⟩ :=
  line_ext (n := n) (by simp [hx]) (by simp) fun k hk => by
    rw [elem_map_range_lt _ hk]
    simp [expandWords, elem, List.getD, hx, hk]

/-- The second transform with both expansions written out element by element. -/
theorem acfTransform_readWords (s : State) (b n : Nat) :
    acfTransform n (readWords s b n) =
      fftLine n ((List.range n).map fun k =>
        ⟨mag2 (elem (fftLine n ((List.range n).map fun i => ⟨readWord s (b + i), posZero⟩)) k), posZero⟩) := by
  rw [acfTransform, expandWords_map mag2 (length_fftLine _ _), expandWords_readWords]

/-! ## ACF: the numeric check (R201) -/

theorem abs32_eq_withSign (v : Word) : abs32 v = withSign false (absBits v) := by
  apply BitVec.eq_of_toNat_eq
  rw [toNat_withSign false (absBits_lt v), abs32, BitVec.toNat_and]
  exact Nat.and_two_pow_sub_one_eq_mod v.toNat 31

/-- The comparison with EPS on the bits: the patterns of the infinities and the NaNs lie above that of EPS. -/
theorem le32_abs32_eps32 (v : Word) : le32 (abs32 v) eps32 = decide (absBits v ≤ eps32.toNat) := by
  have habs : absBits (abs32 v) = absBits v := by rw [abs32_eq_withSign, absBits_withSign false (absBits_lt v)]
  have hsign : signBit (abs32 v) = false := by rw [abs32_eq_withSign, signBit_withSign false (absBits_lt v)]
  have hkey : orderKey (abs32 v) = absBits v := by simp [orderKey, hsign, habs, signed]
  have hepsNaN : isNaN32 eps32 = false := by decide
  have hepsKey : orderKey eps32 = eps32.toNat := by decide
  have hepsFinite : eps32.toNat < infBits := by decide
  rw [le32, isNaN32, habs, hkey, hepsNaN, hepsKey, Bool.eq_iff_iff]
  simp only [Bool.and_eq_true, Bool.not_eq_true', decide_eq_false_iff_not, decide_eq_true_eq, Bool.not_false, and_true,
    Int.ofNat_le]
  omega

theorem elem_eq_getElem {x : List Cplx} {k : Nat} (h : k < x.length) : elem x k = x[k] := by
  simp [elem, List.getD, h]

theorem numCheck_eq_none {r : List Cplx} (h : ∀ k, k < r.length → absBits (elem r k).im ≤ eps32.toNat) :
    numCheck r = none := by
  refine List.findIdx?_eq_none_iff.2 fun z hz => ?_
  obtain ⟨k, hk, rfl⟩ := List.getElem_of_mem hz
  simpa [le32_abs32_eps32, elem_eq_getElem hk] using h k hk

/-- The recorded lag is the first that fails. -/
theorem numCheck_eq_some {r : List Cplx} {k : Nat} (hk : k < r.length) (hfails : ¬ absBits (elem r k).im ≤ eps32.toNat)
    (hbefore : ∀ j, j < k → absBits (elem r j).im ≤ eps32.toNat) : numCheck r = some k := by
  refine List.findIdx?_eq_some_iff_getElem.2 ⟨hk, ?_, fun j hj => ?_⟩
  · simpa [le32_abs32_eps32, elem_eq_getElem hk] using hfails
  · simpa [le32_abs32_eps32, elem_eq_getElem (hj.trans hk)] using hbefore j hj

/-! ## A completion with a failing lag (R244) -/

/-- A completion with nothing clobbered and a failing lag leaves what one without leaves, and the error. -/
theorem complete_unclobbered_lag {l : Latch} {ws : List Word} {s : State} (h : s.clobbered = []) (k : Nat) :
    complete l ⟨ws, some k⟩ s =
      { completedWith s (s.dmem.writeWords l.dAddr.toNat ws) with
        errcode := .numericAssert, errinfo := BitVec.ofNat 32 k } := by
  simp [complete, recordLag, recordError, storeResult, h, retire, completedWith]

theorem exec_completes_with_lag {i : Instr} {l : Latch} {s : State} {ws : List Word} {k : Nat} (hs : s.seq = .busy l)
    (hc : s.clobbered = []) (hd : usesD i = true) (hr : resultOf i l s = ⟨ws, some k⟩) :
    exec i s = .next { completedWith s (s.dmem.writeWords l.dAddr.toNat ws) with
      errcode := .numericAssert, errinfo := BitVec.ofNat 32 k } := by
  rw [exec_busy hs hd, sourceView_unclobbered hc, hr, complete_unclobbered_lag hc]

/-! ## Real results -/

theorem getElem?_map_elem {n k : Nat} (f : Cplx → Word) {x : List Cplx} (hx : x.length = n) (hk : k < n) :
    (x.map f)[k]? = some (f (elem x k)) := by
  simp [elem, List.getD, hx, hk]

/-- A word of the destination after a completion that stored `ws`. -/
theorem readWord_completedWith_writeWords (s : State) (b : Nat) {ws : List Word} {k : Nat} {v : Word}
    (h : ws[k]? = some v) : readWord (completedWith s (s.dmem.writeWords b ws)) (b + k) = v := by
  have hk : k < ws.length := (List.getElem?_eq_some_iff.1 h).1
  rw [readWord_completedWith, readWord_writeWords, if_pos (by omega), Nat.add_sub_cancel_left, h]
  rfl

/-! ## ACF -/

section
variable {s : State} {l : Latch} (hs : s.seq = .busy l) (hc : s.clobbered = [])
include hs hc

/-- Without NUMCHK, or with every lag within EPS, ACF completes with the real parts and no error. -/
theorem exec_acf_passing {r : List Cplx} (hr : r = acfTransform l.n.toNat (readWords s l.aAddr.toNat l.n.toNat))
    (h : l.numchk = false ∨ ∀ k, k < l.n.toNat → absBits (elem r k).im ≤ eps32.toNat) :
    exec .acf s = .next (completedWith s (s.dmem.writeWords l.dAddr.toNat (r.map Cplx.re))) := by
  have hlen : r.length = l.n.toNat := by rw [hr, length_acfTransform]
  have hlag : (if l.numchk then numCheck r else none) = none := by
    rcases h with hoff | hwithin
    · rw [hoff, if_neg Bool.false_ne_true]
    · rw [numCheck_eq_none (hlen ▸ hwithin), ite_self]
  exact exec_completes_with_words (i := .acf) hs hc rfl (by rw [resultOf, acfResult, ← hr, hlag])

/-- With NUMCHK, ACF records the first lag beyond EPS. -/
theorem exec_acf_failing {r : List Cplx} (hr : r = acfTransform l.n.toNat (readWords s l.aAddr.toNat l.n.toNat))
    {k : Nat} (hk : k < l.n.toNat) (hon : l.numchk = true) (hfails : ¬ absBits (elem r k).im ≤ eps32.toNat)
    (hbefore : ∀ j, j < k → absBits (elem r j).im ≤ eps32.toNat) :
    exec .acf s = .next { completedWith s (s.dmem.writeWords l.dAddr.toNat (r.map Cplx.re)) with
      errcode := .numericAssert, errinfo := BitVec.ofNat 32 k } := by
  have hlen : r.length = l.n.toNat := by rw [hr, length_acfTransform]
  have hlag : (if l.numchk then numCheck r else none) = some k := by
    rw [if_pos hon, numCheck_eq_some (hlen ▸ hk) hfails hbefore]
  exact exec_completes_with_lag (i := .acf) hs hc rfl (by rw [resultOf, acfResult, ← hr, hlag])

end

/-- Settles O25: word `k` is the real part of lag `k`, and the numeric check finds the first lag beyond EPS. -/
theorem acfFollowsItsRule : Obligations.AcfFollowsItsRule := by
  refine ⟨by decide, fun l => check_of_engine_source_and_destination rfl rfl rfl rfl rfl, ?_⟩
  intro s l hs hc n x p r withinEps
  have hr : r = acfTransform n (readWords s l.aAddr.toNat n) := (acfTransform_readWords s l.aAddr.toNat n).symm
  have hlen : r.length = n := length_fftLine n p
  refine ⟨s.dmem.writeWords l.dAddr.toNat (r.map Cplx.re), ?_, ?_, ?_, ?_⟩
  · exact fun k hk => readWord_completedWith_writeWords s _ (getElem?_map_elem Cplx.re hlen hk)
  · exact keepsBytes_completedWith s _ _ _ (by rw [List.length_map, hlen])
  · exact exec_acf_passing hs hc hr
  · exact fun _ hk => exec_acf_failing hs hc hr hk

/-! ## CONV -/

/-- The element-wise product of two buffers of `n` elements. -/
theorem zipWith_readCplx (f : Cplx → Cplx → Cplx) (s : State) (a b n : Nat) :
    List.zipWith f (readCplx s a n) (readCplx s b n) = (List.range n).map fun k => f (cplxAt s a k) (cplxAt s b k) :=
  line_ext (n := n) (by simp) (by simp) fun k hk => by
    rw [elem_zipWith f (by simpa using hk) (by simpa using hk), elem_readCplx s a hk, elem_readCplx s b hk,
      elem_map_range_lt _ hk]

/-- Settles O26: word `k` is the magnitude of element `k` of the inverse transform of the product. -/
theorem convFollowsItsRule : Obligations.ConvFollowsItsRule := by
  refine ⟨by decide, check_conv, ?_⟩
  intro s l hs hc n p
  have hresult : resultOf .conv l s = ⟨(ifftLine n p).map mag, none⟩ := by
    rw [resultOf, convResult, zipWith_readCplx]
  exact completes_with_words hs hc rfl hresult (by rw [List.length_map, length_ifftLine])
    (fun k hk => getElem?_map_elem mag (length_ifftLine n p) hk)

/-! ## BISPEC -/

/-- The triple product over a buffer, the conjugate written out (R203). -/
theorem tripleProduct_readCplx {n f1 f2 : Nat} (s : State) (b : Nat) (h1 : f1 < n) (h2 : f2 < n) :
    tripleProduct n (readCplx s b n) f1 f2 =
      cmul (cmul (cplxAt s b f1) (cplxAt s b f2))
        ⟨(cplxAt s b ((f1 + f2) % n)).re, neg32 (cplxAt s b ((f1 + f2) % n)).im⟩ := by
  have hmod : (f1 + f2) % n < n := Nat.mod_lt _ (Nat.zero_lt_of_lt h1)
  rw [tripleProduct, elem_readCplx s b h1, elem_readCplx s b h2, elem_readCplx s b hmod, cconj]

/-- Row `f1`, column `f2` of an `n × n` surface lies in it. -/
theorem mul_add_lt_square {n f1 f2 : Nat} (h1 : f1 < n) (h2 : f2 < n) : f1 * n + f2 < n * n :=
  calc f1 * n + f2 < f1 * n + n := Nat.add_lt_add_left h2 _
    _ = (f1 + 1) * n := (Nat.succ_mul f1 n).symm
    _ ≤ n * n := Nat.mul_le_mul_right n h1

/-- Settles O27: element `f1 · n + f2` of the surface is the triple product at `(f1, f2)`. -/
theorem bispecFollowsItsRule : Obligations.BispecFollowsItsRule := by
  refine ⟨by decide, fun l => ?_, ?_⟩
  · rw [pow_two]
    exact check_of_engine_source_and_destination rfl rfl rfl rfl rfl
  intro s l hs hc n x
  obtain ⟨m, hexec, helem, hframe⟩ := completes_with_elements (i := .bispec) hs hc rfl rfl
    (length_bispecSurface n (readCplx s l.aAddr.toNat n)) (fun _ _ => rfl)
  refine ⟨m, hexec, fun f1 f2 h1 h2 => ?_, by rwa [pow_two]⟩
  rw [helem _ (mul_add_lt_square h1 h2), elem_bispecSurface _ h1 h2, tripleProduct_readCplx s _ h1 h2]

/-! ## WAVELET -/

/-- Settles O29: element `k` is bin `k` of the kernel. -/
theorem waveletFollowsItsRule : Obligations.WaveletFollowsItsRule := by
  refine ⟨by decide, fun l => check_of_engine_destination rfl rfl rfl rfl rfl, ?_⟩
  intro s l hs hc
  exact completes_with_elements (i := .wavelet) hs hc rfl rfl (by rw [List.length_map, List.length_range])
    (fun k hk => elem_map_range_lt (waveletBin l.n.toNat l.fp0 l.fp1) hk)

end Sys2Proof.Machine
end

section
/-! PROOFS. NOP and the table readouts (44_control.md R230 to R232): what NOP leaves in its acceptance step, and the words
TWREAD and BRREAD write. -/

namespace Sys2Proof.Machine

/-! ## NOP (R230) -/

/-- NOP needs no engine and uses no buffer, so it has nothing to test. -/
theorem check_nop (l : Latch) (dmemWords : Nat) : check .nop l dmemWords = none :=
  check_without_engine (by decide) rfl l dmemWords

/-- Settles O10: NOP passes its check, so acceptance clears the record for its word and marks it done. -/
theorem nopCompletesAtOnce : Obligations.NopCompletesAtOnce := by
  refine ⟨by decide, fun s hidle => ?_⟩
  rw [exec_idle _ hidle]
  simp only [accept, check_nop]
  rfl

/-! ## TWREAD (R231) -/

/-- Settles O30: element `j` is the twiddle every transform of size `N` uses at index `j`. -/
theorem twreadFollowsItsRule : Obligations.TwreadFollowsItsRule := by
  refine ⟨by decide, fun l => check_of_engine_destination rfl rfl rfl rfl rfl, ?_⟩
  intro s l hs hc
  exact completes_with_elements (i := .twread) hs hc rfl rfl (by rw [List.length_map, List.length_range])
    (fun j hj => elem_map_range_lt (tw l.n.toNat) hj)

/-! ## BRREAD (R232) -/

/-- A reversed index of a size that fits a word fits a word itself. -/
theorem toNat_ofNat_bitrev {n : Word} {lg : Nat} (hn : n.toNat = 2 ^ lg) (j : Nat) :
    (BitVec.ofNat 32 (bitrev j (Nat.log2 n.toNat))).toNat = bitrev j lg := by
  have hfits : bitrev j lg < 2 ^ 32 := (bitrev_lt lg j).trans (hn ▸ n.isLt)
  rw [hn, Nat.log2_two_pow, BitVec.toNat_ofNat, Nat.mod_eq_of_lt hfits]

/-- Settles O31: word `j` is the reversal of `j` in `log2 N` bits, and for a size `2^lg` these are `lg` bits. -/
theorem brreadFollowsItsRule : Obligations.BrreadFollowsItsRule := by
  refine ⟨by decide, fun l => check_of_engine_destination rfl rfl rfl rfl rfl, ?_⟩
  intro s l hs hc
  obtain ⟨m, hexec, hwords, hframe⟩ := completes_with_words (i := .brread) (n := l.n.toNat)
    (f := fun j => BitVec.ofNat 32 (bitrev j (Nat.log2 l.n.toNat))) hs hc rfl rfl
    (by rw [List.length_map, List.length_range])
    (fun j hj => by rw [List.getElem?_map, List.getElem?_range hj]; rfl)
  exact ⟨m, hexec, fun lg j hn hj => by rw [hwords j hj, toNat_ofNat_bitrev hn], hframe⟩

end Sys2Proof.Machine
end

section
/-! PROOFS. INVALID_SIZE (60_exceptions.md R242): the sizes it is about, and that no test but CFG's raises it. -/

namespace Sys2Proof.Machine

/-- CFG's test of the size, in terms of the listed sizes. -/
theorem sizeSupported_iff_mem (size : Nat) :
    sizeSupported size = true ↔ size ∈ (List.range' 1 16).map (fun k => 2 ^ k) := by
  rw [sizeSupported_iff, List.mem_map]
  refine exists_congr fun k => ?_
  rw [List.mem_range'_1]
  omega

/-- The engine, size and range tests raise other codes, so a condition for INVALID_SIZE is CFG's own. -/
theorem eq_cfg_of_invalidSize_mem_conditions {i : Instr} {l : Latch} {dmemWords : Nat} {e : CmdError}
    (hmem : (true, e) ∈ conditions i l dmemWords) (hcode : e.code = .invalidSize) : i = .cfg ∧ e.info = 0 := by
  rw [conditions, List.cons_append, List.cons_append, List.mem_cons, List.mem_cons, List.mem_append, List.mem_map,
    List.mem_map] at hmem
  rcases hmem with hcfg | hengine | ⟨c, -, hsize⟩ | ⟨c, -, hrange⟩
  · obtain ⟨hholds, rfl⟩ := Prod.mk.inj hcfg
    exact ⟨of_decide_eq_true (Bool.and_eq_true_iff.1 hholds.symm).1, rfl⟩
  · obtain ⟨-, rfl⟩ := Prod.mk.inj hengine
    cases hcode
  · obtain ⟨-, rfl⟩ := Prod.mk.inj hsize
    cases hcode
  · obtain ⟨-, rfl⟩ := Prod.mk.inj hrange
    cases hcode

/-- Settles O9: CFG's check tests the listed sizes, any INVALID_SIZE comes from that test, and a CFG that fails it keeps
NCUR. -/
theorem invalidSizeIsRaisedByCfgAlone : Obligations.InvalidSizeIsRaisedByCfgAlone := by
  refine ⟨fun l dmemWords => ?_, fun i l dmemWords e herror hcode => ?_, fun s hidle hsize => ?_⟩
  · rw [check_cfg]
    simp only [sizeSupported_iff_mem]
  · exact eq_cfg_of_invalidSize_mem_conditions (firstError_mem herror) hcode
  · rw [exec_cfg_idle hidle, if_neg (mt (sizeSupported_iff_mem _).1 hsize)]

end Sys2Proof.Machine
end

section
/-! PROOFS. The decoder undoes the encoder (30_encoding.md R90, R95, R96). -/

namespace Sys2Proof

open Laws.EncodeFields (fields_packCommand)

/-- What the decoder answers for LAY and STG in a row of the opcode map. -/
def OpcodeRow.read (lay : BitVec 2) (stg : BitVec 5) : OpcodeRow → Except DecodeError Instr
  | .plain i => if lay ≠ 0 then .error .layoutNotAllowed else if stg ≠ 0 then .error .stageNotAllowed else .ok i
  | .layout mk => match decodeLayout lay with
    | none => .error .reservedLayout
    | some l => if stg ≠ 0 then .error .stageNotAllowed else .ok (mk l)
  | .layoutStage => match decodeLayout lay with
    | none => .error .reservedLayout
    | some l => if stg = 0 then .error .stageZero else .ok (.stage l stg)

/-- A packed word has no reserved bit set, so the decoder goes on with the row of its operation number. -/
theorem decode_packCommand {opc : BitVec 8} {row : OpcodeRow} (lay : BitVec 2) (stg : BitVec 5)
    (hrow : lookupOpcode opc = some row) : decode (packCommand opc lay stg) = row.read lay stg := by
  obtain ⟨hopc, hlay, hstg, hlow, hhigh⟩ := fields_packCommand opc lay stg
  rw [decode, hopc, hlay, hstg, hlow, hhigh, if_neg (by simp), hrow]
  cases row <;> rfl

theorem decodeLayout_encodeLayout (lay : Layout) : decodeLayout (encodeLayout lay) = some lay := by
  cases lay <;> rfl

theorem decode_packCommand_plain {opc : BitVec 8} {i : Instr} (hrow : lookupOpcode opc = some (.plain i)) :
    decode (packCommand opc 0 0) = .ok i := decode_packCommand 0 0 hrow

theorem decode_packCommand_layout {opc : BitVec 8} {mk : Layout → Instr} (hrow : lookupOpcode opc = some (.layout mk))
    (lay : Layout) : decode (packCommand opc (encodeLayout lay) 0) = .ok (mk lay) := by
  rw [decode_packCommand _ _ hrow, OpcodeRow.read, decodeLayout_encodeLayout]
  rfl

theorem decode_packCommand_stage {opc : BitVec 8} (hrow : lookupOpcode opc = some .layoutStage) (lay : Layout)
    {stg : BitVec 5} (hstg : stg ≠ 0) : decode (packCommand opc (encodeLayout lay) stg) = .ok (.stage lay stg) := by
  rw [decode_packCommand _ _ hrow, OpcodeRow.read, decodeLayout_encodeLayout]
  exact if_neg hstg

/-- The command word of a well-formed instruction decodes to it. -/
theorem decode_encode {i : Instr} (h : i.wellFormed = true) : decode (encode i) = .ok i := by
  cases i with
  | stage lay stg => exact decode_packCommand_stage rfl lay (by simpa [Instr.wellFormed] using h)
  | fft lay | ifft lay | bitrev lay | norm lay => exact decode_packCommand_layout rfl lay
  | _ => exact decode_packCommand_plain rfl

/-- Only STAGE can be ill formed, and the decoder answers no stage 0 (R93). -/
theorem wellFormed_of_decode {w : Word} {i : Instr} (h : decode w = .ok i) : i.wellFormed = true := by
  cases i with
  | stage lay stg =>
    by_contra hill
    obtain rfl : stg = 0 := by simpa [Instr.wellFormed] using hill
    have hzero : decode (packCommand 5 (encodeLayout lay) 0) = .error .stageZero := by
      rw [decode_packCommand (row := .layoutStage) _ _ rfl, OpcodeRow.read, decodeLayout_encodeLayout]
      rfl
    rw [← encode_of_decode h] at h
    cases hzero.symm.trans h
  | _ => rfl

end Sys2Proof

namespace Sys2Proof.Machine

/-- Settles O2: a decoded word is the encoding of a well-formed instruction, and that encoding decodes to it. -/
theorem decodeAndEncodeAgree : Obligations.DecodeAndEncodeAgree := by
  intro w i
  constructor
  · intro h
    exact ⟨wellFormed_of_decode h, encode_of_decode h⟩
  · rintro ⟨hwf, rfl⟩
    exact decode_encode hwf

/-- Settles O1: the decoder evaluated on the sixteen words. -/
theorem specWordsDecode : Obligations.SpecWordsDecode := by
  unfold Obligations.SpecWordsDecode
  decide

end Sys2Proof.Machine
end

section
/-! PROOFS. What a step can be, said once with the input it takes: SEQ's turn, a HOST read, each kind of HOST write, and
the two reset edges (20_memory.md R60, R61; 10_state.md R27, R44 to R47; 70_reset_and_hazards.md R270). -/

namespace Sys2Proof.Machine

/-! ## The supported accesses -/

/-- The accesses that are not refused (20_memory.md R61). -/
theorem accessRefusal_eq_none_iff (width : Nat) (off : Int) (s : State) :
    accessRefusal width off s = none ↔
      s.inReset = false ∧ width = 32 ∧ 0 ≤ off ∧ off < 0x02000000 ∧ off % 4 = 0 := by
  have hsize : (windowSize : Int) = 0x02000000 := rfl
  unfold accessRefusal
  by_cases hreset : s.inReset = true
  · simp [hreset]
  by_cases hwidth : width = 32
  · by_cases hwindow : off < 0 ∨ (windowSize : Int) ≤ off
    · rw [if_neg hreset, if_neg (not_not.2 hwidth), if_pos hwindow]
      refine iff_of_false (by simp) ?_
      omega
    · rw [if_neg hreset, if_neg (not_not.2 hwidth), if_neg hwindow, ite_eq_right_iff]
      have hrange : 0 ≤ off ∧ off < 0x02000000 := by omega
      simp [hreset, hwidth, hrange]
  · simp [hreset, hwidth]

/-- An access that is not refused has the width 32 and an aligned offset of the window. -/
theorem exists_offset_of_access {width : Nat} {off : Int} {s : State} (h : accessRefusal width off s = none) :
    s.inReset = false ∧ width = 32 ∧ ∃ n : Nat, off = n ∧ n < windowSize ∧ n % 4 = 0 := by
  obtain ⟨hreset, hwidth, hlow, hhigh, haligned⟩ := (accessRefusal_eq_none_iff ..).1 h
  refine ⟨hreset, hwidth, off.toNat, (Int.toNat_of_nonneg hlow).symm, ?_, ?_⟩
  · unfold windowSize
    omega
  · omega

/-- The offset of a DMEM word. -/
theorem offset_of_target_dmem {off w : Nat} {s : State} (haligned : off % 4 = 0) (h : target off s = .dmem w) :
    off = dmemBase + 4 * w ∧ w < s.dmemWords := by
  unfold target at h
  split_ifs at h with h1 h2 h3
  · cases hreg : registerAt off <;> simp [hreg] at h
  · obtain rfl := Target.dmem.inj h
    refine ⟨?_, h3⟩
    unfold dmemBase at *
    omega

/-- The offset of a register. -/
theorem mem_registerMap_of_target {off : Nat} {r : Reg} {s : State} (h : target off s = .register r) :
    (off, r) ∈ registerMap := by
  unfold target at h
  split_ifs at h
  cases hreg : registerAt off with
  | none => simp [hreg] at h
  | some q =>
    obtain rfl : q = r := by simpa [hreg] using h
    exact registerAt_mem hreg

theorem offset_of_cmd {off : Nat} (h : (off, Reg.cmd) ∈ registerMap) : off = 0x00C := by
  simpa [registerMap] using h

/-! ## Completion -/

/-- The state after the completion step of any command; acceptance never latches NOP or CFG (log entry 16). -/
def finish (i : Instr) (l : Latch) (s : State) : State :=
  match i with
  | .nop => retire s
  | .cfg => retire { s with ncur := l.size }
  | _ => complete l (resultOf i l (sourceView s)) s

theorem finish_of_usesD {i : Instr} (hd : usesD i = true) (l : Latch) (s : State) :
    finish i l s = complete l (resultOf i l (sourceView s)) s := by
  cases i with
  | nop | cfg => cases hd
  | _ => rfl

theorem exec_eq_finish (i : Instr) {l : Latch} {s : State} (h : s.seq = .busy l) : exec i s = .next (finish i l s) := by
  cases hd : usesD i with
  | true => rw [exec_busy h hd, finish_of_usesD hd]
  | false =>
    cases i with
    | nop => simp only [exec, execNop, immediateCommand, h, finish]
    | cfg => simp only [exec, execCfg, immediateCommand, h, finish]
    | _ => cases hd

/-! ## A CMD write -/

/-- Only NOP and CFG have no destination. -/
theorem eq_nop_or_cfg_of_usesD {i : Instr} (h : usesD i = false) : i = .nop ∨ i = .cfg := by
  cases i with
  | nop => exact .inl rfl
  | cfg => exact .inr rfl
  | _ => cases h

/-- The errors of the size tests, with their ERRINFO (60_exceptions.md R250). -/
theorem sizeConditions_info {i : Instr} {l : Latch} {b : Bool} {info : Word} (h : (b, info) ∈ sizeConditions i l) :
    1 ≤ info.toNat ∧ info.toNat ≤ 5 := by
  cases i <;> simp only [sizeConditions, familyLengths, List.mem_cons, Prod.mk.injEq, List.not_mem_nil, or_false] at h
  case wavelet | twread | brread =>
    obtain ⟨-, rfl⟩ := h
    decide
  case stage =>
    rcases h with ⟨-, rfl⟩ | ⟨-, rfl⟩ | ⟨-, rfl⟩ | ⟨-, rfl⟩ <;> decide
  case fft | ifft | bitrev | norm | cmul | conv =>
    rcases h with ⟨-, rfl⟩ | ⟨-, rfl⟩ | ⟨-, rfl⟩ <;> decide
  all_goals
    rcases h with ⟨-, rfl⟩ | ⟨-, rfl⟩ <;> decide

theorem rangeConditions_info {i : Instr} {l : Latch} {d : Nat} {b : Bool} {info : Word}
    (h : (b, info) ∈ rangeConditions i l d) : 1 ≤ info.toNat ∧ info.toNat ≤ 3 := by
  simp only [rangeConditions, List.mem_cons, Prod.mk.injEq, List.not_mem_nil, or_false] at h
  rcases h with ⟨-, rfl⟩ | ⟨-, rfl⟩ | ⟨-, rfl⟩ <;> decide

/-- The ERRINFO of an error of the acceptance check fits its code (60_exceptions.md R250). -/
theorem recordOk_of_check {i : Instr} {l : Latch} {d : Nat} {e : CmdError} (h : check i l d = some e) :
    recordOk e.code e.info = true := by
  have hmem := firstError_mem h
  rw [conditions, List.cons_append, List.cons_append, List.mem_cons, List.mem_cons, List.mem_append, List.mem_map,
    List.mem_map] at hmem
  rcases hmem with hcfg | hengine | ⟨c, hc, hsize⟩ | ⟨c, hc, hrange⟩
  · obtain ⟨-, rfl⟩ := Prod.mk.inj hcfg
    rfl
  · obtain ⟨-, rfl⟩ := Prod.mk.inj hengine
    rfl
  · obtain ⟨-, rfl⟩ := Prod.mk.inj hsize
    simpa [recordOk] using sizeConditions_info hc
  · obtain ⟨-, rfl⟩ := Prod.mk.inj hrange
    simpa [recordOk] using rangeConditions_info hc

/-- What a CMD write of `v` can do: it is dropped, it completes with an error, it is NOP or CFG and completes, or it
starts SEQ (10_state.md R44, R45, R47). -/
inductive CommandWrite (v : Word) (s t : State) : Prop
  | dropped (l : Latch) (hbusy : s.seq = .busy l) (ht : t = dropCommand s)
  | failed (e : CmdError) (hidle : s.seq = .idle) (hinfo : recordOk e.code e.info = true)
      (ht : t = markDone (recordError e (clearForCommand v s)))
  | nop (hidle : s.seq = .idle) (ht : t = markDone (clearForCommand v s))
  | cfg (hidle : s.seq = .idle) (hword : v = 0x00000001) (hsize : sizeSupported s.size.toNat = true)
      (ht : t = markDone { clearForCommand v s with ncur := s.size })
  | started (i : Instr) (hidle : s.seq = .idle) (hdecode : decode v = .ok i) (hd : usesD i = true)
      (hcheck : check i (latch v s) s.dmemWords = none) (ht : t = startBusy (latch v s) (clearForCommand v s))

theorem commandWrite_of_present {v : Word} {s t : State} (h : present v s = .next t) : CommandWrite v s t := by
  rcases present_cases h with ⟨l, hbusy, ht⟩ | ⟨hidle, -, ht⟩ | ⟨i, hidle, hdecode, ht⟩
  · exact .dropped l hbusy ht
  · exact .failed illegalCommand hidle rfl ht
  have hword := encode_of_decode hdecode
  rcases accept_eq i (afterAccept i) s with ⟨e, hcheck, hacc⟩ | ⟨hcheck, hacc⟩ <;> rw [hword] at hacc hcheck
  · exact .failed e hidle (recordOk_of_check hcheck) (ht.trans hacc)
  · rw [hacc] at ht
    cases hd : usesD i with
    | true =>
      refine .started i hidle hdecode hd hcheck ?_
      rw [ht, afterAccept_eq_startBusy]
      · rintro rfl
        cases hd
      · rintro rfl
        cases hd
    | false =>
      rcases eq_nop_or_cfg_of_usesD hd with rfl | rfl
      · exact .nop hidle ht
      · refine .cfg hidle hword.symm ?_ ht
        exact (check_none hcheck).1 rfl

/-! ## The step -/

/-- What a step from `s` to `t` can be, with the inputs before it and those left. -/
inductive StepKind (s t : State) : Prop
  | pause (rest : List Input) (hmoves : seqMovesNext s = true) (hidle : s.seq = .idle)
      (ht : t = { s with inputs := rest })
  | completion (rest : List Input) (i : Instr) (l : Latch) (hmoves : seqMovesNext s = true) (hbusy : s.seq = .busy l)
      (hdecode : decode l.word = .ok i) (ht : t = finish i l { s with inputs := rest })
  | read (rest : List Input) (off : Nat) (hinputs : s.inputs = .hostRead 32 off :: rest) (hreset : s.inReset = false)
      (ht : t = hostRead off { s with inputs := rest })
  | command (rest : List Input) (v : Word) (hinputs : s.inputs = .hostWrite 32 0x00C v :: rest)
      (hreset : s.inReset = false) (hstep : CommandWrite v { s with inputs := rest } t)
  | register (rest : List Input) (off : Nat) (r : Reg) (v : Word) (hinputs : s.inputs = .hostWrite 32 off v :: rest)
      (hreg : (off, r) ∈ registerMap) (hr : r ≠ .cmd) (ht : t = writeReg r v { s with inputs := rest })
  | ignored (rest : List Input) (off : Nat) (v : Word) (hinputs : s.inputs = .hostWrite 32 off v :: rest)
      (htarget : target off { s with inputs := rest } = .nothing) (ht : t = { s with inputs := rest })
  | store (rest : List Input) (w : Nat) (v : Word) (hinputs : s.inputs = .hostWrite 32 (0x01000000 + 4 * w) v :: rest)
      (hw : w < s.dmemWords) (ht : t = writeDmem w v { s with inputs := rest })
  | assertion (rest : List Input) (powerOn : Bool) (hinputs : s.inputs = .assertReset powerOn :: rest)
      (ht : t = assertReset powerOn { s with inputs := rest })
  | release (rest : List Input) (hinputs : s.inputs = .releaseReset :: rest)
      (ht : t = releaseReset { s with inputs := rest })

theorem stepKind_of_seqStep {s t : State} {rest : List Input} (hmoves : seqMovesNext s = true)
    (h : seqStep { s with inputs := rest } = .next t) : StepKind s t := by
  rcases seqStep_cases h with ⟨hidle, ht⟩ | ⟨l, i, hbusy, hdecode, hexec⟩
  · exact .pause rest hmoves hidle ht
  · rw [exec_eq_finish i hbusy] at hexec
    exact .completion rest i l hmoves hbusy hdecode (Host.Outcome.next.inj hexec).symm

theorem stepKind_of_hostWrite {s t : State} {rest : List Input} {off : Nat} {v : Word}
    (hinputs : s.inputs = .hostWrite 32 off v :: rest) (hreset : s.inReset = false) (haligned : off % 4 = 0)
    (h : hostWrite off v { s with inputs := rest } = .next t) : StepKind s t := by
  rcases hostWrite_cases h with ⟨htarget, hpresent⟩ | ⟨r, htarget, hr, ht⟩ | ⟨htarget, ht⟩ | ⟨w, htarget, ht⟩
  · obtain rfl := offset_of_cmd (mem_registerMap_of_target htarget)
    exact .command rest v hinputs hreset (commandWrite_of_present hpresent)
  · exact .register rest off r v hinputs (mem_registerMap_of_target htarget) hr ht
  · exact .ignored rest off v hinputs htarget ht
  · obtain ⟨rfl, hw⟩ := offset_of_target_dmem haligned htarget
    refine .store rest w v (hinputs.trans ?_) hw ht
    simp [dmemBase]

theorem stepKind_of_step {s t : State} (h : step s = .next t) : StepKind s t := by
  rcases step_cases h with ⟨hinputs, hstep⟩ | ⟨inp, rest, hinputs, hrun⟩
  · have hself : { s with inputs := [] } = s := by rw [← hinputs]
    exact stepKind_of_seqStep (rest := []) (by rw [seqMovesNext, hinputs]) (hself ▸ hstep)
  cases inp with
  | seqTurn => exact stepKind_of_seqStep (by rw [seqMovesNext, hinputs]) hrun
  | assertReset powerOn => exact .assertion rest powerOn hinputs (Host.Outcome.next.inj hrun).symm
  | releaseReset => exact .release rest hinputs (Host.Outcome.next.inj hrun).symm
  | hostRead width off =>
    cases haccess : accessRefusal width off { s with inputs := rest } with
    | some r => simp [runInput, haccess] at hrun
    | none =>
      obtain ⟨hreset, rfl, n, rfl, -, -⟩ := exists_offset_of_access haccess
      simp only [runInput, haccess, Int.toNat_natCast] at hrun
      exact .read rest n hinputs hreset (Host.Outcome.next.inj hrun).symm
  | hostWrite width off v =>
    cases haccess : accessRefusal width off { s with inputs := rest } with
    | some r => simp [runInput, haccess] at hrun
    | none =>
      obtain ⟨hreset, rfl, n, rfl, -, haligned⟩ := exists_offset_of_access haccess
      simp only [runInput, haccess, Int.toNat_natCast] at hrun
      exact stepKind_of_hostWrite hinputs hreset haligned hrun

end Sys2Proof.Machine
end

section
/-! PROOFS. The invariant (Safety.lean): what it says of a running command, and that every kind of step keeps it. -/

namespace Sys2Proof.Machine

/-! ## A running command -/

/-- SEQ is BUSY with the command `i` latched as `l`, as the invariant has it. -/
structure Running (s : State) (i : Instr) (l : Latch) : Prop where
  decodes : decode l.word = .ok i
  hasDestination : usesD i = true
  passed : check i l s.dmemWords = none
  bound : bindingOk l.n = true
  notDone : s.done = false
  noError : s.errcode = .ok
  noInfo : s.errinfo = 0
  readBack : s.cmd = l.word
  clobbers : ∀ w ∈ s.clobbered, inFootprint i l w = true

theorem runningOk_iff (s : State) (l : Latch) : runningOk s l = true ↔ ∃ i, Running s i l := by
  unfold runningOk
  cases hdecode : decode l.word with
  | error e => exact iff_of_false Bool.false_ne_true fun ⟨i, h⟩ => by cases hdecode.symm.trans h.decodes
  | ok i =>
    simp only [Bool.and_eq_true, decide_eq_true_eq, Bool.not_eq_true', List.all_eq_true]
    constructor
    · rintro ⟨⟨⟨⟨⟨⟨⟨hd, hcheck⟩, hbound⟩, hdone⟩, herr⟩, hinfo⟩, hcmd⟩, hclob⟩
      exact ⟨i, hdecode, hd, hcheck, hbound, hdone, herr, hinfo, hcmd, hclob⟩
    · rintro ⟨j, h⟩
      obtain rfl : i = j := Except.ok.inj (hdecode.symm.trans h.decodes)
      exact ⟨⟨⟨⟨⟨⟨⟨h.hasDestination, h.passed⟩, h.bound⟩, h.notDone⟩, h.noError⟩, h.noInfo⟩, h.readBack⟩, h.clobbers⟩

theorem phaseOk_of_idle {s : State} (hidle : s.seq = .idle) (hclob : s.clobbered = []) : phaseOk s = true := by
  simp [phaseOk, hidle, hclob]

theorem phaseOk_of_running {s : State} {i : Instr} {l : Latch} (hbusy : s.seq = .busy l) (hrun : Running s i l) :
    phaseOk s = true := by
  rw [phaseOk, hbusy]
  exact (runningOk_iff s l).2 ⟨i, hrun⟩

theorem Inv.running {s : State} {l : Latch} (h : Inv s) (hbusy : s.seq = .busy l) : ∃ i, Running s i l := by
  have hphase := h.phase
  rw [phaseOk, hbusy] at hphase
  exact (runningOk_iff s l).1 hphase

theorem Inv.running_of_decode {s : State} {i : Instr} {l : Latch} (h : Inv s) (hbusy : s.seq = .busy l)
    (hdecode : decode l.word = .ok i) : Running s i l := by
  obtain ⟨j, hj⟩ := h.running hbusy
  obtain rfl : j = i := Except.ok.inj (hj.decodes.symm.trans hdecode)
  exact hj

theorem Inv.clobbered_of_idle {s : State} (h : Inv s) (hidle : s.seq = .idle) : s.clobbered = [] := by
  simpa [phaseOk, hidle] using h.phase

theorem Inv.not_inReset_of_busy {s : State} {l : Latch} (h : Inv s) (hbusy : s.seq = .busy l) : s.inReset = false := by
  by_contra hreset
  have hidle := (h.resetHeld (by simpa using hreset)).1
  simp [hbusy] at hidle

theorem footprint_busy {s : State} {i : Instr} {l : Latch} (hbusy : s.seq = .busy l) (hdecode : decode l.word = .ok i)
    (w : Nat) : s.footprint w = inFootprint i l w := by
  simp only [State.footprint, hbusy, hdecode]

theorem Buffer.contains_iff (b : Buffer) (w : Nat) : b.contains w = true ↔ b.base ≤ w ∧ w < b.base + b.len := by
  simp [Buffer.contains]

theorem Buffer.mem_addresses (b : Buffer) (w : Nat) : w ∈ b.addresses ↔ b.base ≤ w ∧ w < b.base + b.len :=
  List.mem_range'_1

/-- The footprint of a command that passed its check lies in DMEM (20_memory.md R65, R69). -/
theorem lt_of_inFootprint {i : Instr} {l : Latch} {d w : Nat} (h : check i l d = none) (hw : inFootprint i l w = true) :
    w < d := by
  obtain ⟨hA, hB, hD⟩ := check_range h
  simp only [inFootprint, Bool.or_eq_true, Bool.and_eq_true, Buffer.contains_iff] at hw
  rcases hw with (⟨hu, hw⟩ | ⟨hu, hw⟩) | ⟨hu, hw⟩
  · exact hw.2.trans_le (hA hu)
  · exact hw.2.trans_le (hB hu)
  · exact hw.2.trans_le (hD hu)

theorem inFootprint_of_destination {i : Instr} {l : Latch} {w : Nat} (hd : usesD i = true)
    (hw : l.dAddr.toNat ≤ w ∧ w < l.dAddr.toNat + l.dLen.toNat) : inFootprint i l w = true := by
  simp [inFootprint, hd, Latch.bufD, Buffer.contains, hw]

/-- What an aborted or disturbed command leaves unspecified: the words HOST clobbered and the destination, all of them
in its footprint. -/
theorem Running.inFootprint_of_unspecified {s : State} {i : Instr} {l : Latch} {w : Nat} (h : Running s i l)
    (hw : w ∈ s.clobbered ++ l.bufD.addresses) : inFootprint i l w = true := by
  rcases List.mem_append.1 hw with hw | hw
  · exact h.clobbers w hw
  · exact inFootprint_of_destination h.hasDestination ((Buffer.mem_addresses ..).1 hw)

theorem sizeSupported_le {n : Nat} (h : sizeSupported n = true) : n ≤ Config.nmax := by
  simp only [sizeSupported, Bool.and_eq_true, decide_eq_true_eq] at h
  exact h.1.2

theorem toNat_le_of_bindingOk {n : Word} (h : bindingOk n = true) : n.toNat ≤ Config.nmax := by
  rcases Bool.or_eq_true_iff.1 h with hzero | hsize
  · rw [of_decide_eq_true hzero]
    decide
  · exact sizeSupported_le hsize

/-! ## What a completion leaves -/

/-- A lag that a result reports is one of the engine size: only ACF reports one (43_derived.md R201). -/
theorem lag_lt {i : Instr} {l : Latch} {s : State} {m : Nat} (h : (resultOf i l s).lag = some m) : m < l.n.toNat := by
  cases i with
  | acf =>
    simp only [resultOf, acfResult, numCheck] at h
    split_ifs at h
    obtain ⟨hm, -⟩ := List.findIdx?_eq_some_iff_getElem.1 h
    simpa using hm
  | _ => cases h

theorem wf_storeResult {s : State} {l : Latch} (h : s.dmem.wf) (ws : List Word) : (storeResult l ws s).dmem.wf := by
  unfold storeResult
  split_ifs
  · exact wf_writeWords h _ _
  · exact wf_scramble h _ _

theorem below_storeResult {s : State} {i : Instr} {l : Latch} {ws : List Word} (h : s.dmem.below (4 * s.dmemWords))
    (hrun : Running s i l) (hws : ws.length = l.dLen.toNat) : (storeResult l ws s).dmem.below (4 * s.dmemWords) := by
  unfold storeResult
  split_ifs
  · exact below_writeWords h (hws ▸ (check_range hrun.passed).2.2 hrun.hasDestination)
  · exact below_scramble h fun w hw => lt_of_inFootprint hrun.passed (hrun.inFootprint_of_unspecified hw)

theorem complete_dmem (l : Latch) (r : Result) (s : State) : (complete l r s).dmem = (storeResult l r.words s).dmem := by
  unfold complete recordLag
  cases r.lag <;> rfl

/-- A completion changes DMEM, the phase, DONE, the record of clobbered words, the draws and, where it reports a lag, the
error; nothing else. -/
theorem complete_eq (l : Latch) (r : Result) (s : State) :
    complete l r s =
      { completedWith s (complete l r s).dmem with
        draws := (complete l r s).draws, errcode := (complete l r s).errcode, errinfo := (complete l r s).errinfo } := by
  unfold complete recordLag storeResult
  cases r.lag <;> split_ifs <;> rfl

/-- The error a completion leaves: the one before it, or NUMERIC_ASSERT with the lag (60_exceptions.md R244). -/
theorem complete_record (l : Latch) (r : Result) (s : State) :
    (complete l r s).errcode = (match r.lag with | none => s.errcode | some _ => .numericAssert) ∧
      (complete l r s).errinfo = (match r.lag with | none => s.errinfo | some m => BitVec.ofNat 32 m) := by
  unfold complete recordLag storeResult
  cases r.lag <;> split_ifs <;> exact ⟨rfl, rfl⟩

/-! ## Every kind of step keeps the invariant -/

/-- The invariant does not speak of the inputs. -/
theorem Inv.withInputs {s : State} (h : Inv s) (rest : List Input) : Inv { s with inputs := rest } :=
  ⟨h.memWf, h.memBelow, h.binding, h.phase, h.record, h.resetHeld⟩

theorem Running.withInputs {s : State} {i : Instr} {l : Latch} (h : Running s i l) (rest : List Input) :
    Running { s with inputs := rest } i l :=
  ⟨h.decodes, h.hasDestination, h.passed, h.bound, h.notDone, h.noError, h.noInfo, h.readBack, h.clobbers⟩

theorem Inv.complete {s : State} {i : Instr} {l : Latch} (h : Inv s) (hbusy : s.seq = .busy l) (hrun : Running s i l) :
    Inv (complete l (resultOf i l (sourceView s)) s) := by
  have hlen := length_resultOf (s := sourceView s) hrun.passed hrun.hasDestination
  have hlag := @lag_lt i l (sourceView s)
  obtain ⟨hcode, hinfo⟩ := complete_record l (resultOf i l (sourceView s)) s
  have hmem := complete_dmem l (resultOf i l (sourceView s)) s
  have heq := complete_eq l (resultOf i l (sourceView s)) s
  set t := Machine.complete l (resultOf i l (sourceView s)) s
  have hwords : t.dmemWords = s.dmemWords := by rw [heq]; rfl
  refine ⟨?_, ?_, ?_, ?_, ?_, ?_⟩
  · rw [hmem]
    exact wf_storeResult h.memWf _
  · rw [hmem, hwords]
    exact below_storeResult h.memBelow hrun hlen
  · rw [heq]
    exact h.binding
  · rw [heq]
    rfl
  · rw [hcode, hinfo]
    cases hr : (resultOf i l (sourceView s)).lag with
    | none => exact h.record
    | some m =>
      have hm : m < 65536 := (hlag hr).trans_le (toNat_le_of_bindingOk hrun.bound)
      simp only [recordOk, decide_eq_true_eq, BitVec.toNat_ofNat, Config.nmax]
      omega
  · intro hreset
    rw [heq] at hreset
    cases hreset.symm.trans (h.not_inReset_of_busy hbusy)

theorem Inv.hostRead {s : State} (h : Inv s) (off : Nat) : Inv (hostRead off s) := by
  unfold Machine.hostRead
  split
  · exact ⟨h.memWf, h.memBelow, h.binding, h.phase, h.record, h.resetHeld⟩
  · exact ⟨h.memWf, h.memBelow, h.binding, h.phase, h.record, h.resetHeld⟩
  · split_ifs
    · exact ⟨h.memWf, h.memBelow, h.binding, h.phase, h.record, h.resetHeld⟩
    · exact ⟨h.memWf, h.memBelow, h.binding, h.phase, h.record, h.resetHeld⟩

theorem Inv.writeStatus {s : State} (h : Inv s) (v : Word) : Inv (writeStatus v s) := by
  refine ⟨h.memWf, h.memBelow, h.binding, ?_, h.record, fun hreset => ?_⟩
  · cases hseq : s.seq with
    | idle => exact phaseOk_of_idle hseq (h.clobbered_of_idle hseq)
    | busy l =>
      obtain ⟨i, hrun⟩ := h.running hseq
      refine phaseOk_of_running (i := i) hseq ?_
      exact { hrun with notDone := by rw [writeStatus_done, hrun.notDone, Bool.false_and] }
  · obtain ⟨hidle, hdone⟩ := h.resetHeld hreset
    exact ⟨hidle, by rw [writeStatus_done, hdone, Bool.false_and]⟩

theorem Inv.writeReg {s : State} (h : Inv s) (r : Reg) (v : Word) : Inv (writeReg r v s) := by
  cases r with
  | status => exact h.writeStatus v
  | id | cmd | ncur | errinfo => exact h
  | _ => exact ⟨h.memWf, h.memBelow, h.binding, h.phase, h.record, h.resetHeld⟩

theorem Inv.writeDmem {s : State} {w : Nat} (h : Inv s) (hw : w < s.dmemWords) (v : Word) : Inv (writeDmem w v s) := by
  unfold Machine.writeDmem
  split_ifs with hfoot
  · refine ⟨h.memWf, h.memBelow, h.binding, ?_, h.record, h.resetHeld⟩
    cases hseq : s.seq with
    | idle => simp [State.footprint, hseq] at hfoot
    | busy l =>
      obtain ⟨i, hrun⟩ := h.running hseq
      refine phaseOk_of_running (i := i) rfl { hrun with clobbers := fun x hx => ?_ }
      rcases List.mem_append.1 hx with hx | hx
      · exact hrun.clobbers x hx
      · rw [List.mem_singleton.1 hx, ← footprint_busy hseq hrun.decodes]
        exact hfoot
  · exact ⟨wf_writeWords h.memWf _ _, below_writeWords h.memBelow hw, h.binding, h.phase, h.record, h.resetHeld⟩

theorem Inv.assertReset {s : State} (h : Inv s) (powerOn : Bool) : Inv (assertReset powerOn s) := by
  refine ⟨?_, ?_, rfl, rfl, rfl, fun _ => ⟨rfl, rfl⟩⟩
  · change (dmemAfterReset powerOn s).wf
    unfold dmemAfterReset
    split_ifs
    · exact List.Pairwise.nil
    · split
      · exact h.memWf
      · exact wf_scramble h.memWf _ _
  · change (dmemAfterReset powerOn s).below (4 * s.dmemWords)
    unfold dmemAfterReset
    split_ifs
    · exact fun c hc => absurd hc List.not_mem_nil
    · split
      · exact h.memBelow
      · next l hbusy =>
        obtain ⟨i, hrun⟩ := h.running hbusy
        exact below_scramble h.memBelow fun w hw =>
          lt_of_inFootprint hrun.passed (hrun.inFootprint_of_unspecified hw)

/-- A CMD write keeps the invariant; it comes while reset is released. -/
theorem Inv.commandWrite {v : Word} {s t : State} (h : Inv s) (hreset : s.inReset = false) (hstep : CommandWrite v s t) :
    Inv t := by
  have hreleased : s.inReset = true → ∀ p : Prop, p := fun hr => absurd hreset (by simp [hr])
  cases hstep with
  | dropped l hbusy ht =>
    subst ht
    exact ⟨h.memWf, h.memBelow, h.binding, h.phase, h.record, h.resetHeld⟩
  | failed e hidle hinfo ht =>
    subst ht
    exact ⟨h.memWf, h.memBelow, h.binding, phaseOk_of_idle hidle (h.clobbered_of_idle hidle), hinfo,
      fun hr => hreleased hr _⟩
  | nop hidle ht =>
    subst ht
    exact ⟨h.memWf, h.memBelow, h.binding, phaseOk_of_idle hidle (h.clobbered_of_idle hidle), rfl,
      fun hr => hreleased hr _⟩
  | cfg hidle hword hsize ht =>
    subst ht
    exact ⟨h.memWf, h.memBelow, by simp [bindingOk, hsize], phaseOk_of_idle hidle (h.clobbered_of_idle hidle), rfl,
      fun hr => hreleased hr _⟩
  | started i hidle hdecode hd hcheck ht =>
    subst ht
    refine ⟨h.memWf, h.memBelow, h.binding, phaseOk_of_running rfl (i := i) ?_, rfl, fun hr => hreleased hr _⟩
    exact ⟨hdecode, hd, hcheck, h.binding, rfl, rfl, rfl, rfl, fun w hw => absurd hw List.not_mem_nil⟩

/-! ## The obligations -/

/-- Settles O60: each kind of step keeps the invariant, by its own lemma. -/
theorem stepKeepsTheInvariant : Obligations.StepKeepsTheInvariant := by
  intro s t h hstep
  cases stepKind_of_step hstep with
  | pause rest hmoves hidle ht =>
    subst ht
    exact h.withInputs rest
  | completion rest i l hmoves hbusy hdecode ht =>
    have hrun := (h.running_of_decode hbusy hdecode).withInputs rest
    rw [ht, finish_of_usesD hrun.hasDestination]
    exact (h.withInputs rest).complete hbusy hrun
  | read rest off hinputs hreset ht =>
    subst ht
    exact (h.withInputs rest).hostRead off
  | command rest v hinputs hreset hcommand => exact (h.withInputs rest).commandWrite hreset hcommand
  | register rest off r v hinputs hreg hr ht =>
    subst ht
    exact (h.withInputs rest).writeReg r v
  | ignored rest off v hinputs htarget ht =>
    subst ht
    exact h.withInputs rest
  | store rest w v hinputs hw ht =>
    subst ht
    exact (h.withInputs rest).writeDmem hw v
  | assertion rest powerOn hinputs ht =>
    subst ht
    exact (h.withInputs rest).assertReset powerOn
  | release rest hinputs ht =>
    subst ht
    exact ⟨h.memWf, h.memBelow, h.binding, h.phase, h.record, fun hr => absurd hr Bool.false_ne_true⟩

/-- Settles O59: each clause on the reset values. -/
theorem resetMeetsTheInvariant : Obligations.ResetMeetsTheInvariant :=
  ⟨List.Pairwise.nil, fun _ hc => absurd hc List.not_mem_nil, rfl, rfl, rfl, fun hr => absurd hr Bool.false_ne_true⟩

end Sys2Proof.Machine
end

section
/-! PROOFS. The step and its obligations: what runs, what never stops, and which step changes which register
(10_state.md R21, R26, R29, R44 to R47; 60_exceptions.md R240, R253, R260). -/

namespace Sys2Proof.Machine

/-! ## What runs -/

theorem seqStep_busy {s : State} {i : Instr} {l : Latch} (hbusy : s.seq = .busy l) (hdecode : decode l.word = .ok i) :
    seqStep s = exec i s := by
  simp only [seqStep, hbusy, hdecode]

theorem step_of_no_inputs {s : State} (hinputs : s.inputs = []) : step s = seqStep s := by
  simp only [step, nextStep, hinputs]

theorem step_of_input {s : State} {inp : Input} {rest : List Input} (hinputs : s.inputs = inp :: rest) :
    step s = runInput inp { s with inputs := rest } := by
  simp only [step, nextStep, hinputs]

/-- Settles O4: a CMD write presents the word, SEQ's turn runs the latched one. -/
theorem stepRunsTheDecodedCommand : Obligations.StepRunsTheDecodedCommand := by
  intro s i
  refine ⟨fun v rest hreset hidle hinputs hdecode => ?_,
    fun l hbusy hdecode => ⟨fun hinputs => ?_, fun rest hinputs => ?_⟩⟩
  · rw [step_commandWrite hinputs hreset]
    simp only [present, hidle, hdecode]
  · rw [step_of_no_inputs hinputs, seqStep_busy hbusy hdecode]
  · rw [step_of_input hinputs]
    exact seqStep_busy hbusy hdecode

/-- Settles O7: the running command is the one the invariant speaks of, and its step is its completion. -/
theorem runningCommandCompletesNext : Obligations.RunningCommandCompletesNext := by
  intro s l h hbusy hinputs
  obtain ⟨i, hrun⟩ := h.running hbusy
  refine ⟨_, (step_of_no_inputs hinputs).trans
    ((seqStep_busy hbusy hrun.decodes).trans (exec_busy hbusy hrun.hasDestination)), ?_⟩
  rw [complete_eq]
  exact ⟨rfl, rfl, Bool.and_true _⟩

/-! ## What stops -/

theorem exec_next (i : Instr) (s : State) : ∃ t, exec i s = .next t := by
  cases hseq : s.seq with
  | idle => exact ⟨_, exec_idle i hseq⟩
  | busy l => exact ⟨_, exec_eq_finish i hseq⟩

theorem present_next (v : Word) (s : State) : ∃ t, present v s = .next t := by
  cases hseq : s.seq with
  | busy l => exact ⟨_, present_busy v hseq⟩
  | idle =>
    cases hdecode : decode v with
    | error e => exact ⟨_, present_undecodable hseq hdecode⟩
    | ok i => simpa only [present, hseq, hdecode] using exec_next i s

theorem hostWrite_next (off : Nat) (v : Word) (s : State) : ∃ t, hostWrite off v s = .next t := by
  unfold hostWrite
  split
  · exact present_next v s
  all_goals exact ⟨_, rfl⟩

/-- SEQ's turn answers a next state, or stops in the one stuck state. -/
theorem seqStep_next_or_fault (s : State) : (∃ t, seqStep s = .next t) ∨ seqStep s = .fault .undecodableLatch := by
  cases hseq : s.seq with
  | idle => exact .inl ⟨s, by simp only [seqStep, hseq]⟩
  | busy l =>
    cases hdecode : decode l.word with
    | error e => exact .inr (by simp only [seqStep, hseq, hdecode])
    | ok i =>
      rw [seqStep_busy hseq hdecode]
      exact .inl (exec_next i s)

theorem Inv.seqStep_next {s : State} (h : Inv s) : ∃ t, seqStep s = .next t := by
  cases hseq : s.seq with
  | idle => exact ⟨s, by simp only [seqStep, hseq]⟩
  | busy l =>
    obtain ⟨i, hrun⟩ := h.running hseq
    rw [seqStep_busy hseq hrun.decodes]
    exact exec_next i s

/-- An input that is not supported is refused. -/
theorem refused_of_unsupported {inp : Input} {s : State} (h : supportedInput inp s = false) :
    ∃ r, runInput inp s = .refused r := by
  cases inp with
  | hostRead width off | hostWrite width off v =>
    cases haccess : accessRefusal width off s with
    | none => simp [supportedInput, haccess] at h
    | some r => exact ⟨r, by simp only [runInput, haccess]⟩
  | seqTurn | assertReset powerOn | releaseReset => cases h

/-- A supported input is not refused: it answers a next state, or SEQ takes its turn. -/
theorem runInput_of_supported {inp : Input} {s : State} (h : supportedInput inp s = true) :
    (∃ t, runInput inp s = .next t) ∨ runInput inp s = seqStep s := by
  cases inp with
  | hostRead width off =>
    simp only [supportedInput, decide_eq_true_eq] at h
    exact .inl ⟨hostRead off.toNat s, by simp only [runInput, h]⟩
  | hostWrite width off v =>
    simp only [supportedInput, decide_eq_true_eq] at h
    obtain ⟨t, ht⟩ := hostWrite_next off.toNat v s
    exact .inl ⟨t, by simp only [runInput, h, ht]⟩
  | seqTurn => exact .inr rfl
  | assertReset powerOn | releaseReset => exact .inl ⟨_, rfl⟩

theorem seqStep_not_refused (s : State) (r : Refusal) : seqStep s ≠ .refused r := by
  intro h
  rcases seqStep_next_or_fault s with ⟨t, ht⟩ | hfault
  · cases ht.symm.trans h
  · cases hfault.symm.trans h

/-- Settles O55: SEQ's turn is never refused and an input exactly when it is not supported. -/
theorem unsupportedAccessesAreRefused : Obligations.UnsupportedAccessesAreRefused := by
  refine ⟨fun s => ?_, fun s width off => accessRefusal_eq_none_iff width off s⟩
  cases hinputs : s.inputs with
  | nil =>
    rw [step_of_no_inputs hinputs]
    refine iff_of_false (fun ⟨r, hr⟩ => seqStep_not_refused s r hr) ?_
    rintro ⟨inp, rest, hcons, -⟩
    cases hcons
  | cons inp rest =>
    rw [step_of_input hinputs]
    constructor
    · rintro ⟨r, hr⟩
      refine ⟨inp, rest, rfl, ?_⟩
      by_contra hsupported
      rcases runInput_of_supported (by simpa using hsupported) with ⟨t, ht⟩ | hturn
      · cases ht.symm.trans hr
      · exact seqStep_not_refused _ r (hturn.symm.trans hr)
    · rintro ⟨inp', rest', hcons, hunsupported⟩
      obtain ⟨rfl, rfl⟩ := List.cons.inj hcons
      exact refused_of_unsupported hunsupported

theorem supportedInput_withInputs (inp : Input) (s : State) (rest : List Input) :
    supportedInput inp { s with inputs := rest } = supportedInput inp s := by
  cases inp <;> rfl

/-- Settles O56: a supported input goes on unless SEQ has the turn, and in the invariant SEQ's turn goes on. -/
theorem supportedStepsNeverStop : Obligations.SupportedStepsNeverStop := by
  intro s h hsupported
  cases hinputs : s.inputs with
  | nil =>
    rw [step_of_no_inputs hinputs]
    exact h.seqStep_next
  | cons inp rest =>
    rw [step_of_input hinputs]
    have hinp := hsupported inp rest hinputs
    rw [← supportedInput_withInputs inp s rest] at hinp
    rcases runInput_of_supported hinp with hnext | hturn
    · exact hnext
    · rw [hturn]
      exact (h.withInputs rest).seqStep_next

/-! ## NCUR (10_state.md R29) -/

theorem exists_pow_of_bindingOk {n : Word} (h : bindingOk n = true) :
    n = 0 ∨ ∃ k, 1 ≤ k ∧ k ≤ 16 ∧ n.toNat = 2 ^ k := by
  rcases Bool.or_eq_true_iff.1 h with hzero | hsize
  · exact .inl (of_decide_eq_true hzero)
  · obtain ⟨k, hk⟩ := (sizeSupported_iff _).1 hsize
    exact .inr ⟨k, by omega⟩

@[simp] theorem complete_ncur (l : Latch) (r : Result) (s : State) : (complete l r s).ncur = s.ncur := by
  rw [complete_eq]
  rfl

@[simp] theorem hostRead_ncur (off : Nat) (s : State) : (hostRead off s).ncur = s.ncur := by
  unfold hostRead
  split
  · rfl
  · rfl
  · split_ifs <;> rfl

@[simp] theorem writeReg_ncur (r : Reg) (v : Word) (s : State) : (writeReg r v s).ncur = s.ncur := by
  cases r <;> rfl

@[simp] theorem writeDmem_ncur (w : Nat) (v : Word) (s : State) : (writeDmem w v s).ncur = s.ncur := by
  unfold writeDmem
  split_ifs <;> rfl

/-- Settles O50: the size is one of the invariant, which the step keeps; only CFG and reset write NCUR. -/
theorem ncurChangesOnlyByCfgOrReset : Obligations.NcurChangesOnlyByCfgOrReset := by
  refine ⟨rfl, fun s t h hstep => ⟨exists_pow_of_bindingOk (stepKeepsTheInvariant s t h hstep).binding, ?_⟩⟩
  cases stepKind_of_step hstep with
  | pause rest hmoves hidle ht => exact .inl (by simp [ht])
  | completion rest i l hmoves hbusy hdecode ht =>
    rw [ht, finish_of_usesD (h.running_of_decode hbusy hdecode).hasDestination, complete_ncur]
    exact .inl rfl
  | read rest off hinputs hreset ht => exact .inl (by rw [ht, hostRead_ncur])
  | register rest off r v hinputs hreg hr ht => exact .inl (by rw [ht, writeReg_ncur])
  | ignored rest off v hinputs htarget ht => exact .inl (by simp [ht])
  | store rest w v hinputs hw ht => exact .inl (by rw [ht, writeDmem_ncur])
  | release rest hinputs ht => exact .inl (by simp [ht])
  | assertion rest powerOn hinputs ht =>
    exact .inr (.inl ⟨by simp [ht, assertReset, State.reset], _, rest, hinputs, rfl⟩)
  | command rest v hinputs hreset hcommand =>
    cases hcommand with
    | dropped l hbusy ht => exact .inl (by simp [ht])
    | failed e hidle hinfo ht => exact .inl (by simp [ht])
    | nop hidle ht => exact .inl (by simp [ht])
    | started i hidle hdecode hd hcheck ht => exact .inl (by simp [ht])
    | cfg hidle hword hsize ht =>
      subst hword
      exact .inr (.inr ⟨by simp [ht], hidle, rest, hinputs⟩)

/-! ## The operand registers and CTRL (10_state.md R21) -/

/-- CTRL and every operand register of `t` are those of `s`. -/
def SameOperands (s t : State) : Prop :=
  t.ie = s.ie ∧ t.numchk = s.numchk ∧ t.size = s.size ∧ t.aAddr = s.aAddr ∧ t.aLen = s.aLen ∧ t.bAddr = s.bAddr ∧
    t.bLen = s.bLen ∧ t.dAddr = s.dAddr ∧ t.dLen = s.dLen ∧ t.width = s.width ∧ t.height = s.height ∧ t.fp0 = s.fp0 ∧
    t.fp1 = s.fp1

theorem SameOperands.refl (s : State) : SameOperands s s :=
  ⟨rfl, rfl, rfl, rfl, rfl, rfl, rfl, rfl, rfl, rfl, rfl, rfl, rfl⟩

theorem sameOperands_complete (l : Latch) (r : Result) (s : State) : SameOperands s (complete l r s) := by
  rw [complete_eq]
  exact SameOperands.refl s

theorem sameOperands_finish (i : Instr) (l : Latch) (s : State) : SameOperands s (finish i l s) := by
  cases hd : usesD i with
  | true =>
    rw [finish_of_usesD hd]
    exact sameOperands_complete ..
  | false =>
    rcases eq_nop_or_cfg_of_usesD hd with rfl | rfl
    · exact SameOperands.refl s
    · exact SameOperands.refl s

theorem sameOperands_hostRead (off : Nat) (s : State) : SameOperands s (hostRead off s) := by
  unfold hostRead
  split
  · exact SameOperands.refl s
  · exact SameOperands.refl s
  · split_ifs <;> exact SameOperands.refl s

theorem sameOperands_writeDmem (w : Nat) (v : Word) (s : State) : SameOperands s (writeDmem w v s) := by
  unfold writeDmem
  split_ifs <;> exact SameOperands.refl s

theorem sameOperands_command {v : Word} {s t : State} (h : CommandWrite v s t) : SameOperands s t := by
  cases h with
  | dropped l hbusy ht => exact ht ▸ SameOperands.refl s
  | failed e hidle hinfo ht => exact ht ▸ SameOperands.refl s
  | nop hidle ht => exact ht ▸ SameOperands.refl s
  | cfg hidle hword hsize ht => exact ht ▸ SameOperands.refl s
  | started i hidle hdecode hd hcheck ht => exact ht ▸ SameOperands.refl s

/-- Registers lie below DMEM in the window. -/
theorem lt_of_mem_registerMap {off : Nat} {r : Reg} (h : (off, r) ∈ registerMap) : off < 0x48 := by
  have hall : ∀ row ∈ registerMap, row.1 < 0x48 := by decide
  exact hall _ h

/-- Only CMD lies at the offset of CMD. -/
theorem eq_cmd_of_mem_registerMap {r : Reg} (h : (0x00C, r) ∈ registerMap) : r = .cmd := by
  have hall : ∀ row ∈ registerMap, row.1 = 0x00C → row.2 = .cmd := by decide
  exact hall _ h rfl

/-- Settles O51: a step that changes one of them is a register write or reset. -/
theorem operandRegistersAreWrittenOnlyByHost : Obligations.OperandRegistersAreWrittenOnlyByHost := by
  intro s t hstep hinput
  change SameOperands s t
  cases stepKind_of_step hstep with
  | pause rest hmoves hidle ht => exact ht ▸ SameOperands.refl s
  | completion rest i l hmoves hbusy hdecode ht => exact ht ▸ sameOperands_finish ..
  | read rest off hinputs hreset ht => exact ht ▸ sameOperands_hostRead ..
  | command rest v hinputs hreset hcommand =>
    have hsame := sameOperands_command hcommand
    exact hsame
  | ignored rest off v hinputs htarget ht => exact ht ▸ SameOperands.refl s
  | store rest w v hinputs hw ht => exact ht ▸ sameOperands_writeDmem ..
  | release rest hinputs ht => exact ht ▸ SameOperands.refl s
  | assertion rest powerOn hinputs ht => exact absurd (hinput _ _ hinputs).1 (by simp [isReset])
  | register rest off r v hinputs hreg hr ht =>
    rcases (hinput _ _ hinputs).2 32 off v rfl with hcmd | hdmem
    · obtain rfl : off = 0x00C := by exact_mod_cast hcmd
      exact absurd (eq_cmd_of_mem_registerMap hreg) hr
    · have hlow := lt_of_mem_registerMap hreg
      omega

end Sys2Proof.Machine
end

section
/-! PROOFS. OVR and the interrupt (10_state.md R26, R42, R47; 60_exceptions.md R253, R254). -/

namespace Sys2Proof.Machine

/-! ## The status bits that no step but a few touch -/

@[simp] theorem finish_ovr (i : Instr) (l : Latch) (s : State) : (finish i l s).ovr = s.ovr := by
  cases hd : usesD i with
  | true =>
    rw [finish_of_usesD hd, complete_eq]
    rfl
  | false => rcases eq_nop_or_cfg_of_usesD hd with rfl | rfl <;> rfl

@[simp] theorem finish_ie (i : Instr) (l : Latch) (s : State) : (finish i l s).ie = s.ie := (sameOperands_finish i l s).1

@[simp] theorem finish_done (i : Instr) (l : Latch) (s : State) : (finish i l s).done = true := by
  cases hd : usesD i with
  | true =>
    rw [finish_of_usesD hd, complete_eq]
    rfl
  | false => rcases eq_nop_or_cfg_of_usesD hd with rfl | rfl <;> rfl

/-- A HOST read changes nothing but what HOST received and the draws (20_memory.md R67, R70). -/
theorem hostRead_eq (off : Nat) (s : State) :
    hostRead off s = { s with rdata := (hostRead off s).rdata, draws := (hostRead off s).draws } := by
  unfold hostRead
  split
  · rfl
  · rfl
  · split_ifs <;> rfl

/-- A HOST write of DMEM changes nothing but DMEM and the record of clobbered words. -/
theorem writeDmem_eq (w : Nat) (v : Word) (s : State) :
    writeDmem w v s = { s with dmem := (writeDmem w v s).dmem, clobbered := (writeDmem w v s).clobbered } := by
  unfold writeDmem
  split_ifs <;> rfl

theorem writeReg_ovr (r : Reg) (v : Word) (s : State) :
    (writeReg r v s).ovr = if r = .status then s.ovr && !v.getLsbD 3 else s.ovr := by
  cases r <;> rfl

/-- A command that is accepted, or fails, leaves OVR. -/
theorem CommandWrite.ovr {v : Word} {s t : State} (h : CommandWrite v s t) : t.ovr = (s.isBusy || s.ovr) := by
  cases h with
  | dropped l hbusy ht => simp [ht, State.isBusy, hbusy]
  | failed e hidle hinfo ht => simp [ht, State.isBusy, hidle]
  | nop hidle ht => simp [ht, State.isBusy, hidle]
  | cfg hidle hword hsize ht => simp [ht, State.isBusy, hidle]
  | started i hidle hdecode hd hcheck ht => simp [ht, State.isBusy, hidle]

theorem offset_of_status {off : Nat} (h : (off, Reg.status) ∈ registerMap) : off = 0x008 := by
  simpa [registerMap] using h

theorem offset_of_ctrl {off : Nat} (h : (off, Reg.ctrl) ∈ registerMap) : off = 0x004 := by
  simpa [registerMap] using h

/-- The other registers lie elsewhere. -/
theorem offset_of_other_register {off : Nat} {r : Reg} (h : (off, r) ∈ registerMap) (hctrl : r ≠ .ctrl)
    (hstatus : r ≠ .status) (hcmd : r ≠ .cmd) : off ≠ 0x004 ∧ off ≠ 0x008 ∧ off ≠ 0x00C := by
  have hall : ∀ row ∈ registerMap, row.2 ≠ .ctrl → row.2 ≠ .status → row.2 ≠ .cmd →
      row.1 ≠ 0x004 ∧ row.1 ≠ 0x008 ∧ row.1 ≠ 0x00C := by decide
  exact hall _ h hctrl hstatus hcmd

/-- A flag that a step keeps is neither set nor cleared by it. -/
theorem flag_kept {before after : Bool} (h : after = before) {P Q : Prop} :
    (before = false → after = true → P) ∧ (before = true → after = false → Q) := by
  subst h
  constructor <;> intro h1 h2 <;> cases h1.symm.trans h2

/-- Settles O52: only a dropped command sets OVR; only reset and a write of STATUS can clear it. -/
theorem overrunIsSticky : Obligations.OverrunIsSticky := by
  intro s t hstep
  cases stepKind_of_step hstep with
  | pause rest hmoves hidle ht => exact flag_kept (by rw [ht])
  | completion rest i l hmoves hbusy hdecode ht => exact flag_kept (by rw [ht, finish_ovr])
  | read rest off hinputs hreset ht => exact flag_kept (by rw [ht, hostRead_eq])
  | ignored rest off v hinputs htarget ht => exact flag_kept (by rw [ht])
  | store rest w v hinputs hw ht => exact flag_kept (by rw [ht, writeDmem_eq])
  | release rest hinputs ht => exact flag_kept (by rw [ht, releaseReset_ovr])
  | assertion rest powerOn hinputs ht =>
    subst ht
    exact ⟨fun _ hset => absurd hset Bool.false_ne_true, fun _ _ => .inr ⟨_, rest, hinputs, rfl⟩⟩
  | command rest v hinputs hreset hcommand =>
    have hovr : t.ovr = (s.isBusy || s.ovr) := hcommand.ovr
    refine ⟨fun hclear hset => ⟨?_, _, rest, hinputs, rfl⟩, fun hset hclear => ?_⟩
    · simpa [hclear, hset] using hovr
    · simp [hset, hclear] at hovr
  | register rest off r v hinputs hreg hr ht =>
    have hovr := writeReg_ovr r v { s with inputs := rest }
    rw [← ht] at hovr
    by_cases hstatus : r = .status
    · subst hstatus
      obtain rfl := offset_of_status hreg
      refine ⟨fun hclear hset => ?_, fun hset hclear => .inl ⟨v, rest, hinputs, ?_⟩⟩
      · simp [hclear, hset] at hovr
      · simpa [hset, hclear] using hovr
    · exact flag_kept (hovr.trans (if_neg hstatus))

/-! ## irq -/

/-- The level of `irq` after a register write: CTRL gives IE, STATUS can clear DONE. -/
theorem writeReg_irq (r : Reg) (v : Word) (s : State) :
    (writeReg r v s).irq =
      if r = .ctrl then v.getLsbD 0 && s.done else if r = .status then s.irq && !v.getLsbD 1 else s.irq := by
  cases r with
  | status => simp [writeReg, State.irq, Bool.and_assoc]
  | _ => rfl

/-- The level of `irq` after a CMD write: low when SEQ starts, IE when the command completed at once. -/
theorem CommandWrite.irq {v : Word} {s t : State} (h : CommandWrite v s t) :
    t.irq = if s.isBusy then s.irq else !t.isBusy && s.ie := by
  cases h with
  | dropped l hbusy ht => simp [ht, State.isBusy, State.irq, hbusy]
  | failed e hidle hinfo ht => simp [ht, State.isBusy, State.irq, hidle]
  | nop hidle ht => simp [ht, State.isBusy, State.irq, hidle]
  | cfg hidle hword hsize ht => simp [ht, State.isBusy, State.irq, hidle]
  | started i hidle hdecode hd hcheck ht => simp [ht, State.isBusy, State.irq, hidle]

/-- What lowers `irq` (60_exceptions.md R253), by the next input. -/
def LowersIrq (s t : State) : Prop :=
  (∃ v rest, s.inputs = .hostWrite 32 0x008 v :: rest ∧ v.getLsbD 1 = true) ∨
    (∃ v rest, s.inputs = .hostWrite 32 0x004 v :: rest ∧ v.getLsbD 0 = false) ∨
    (s.isBusy = false ∧ t.isBusy = true ∧ ∃ v rest, s.inputs = .hostWrite 32 0x00C v :: rest) ∨
    ∃ inp rest, s.inputs = inp :: rest ∧ isReset inp = true

theorem not_lowersIrq_of_seqMovesNext {s : State} (t : State) (h : seqMovesNext s = true) : ¬ LowersIrq s t := by
  unfold seqMovesNext at h
  split at h <;> simp_all [LowersIrq, isReset]

theorem lowersIrq_hostWrite {s : State} {off : Int} {v : Word} {rest : List Input} (t : State)
    (hinputs : s.inputs = .hostWrite 32 off v :: rest) :
    LowersIrq s t ↔
      (off = 0x008 ∧ v.getLsbD 1 = true) ∨ (off = 0x004 ∧ v.getLsbD 0 = false) ∨
        (off = 0x00C ∧ s.isBusy = false ∧ t.isBusy = true) := by
  simp [LowersIrq, hinputs, isReset]
  tauto

/-- A HOST write at another offset that keeps `irq` does not lower it. -/
theorem irq_hostWrite_iff {s t : State} {rest : List Input} {off : Nat} {v : Word}
    (hinputs : s.inputs = .hostWrite 32 off v :: rest) (hkept : t.irq = s.irq) (hhigh : s.irq = true)
    (hoff : off ≠ 0x004 ∧ off ≠ 0x008 ∧ off ≠ 0x00C) : t.irq = false ↔ LowersIrq s t := by
  rw [hkept, hhigh, lowersIrq_hostWrite t hinputs]
  refine iff_of_false (by simp) ?_
  rintro (⟨h, -⟩ | ⟨h, -⟩ | ⟨h, -⟩) <;> omega

/-- `irq` falls exactly on what lowers it. -/
theorem irq_falls_iff {s t : State} (hstep : step s = .next t) (hhigh : s.irq = true) :
    t.irq = false ↔ LowersIrq s t := by
  have hie : s.ie = true := (Bool.and_eq_true_iff.1 hhigh).1
  have hdone : s.done = true := (Bool.and_eq_true_iff.1 hhigh).2
  have hquiet (hkept : t.irq = true) (hnot : ¬ LowersIrq s t) : t.irq = false ↔ LowersIrq s t :=
    iff_of_false (by simp [hkept]) hnot
  cases stepKind_of_step hstep with
  | pause rest hmoves hidle ht =>
    exact hquiet (by rw [ht]; exact hhigh) (not_lowersIrq_of_seqMovesNext t hmoves)
  | completion rest i l hmoves hbusy hdecode ht =>
    exact hquiet (by simp [ht, State.irq, hie]) (not_lowersIrq_of_seqMovesNext t hmoves)
  | read rest off hinputs hreset ht =>
    refine hquiet (by rw [ht, hostRead_eq]; exact hhigh) ?_
    simp [LowersIrq, hinputs, isReset]
  | release rest hinputs ht =>
    refine hquiet (by rw [ht]; exact hhigh) ?_
    simp [LowersIrq, hinputs, isReset]
  | assertion rest powerOn hinputs ht =>
    exact iff_of_true (by rw [ht]; rfl) (.inr (.inr (.inr ⟨_, rest, hinputs, rfl⟩)))
  | ignored rest off v hinputs htarget ht =>
    refine irq_hostWrite_iff hinputs (by rw [ht]; rfl) hhigh ⟨?_, ?_, ?_⟩ <;> rintro rfl <;> cases htarget
  | store rest w v hinputs hw ht =>
    refine irq_hostWrite_iff (off := 0x01000000 + 4 * w) (by exact_mod_cast hinputs) ?_ hhigh (by omega)
    rw [ht, writeDmem_eq]
    rfl
  | command rest v hinputs hreset hcommand =>
    have hirq : t.irq = if s.isBusy then s.irq else !t.isBusy && s.ie := hcommand.irq
    rw [hirq, hhigh, hie, lowersIrq_hostWrite t hinputs]
    cases s.isBusy <;> cases t.isBusy <;> simp
  | register rest off r v hinputs hreg hr ht =>
    have hirq : t.irq =
        if r = .ctrl then v.getLsbD 0 && s.done else if r = .status then s.irq && !v.getLsbD 1 else s.irq := by
      rw [ht]
      exact writeReg_irq r v { s with inputs := rest }
    by_cases hctrl : r = .ctrl
    · subst hctrl
      obtain rfl := offset_of_ctrl hreg
      rw [hirq, if_pos rfl, hdone, Bool.and_true, lowersIrq_hostWrite t hinputs]
      simp
    by_cases hstatus : r = .status
    · subst hstatus
      obtain rfl := offset_of_status hreg
      rw [hirq, if_neg hctrl, if_pos rfl, hhigh, Bool.true_and, lowersIrq_hostWrite t hinputs]
      simp
    · rw [if_neg hctrl, if_neg hstatus] at hirq
      exact irq_hostWrite_iff hinputs hirq hhigh (offset_of_other_register hreg hctrl hstatus hr)

/-- `irq` rises only by a completion with IE set, or by a write of CTRL with DONE set. -/
theorem irq_rises {s t : State} (hstep : step s = .next t) (hlow : s.irq = false) (hhigh : t.irq = true) :
    (s.ie = true ∧ s.done = false ∧ t.done = true ∧
      ((s.isBusy = true ∧ seqMovesNext s = true) ∨
        (s.isBusy = false ∧ ∃ inp rest, s.inputs = inp :: rest ∧ isCommandWrite inp = true))) ∨
    (s.done = true ∧ ∃ v rest, s.inputs = .hostWrite 32 0x004 v :: rest ∧ v.getLsbD 0 = true) := by
  have hkept (h : t.irq = s.irq) : False := by simp [h, hlow] at hhigh
  have hdone : t.done = true := (Bool.and_eq_true_iff.1 hhigh).2
  have hcompleted (hie : s.ie = true) : s.done = false := by simpa [State.irq, hie] using hlow
  cases stepKind_of_step hstep with
  | pause rest hmoves hidle ht => exact (hkept (by rw [ht]; rfl)).elim
  | read rest off hinputs hreset ht => exact (hkept (by rw [ht, hostRead_eq]; rfl)).elim
  | ignored rest off v hinputs htarget ht => exact (hkept (by rw [ht]; rfl)).elim
  | store rest w v hinputs hw ht => exact (hkept (by rw [ht, writeDmem_eq]; rfl)).elim
  | release rest hinputs ht => exact (hkept (by rw [ht]; rfl)).elim
  | assertion rest powerOn hinputs ht =>
    subst ht
    cases hhigh
  | completion rest i l hmoves hbusy hdecode ht =>
    have hie : s.ie = true := by simpa [ht, State.irq] using hhigh
    exact .inl ⟨hie, hcompleted hie, hdone, .inl ⟨by simp [State.isBusy, hbusy], hmoves⟩⟩
  | command rest v hinputs hreset hcommand =>
    have hirq : t.irq = if s.isBusy then s.irq else !t.isBusy && s.ie := hcommand.irq
    cases hbusy : s.isBusy with
    | true => exact (hkept (by rw [hirq, hbusy, if_pos rfl])).elim
    | false =>
      rw [hbusy, if_neg Bool.false_ne_true, hhigh] at hirq
      have hie : s.ie = true := (Bool.and_eq_true_iff.1 hirq.symm).2
      exact .inl ⟨hie, hcompleted hie, hdone, .inr ⟨rfl, _, rest, hinputs, rfl⟩⟩
  | register rest off r v hinputs hreg hr ht =>
    have hirq : t.irq =
        if r = .ctrl then v.getLsbD 0 && s.done else if r = .status then s.irq && !v.getLsbD 1 else s.irq := by
      rw [ht]
      exact writeReg_irq r v { s with inputs := rest }
    rw [hhigh] at hirq
    split_ifs at hirq with hctrl hstatus
    · subst hctrl
      obtain rfl := offset_of_ctrl hreg
      obtain ⟨hbit, hset⟩ := Bool.and_eq_true_iff.1 hirq.symm
      exact .inr ⟨hset, v, rest, hinputs, hbit⟩
    · simp [hlow] at hirq
    · simp [hlow] at hirq

/-- Settles O53: the level is IE and DONE by definition; it falls and rises as above. -/
theorem interruptRisesOnlyOnCompletionOrEnable : Obligations.InterruptRisesOnlyOnCompletionOrEnable :=
  ⟨fun _ => rfl, fun _ _ hstep hhigh => irq_falls_iff hstep hhigh, fun _ _ hstep hlow hhigh => irq_rises hstep hlow hhigh⟩

end Sys2Proof.Machine
end

section
/-! PROOFS. HOST's view of the block (10_state.md R23 to R36, 20_memory.md R60 to R62): the registers, STATUS, the DMEM
window, and the reset input (70_reset_and_hazards.md R270 to R272). -/

namespace Sys2Proof.Machine

/-! ## The register window -/

/-- What HOST reads at an offset of the register window: the register there, or 0 (R36). -/
def windowRead (off : Nat) (s : State) : Word :=
  match registerAt off with
  | some r => readReg r s
  | none => 0x00000000

/-- What a HOST write there does, CMD apart: the write of the register, or nothing (R36). -/
def windowWrite (off : Nat) (v : Word) (s : State) : State :=
  match registerAt off with
  | some r => writeReg r v s
  | none => s

theorem step_registerRead {s : State} {off : Nat} {rest : List Input} (hreset : s.inReset = false) (hoff : off < 4096)
    (haligned : off % 4 = 0) (hinputs : s.inputs = .hostRead 32 off :: rest) :
    step s = .next { s with inputs := rest, rdata := windowRead off s } := by
  rw [step_hostRead hinputs hreset (hoff.trans (by decide)) haligned, hostRead, target_registerWindow _ hoff, windowRead]
  cases registerAt off with
  | none => rfl
  | some r => cases r <;> rfl

theorem step_registerWrite {s : State} {off : Nat} {v : Word} {rest : List Input} (hreset : s.inReset = false)
    (hoff : off < 4096) (haligned : off % 4 = 0) (hcmd : off ≠ 0x00C)
    (hinputs : s.inputs = .hostWrite 32 off v :: rest) :
    step s = .next (windowWrite off v { s with inputs := rest }) := by
  rw [step_hostWrite hinputs hreset (hoff.trans (by decide)) haligned, hostWrite, target_registerWindow _ hoff,
    windowWrite]
  cases hreg : registerAt off with
  | none => rfl
  | some r =>
    cases r with
    | cmd => exact absurd (offset_of_cmd (registerAt_mem hreg)) hcmd
    | _ => rfl

theorem windowWrite_keeps (off : Nat) (v : Word) (s : State) :
    (windowWrite off v s).inReset = s.inReset ∧ (windowWrite off v s).inputs = s.inputs := by
  unfold windowWrite
  split
  · next r _ => cases r <;> exact ⟨rfl, rfl⟩
  · exact ⟨rfl, rfl⟩

/-- At the offsets of the map stands its register, at the others none. -/
theorem registerAt_eq_none {off : Nat} (h : registerAt off = none) : off ∉ registerMap.map (·.1) := by
  rw [registerAt, Option.map_eq_none_iff, List.find?_eq_none] at h
  rw [List.mem_map]
  rintro ⟨row, hrow, rfl⟩
  simpa using h row hrow

/-- An offset of the register window is reserved or stands in the map with its register. -/
theorem registerAt_spec (off : Nat) :
    (off ∉ registerMap.map (·.1) ∧ registerAt off = none) ∨
      ∃ row ∈ registerMap, off = row.1 ∧ registerAt off = some row.2 := by
  cases hreg : registerAt off with
  | none => exact .inl ⟨registerAt_eq_none hreg, rfl⟩
  | some r => exact .inr ⟨_, registerAt_mem hreg, rfl, rfl⟩

theorem ctrlWord_eq (s : State) : ctrlWord s = BitVec.ofNat 32 (s.ie.toNat + 2 * s.numchk.toNat) := by
  unfold ctrlWord
  cases s.ie <;> cases s.numchk <;> rfl

/-- The two bits CTRL keeps of what HOST writes (R25). -/
theorem ctrlWord_writeCtrl (v : Word) (s : State) : ctrlWord (writeCtrl v s) = v &&& 0x00000003 := by
  have hmask (i : Nat) : (0x00000003 : Word).getLsbD i = decide (i < 2) := by
    rcases Nat.lt_or_ge i 2 with hi | hi
    · interval_cases i <;> rfl
    · rw [decide_eq_false (by omega), BitVec.getLsbD, Nat.testBit_lt_two_pow]
      exact lt_of_lt_of_le (by decide : (0x00000003 : Word).toNat < 2 ^ 2) (Nat.pow_le_pow_right (by norm_num) hi)
  apply BitVec.eq_of_getLsbD_eq
  intro i hi
  rw [BitVec.getLsbD_and, hmask]
  simp only [ctrlWord, BitVec.getLsbD_append, writeCtrl_ie, writeCtrl_numchk, BitVec.getLsbD_ofBool]
  rcases Nat.lt_or_ge i 2 with h | h
  · interval_cases i <;> simp
  · simp [show ¬ i < 1 by omega, show ¬ i - 1 < 1 by omega, show ¬ i < 2 by omega]

/-- STATUS as a sum of its fields at their bits (R26). -/
theorem toNat_statusWord (s : State) :
    (statusWord s).toNat = s.isBusy.toNat + 2 * s.done.toNat + 4 * s.err.toNat + 8 * s.ovr.toNat +
      16 * s.errcode.number.toNat + 256 * s.engv.toNat + 65536 * s.log2n.toNat := by
  simp only [statusWord, toNat_append_eq_add, BitVec.toNat_ofBool, BitVec.ofNat_eq_ofNat, BitVec.toNat_zero]
  ring

theorem toNat_log2n (s : State) :
    s.log2n.toNat = if s.ncur = 0 then 0 else Nat.log2 s.ncur.toNat := by
  by_cases hzero : s.ncur = 0
  · simp [State.log2n, State.engv, hzero]
  · have hne : s.ncur.toNat ≠ 0 := fun h => hzero (BitVec.eq_of_toNat_eq h)
    have hlog : Nat.log2 s.ncur.toNat < 2 ^ 5 := (Nat.log2_lt hne).2 s.ncur.isLt
    have hengv : s.engv = true := bne_iff_ne.2 hzero
    rw [State.log2n, hengv, if_pos rfl, if_neg hzero, BitVec.toNat_ofNat, Nat.mod_eq_of_lt hlog]

theorem engv_eq (s : State) : s.engv = decide (s.ncur ≠ 0) := by
  by_cases h : s.ncur = 0
  · simp [State.engv, h]
  · rw [decide_eq_true h]
    exact bne_iff_ne.2 h

/-- The number of the error code, as a natural number (60_exceptions.md R241). -/
theorem toNat_number (e : ErrCode) :
    e.number.toNat = match e with
      | .ok => 0
      | .invalidSize => 1
      | .sizeMismatch => 2
      | .numericAssert => 3
      | .notConfigured => 4
      | .addressRange => 5
      | .illegalCommand => 6 := by
  cases e <;> rfl

theorem err_eq (s : State) : s.err = decide (s.errcode.number.toNat ≠ 0) := by
  rw [State.err]
  cases s.errcode <;> rfl

/-- STATUS as HOST reads it, put together from its fields (R26). -/
theorem statusWord_eq (s : State) :
    statusWord s = BitVec.ofNat 32 (s.isBusy.toNat + 2 * s.done.toNat +
      4 * (decide (s.errcode.number.toNat ≠ 0)).toNat + 8 * s.ovr.toNat + 16 * s.errcode.number.toNat +
      256 * (decide (s.ncur ≠ 0)).toNat + 65536 * (if s.ncur = 0 then 0 else Nat.log2 s.ncur.toNat)) := by
  rw [← err_eq, ← engv_eq, ← toNat_log2n, ← toNat_statusWord, BitVec.ofNat_toNat, BitVec.setWidth_eq]

/-- Settles O48: each access is the access to the register of the map at its offset, and the rows of the map give the
registers of the statement. -/
theorem registersReadBack : Obligations.RegistersReadBack := by
  refine ⟨fun s v rest off hreset hoff haligned hcmd hinputs => ?write,
    fun s rest off hreset hoff haligned hinputs => ?read,
    fun s v rest off hreset hoff haligned hstatus hcmd hinputs => ?writeRead⟩
  case write =>
    rw [step_registerWrite hreset hoff haligned hcmd hinputs, windowWrite]
    rcases registerAt_spec off with ⟨hreserved, hreg⟩ | ⟨row, hrow, rfl, hreg⟩ <;> rw [hreg]
    · simp [registerMap] at hreserved
      simp [hreserved]
    · fin_cases hrow <;> rfl
  case read =>
    refine (step_registerRead hreset hoff haligned hinputs).trans
      (congrArg (fun w => Host.Outcome.next { s with inputs := rest, rdata := w }) ?_)
    rw [windowRead]
    rcases registerAt_spec off with ⟨hreserved, hreg⟩ | ⟨row, hrow, rfl, hreg⟩ <;> rw [hreg]
    · simp [registerMap] at hreserved
      simp [hreserved]
    · have hstat := statusWord_eq s
      rw [toNat_number] at hstat
      fin_cases hrow
      -- The rows that are not by definition what the statement lists: STATUS and CTRL.
      on_goal 3 => exact hstat
      on_goal 2 => exact ctrlWord_eq s
      all_goals rfl
  case writeRead =>
    obtain ⟨hreset', hinputs'⟩ := windowWrite_keeps off v { s with inputs := .hostRead 32 off :: rest }
    refine ⟨_, _, step_registerWrite hreset hoff haligned hcmd hinputs,
      step_registerRead (hreset'.trans hreset) hoff haligned hinputs', rfl, ?_⟩
    change windowRead off (windowWrite off v _) = _
    rw [windowRead, windowWrite]
    rcases registerAt_spec off with ⟨hreserved, hreg⟩ | ⟨row, hrow, rfl, hreg⟩ <;> rw [hreg]
    · simp [registerMap] at hreserved
      rw [if_neg (by omega), if_neg (by omega), if_neg (by omega), if_neg (by omega), if_neg (by omega)]
    · fin_cases hrow
      -- The excluded rows CMD and STATUS, and CTRL, which keeps two bits.
      on_goal 4 => exact absurd rfl hcmd
      on_goal 3 => exact absurd rfl hstatus
      on_goal 2 => exact ctrlWord_writeCtrl v _
      all_goals rfl

/-- The fields of STATUS, bit by bit (R26). -/
theorem statusWord_fields (s : State) :
    (statusWord s).getLsbD 0 = s.isBusy ∧ (statusWord s).getLsbD 1 = s.done ∧ (statusWord s).getLsbD 2 = s.err ∧
      (statusWord s).getLsbD 3 = s.ovr ∧ (statusWord s).extractLsb' 4 4 = s.errcode.number ∧
      (statusWord s).getLsbD 8 = s.engv ∧ (statusWord s).extractLsb' 9 7 = 0 ∧
      (statusWord s).extractLsb' 16 5 = s.log2n ∧ (statusWord s).extractLsb' 21 11 = 0 := by
  refine ⟨?_, ?_, ?_, ?_, ?_, ?_, ?_, ?_, ?_⟩
  case refine_5 | refine_7 | refine_8 | refine_9 =>
    apply BitVec.eq_of_getLsbD_eq
    intro i hi
    simp only [statusWord, BitVec.getLsbD_extractLsb', BitVec.getLsbD_append]
    interval_cases i <;> simp
  all_goals
    simp only [statusWord, BitVec.getLsbD_append]
    simp

/-- Settles O49: the read returns STATUS, whose fields are as above; the write is that of the register. -/
theorem statusShowsTheState : Obligations.StatusShowsTheState := by
  constructor
  · intro s rest hreset hinputs
    obtain ⟨hbusy, hdone, herr, hovr, hcode, hengv, hlow, hlog, hhigh⟩ := statusWord_fields s
    refine ⟨_, step_registerRead (off := 0x008) hreset (by norm_num) rfl hinputs, rfl, ?_⟩
    change (statusWord s).getLsbD 0 = _ ∧ (statusWord s).getLsbD 1 = _ ∧ (statusWord s).getLsbD 2 = _ ∧
      (statusWord s).getLsbD 3 = _ ∧ ((statusWord s).extractLsb' 4 4).toNat = _ ∧ (statusWord s).getLsbD 8 = _ ∧
      (statusWord s).extractLsb' 9 7 = 0 ∧ (statusWord s).extractLsb' 21 11 = 0 ∧
      (_ → (statusWord s).extractLsb' 16 5 = 0) ∧ ∀ k, _ → _ → (statusWord s).extractLsb' 16 5 = _
    rw [hcode, hlog]
    refine ⟨hbusy, hdone, herr.trans ?_, hovr, toNat_number s.errcode, hengv.trans (engv_eq s), hlow, hhigh,
      fun hzero => ?_, fun k hk hn => ?_⟩
    · rw [State.err]
      cases s.errcode <;> rfl
    · exact BitVec.eq_of_toNat_eq (by rw [toNat_log2n, if_pos hzero]; rfl)
    · apply BitVec.eq_of_toNat_eq
      rw [(status_of_bound_size hk hn).2, BitVec.toNat_ofNat, Nat.mod_eq_of_lt (by omega)]
  · intro s v rest hreset hinputs
    exact step_registerWrite (off := 0x008) hreset (by norm_num) rfl (by norm_num) hinputs

/-! ## The DMEM window -/

theorem footprint_withInputs (s : State) (rest : List Input) (w : Nat) :
    ({ s with inputs := rest } : State).footprint w = s.footprint w := rfl

theorem dmemWords_le (s : State) : s.dmemWords ≤ 0x400000 := by
  have hscale := s.dmemScale.isLt
  exact Nat.pow_le_pow_right (by norm_num) (by omega : 17 + s.dmemScale.val ≤ 22)

/-- A HOST access of a DMEM word is the access of that word. -/
theorem step_dmemRead {s : State} {w : Nat} {rest : List Input} (hreset : s.inReset = false) (hw : w < s.dmemWords)
    (hinputs : s.inputs = .hostRead 32 (0x01000000 + 4 * w) :: rest) :
    step s = .next (if s.footprint w then
      { s with inputs := rest, rdata := Config.freeWord s.draws w, draws := s.draws + 1 }
      else { s with inputs := rest, rdata := readWord s w }) := by
  have hbound := dmemWords_le s
  have hoff : dmemBase + 4 * w < windowSize := by unfold dmemBase windowSize; omega
  have hinputs' : s.inputs = .hostRead 32 ((dmemBase + 4 * w : Nat) : Int) :: rest := by
    rw [hinputs]
    simp [dmemBase]
  rw [step_hostRead hinputs' hreset hoff (by unfold dmemBase; omega), hostRead,
    target_dmem { s with inputs := rest } hw]
  rfl

theorem step_dmemWrite {s : State} {w : Nat} {v : Word} {rest : List Input} (hreset : s.inReset = false)
    (hw : w < s.dmemWords) (hinputs : s.inputs = .hostWrite 32 (0x01000000 + 4 * w) v :: rest) :
    step s = .next (writeDmem w v { s with inputs := rest }) := by
  have hbound := dmemWords_le s
  have hoff : dmemBase + 4 * w < windowSize := by unfold dmemBase windowSize; omega
  have hinputs' : s.inputs = .hostWrite 32 ((dmemBase + 4 * w : Nat) : Int) v :: rest := by
    rw [hinputs]
    simp [dmemBase]
  rw [step_hostWrite hinputs' hreset hoff (by unfold dmemBase; omega), hostWrite,
    target_dmem { s with inputs := rest } hw]

/-- The parts of the window where nothing is: after the registers and beyond the build's DMEM (R60). -/
theorem target_empty {off : Nat} (s : State)
    (h : (0x00001000 ≤ off ∧ off < 0x01000000) ∨ 0x01000000 + 4 * s.dmemWords ≤ off) : target off s = .nothing := by
  rcases h with ⟨hlow, hhigh⟩ | hbeyond
  · exact target_reserved s hlow hhigh
  · exact target_beyond s hbeyond

/-- Settles O54: the step is the access of the word, or an access of nothing. -/
theorem hostReachesDmemThroughTheWindow : Obligations.HostReachesDmemThroughTheWindow := by
  intro s w v rest hreset hbound
  refine ⟨fun hw hfoot => ⟨fun hinputs => ?_, fun hinputs => ?_⟩,
    fun off hoff haligned hempty => ⟨fun hinputs => ?_, fun hinputs => ?_⟩⟩
  · rw [step_dmemRead hreset hw hinputs, hfoot, if_neg Bool.false_ne_true]
  · refine ⟨s.dmem.writeWords w [v], ?_, ?_, keepsBytes_writeWords { s with inputs := rest } w 1 [v] rfl⟩
    · rw [step_dmemWrite hreset hw hinputs, writeDmem, footprint_withInputs, hfoot, if_neg Bool.false_ne_true]
    · have hread := readWord_writeWords { s with inputs := rest } w [v] w
      rw [if_pos ⟨le_rfl, by simp⟩, Nat.sub_self] at hread
      exact hread
  · rw [step_hostRead hinputs hreset hoff haligned, hostRead, target_empty { s with inputs := rest } hempty]
  · rw [step_hostWrite hinputs hreset hoff haligned, hostWrite, target_empty { s with inputs := rest } hempty]

/-! ## Reset -/

/-- Settles O57: the reset values, register by register. -/
theorem resetStateHoldsTheResetValues : Obligations.ResetStateHoldsTheResetValues := by
  refine ⟨rfl, fun r hr => ?_, rfl, rfl, fun a => rfl⟩
  cases r with
  | id => exact absurd rfl hr
  | ctrl | status => decide
  | _ => rfl

/-- Settles O58: the two edges as the model takes them, and what a scrambled DMEM reads. -/
theorem resetFollowsItsRules : Obligations.ResetFollowsItsRules := by
  refine ⟨fun s rest hinputs => step_of_input hinputs, fun s powerOn rest hinputs => ?_⟩
  refine ⟨assertReset powerOn { s with inputs := rest }, step_of_input hinputs, rfl, ?_, ?_, ?_⟩
  · rintro rfl a
    rfl
  · rintro rfl hidle
    refine ⟨?_, rfl⟩
    simp only [assertReset, dmemAfterReset, hidle, if_neg Bool.false_ne_true]
  · rintro l rfl hbusy w
    have hmem : (assertReset false { s with inputs := rest }).dmem =
        s.dmem.scramble s.draws (s.clobbered ++ l.bufD.addresses) := by
      simp only [assertReset, dmemAfterReset, hbusy, if_neg Bool.false_ne_true]
    rw [readWord_congr (s := { s with dmem := s.dmem.scramble s.draws (s.clobbered ++ l.bufD.addresses) }) hmem rfl,
      readWord_scramble]
    simp only [List.mem_append, Buffer.mem_addresses, Latch.bufD]

end Sys2Proof.Machine
end

section
/-! PROOFS. DMEM around a running command (20_memory.md R66 to R73): which bytes a step can change, what HOST's accesses
to the footprint do, and that a result depends on the source words alone. -/

namespace Sys2Proof.Machine

/-! ## Which bytes a step changes -/

/-- A completion changes no byte outside the footprint. -/
theorem readByte_storeResult {s : State} {i : Instr} {l : Latch} {ws : List Word} {a : Nat} (hrun : Running s i l)
    (hws : ws.length = l.dLen.toNat) (ha : inFootprint i l (a / 4) = false) :
    readByte { s with dmem := (storeResult l ws s).dmem } a = readByte s a := by
  unfold storeResult
  split_ifs
  · rw [readByte_writeWords, if_neg]
    intro hin
    cases ha.symm.trans (inFootprint_of_destination hrun.hasDestination (by omega))
  · refine readByte_scramble s _ _ a fun hin => ?_
    cases ha.symm.trans (hrun.inFootprint_of_unspecified hin)

theorem complete_powerCycle (l : Latch) (r : Result) (s : State) : (complete l r s).powerCycle = s.powerCycle := by
  rw [complete_eq]
  rfl

theorem readByte_complete {s : State} {i : Instr} {l : Latch} {a : Nat} (hrun : Running s i l)
    (ha : inFootprint i l (a / 4) = false) :
    readByte (complete l (resultOf i l (sourceView s)) s) a = readByte s a := by
  have hlen := length_resultOf (s := sourceView s) hrun.passed hrun.hasDestination
  have hmem := complete_dmem l (resultOf i l (sourceView s)) s
  have hpower := complete_powerCycle l (resultOf i l (sourceView s)) s
  rw [← readByte_storeResult hrun hlen ha]
  exact readByte_congr (s := { s with dmem := (storeResult l (resultOf i l (sourceView s)).words s).dmem }) hmem hpower a

theorem readByte_writeReg (r : Reg) (v : Word) (s : State) (a : Nat) : readByte (writeReg r v s) a = readByte s a := by
  cases r <;> rfl

/-- A HOST write of a word changes no byte of another word. -/
theorem readByte_writeDmem {w a : Nat} (v : Word) (s : State) (ha : a / 4 ≠ w) :
    readByte (writeDmem w v s) a = readByte s a := by
  unfold writeDmem
  split_ifs
  · rfl
  · rw [readByte_writeWords, if_neg]
    simp only [List.length_singleton]
    omega

theorem readByte_command {v : Word} {s t : State} (h : CommandWrite v s t) (a : Nat) : readByte t a = readByte s a := by
  cases h with
  | dropped l hbusy ht => exact ht ▸ rfl
  | failed e hidle hinfo ht => exact ht ▸ rfl
  | nop hidle ht => exact ht ▸ rfl
  | cfg hidle hword hsize ht => exact ht ▸ rfl
  | started i hidle hdecode hd hcheck ht => exact ht ▸ rfl

/-- Settles O34: the byte is one of a completion, of a HOST write of its word, or lost at reset. -/
theorem dmemChangesOnlyInsideTheFootprint : Obligations.DmemChangesOnlyInsideTheFootprint := by
  intro s t a h hstep hne
  cases stepKind_of_step hstep with
  | pause rest hmoves hidle ht => exact absurd (ht ▸ rfl) hne
  | read rest off hinputs hreset ht => exact absurd (by rw [ht, hostRead_eq]; rfl) hne
  | command rest v hinputs hreset hcommand => exact absurd (readByte_command hcommand a) hne
  | register rest off r v hinputs hreg hr ht => exact absurd (by rw [ht, readByte_writeReg]; rfl) hne
  | ignored rest off v hinputs htarget ht => exact absurd (ht ▸ rfl) hne
  | release rest hinputs ht => exact absurd (ht ▸ rfl) hne
  | assertion rest powerOn hinputs ht => exact .inr (.inr ⟨_, rest, hinputs, rfl⟩)
  | completion rest i l hmoves hbusy hdecode ht =>
    have hrun := (h.running_of_decode hbusy hdecode).withInputs rest
    refine .inl ⟨hmoves, ?_⟩
    rw [footprint_busy hbusy hdecode]
    by_contra hout
    refine hne ?_
    rw [ht, finish_of_usesD hrun.hasDestination, readByte_complete hrun (by simpa using hout)]
    rfl
  | store rest w v hinputs hw ht =>
    by_cases hword : a / 4 = w
    · subst hword
      exact .inr (.inl ⟨v, rest, hinputs⟩)
    · exact absurd (by rw [ht, readByte_writeDmem v _ hword]; rfl) hne

/-! ## HOST accesses to the footprint -/

/-- What a disturbed completion leaves in a word (20_memory.md R70). -/
theorem readWord_complete_clobbered {l : Latch} {s : State} (r : Result) (hclob : s.clobbered ≠ []) (w : Nat) :
    readWord (complete l r s) w =
      if w ∈ s.clobbered ∨ (l.dAddr.toNat ≤ w ∧ w < l.dAddr.toNat + l.dLen.toNat) then Config.freeWord s.draws w
      else readWord s w := by
  have hmem : (complete l r s).dmem = s.dmem.scramble s.draws (s.clobbered ++ l.bufD.addresses) := by
    rw [complete_dmem, storeResult, if_neg hclob]
  rw [readWord_congr (s := { s with dmem := s.dmem.scramble s.draws (s.clobbered ++ l.bufD.addresses) }) hmem
    (complete_powerCycle l r s), readWord_scramble]
  simp only [List.mem_append, Buffer.mem_addresses, Latch.bufD]

/-- Only ACF with NUMCHK latched reports a lag, that of its numeric check (43_derived.md R201). -/
theorem lag_eq (i : Instr) (l : Latch) (s : State) :
    (resultOf i l s).lag =
      if i = .acf ∧ l.numchk = true then numCheck (acfTransform l.n.toNat (readWords s l.aAddr.toNat l.n.toNat))
      else none := by
  cases i with
  | acf => cases hn : l.numchk <;> simp [resultOf, acfResult, hn]
  | _ => rfl

/-- The transform whose imaginary parts ACF checks, of the source as the completion reads it. -/
theorem acfTransform_sourceView (s : State) (b n : Nat) :
    acfTransform n (readWords (sourceView s) b n) =
      fftLine n ((List.range n).map fun k => ⟨mag2 (elem (fftLine n ((List.range n).map fun k =>
        ⟨if b + k ∈ s.clobbered then Config.freeWord (s.draws + 1) (b + k) else readWord s (b + k), 0x00000000⟩)) k),
        0x00000000⟩) := by
  rw [acfTransform_readWords]
  simp only [readWord_sourceView]
  rfl

/-- Settles O32: the accesses are those of the window, and a disturbed completion is read word by word. -/
theorem footprintAccessesAreUnspecified : Obligations.FootprintAccessesAreUnspecified := by
  intro s l i hbusy hdecode hreset
  refine ⟨fun w rest hw hfoot => ⟨fun hinputs => ?_, fun v hinputs => ?_⟩, fun hd hclob => ?_⟩
  · rw [step_dmemRead hreset hw hinputs, footprint_busy hbusy hdecode, hfoot, if_pos rfl]
  · rw [step_dmemWrite hreset hw hinputs, writeDmem, footprint_withInputs, footprint_busy hbusy hdecode, hfoot,
      if_pos rfl]
  refine ⟨_, exec_busy hbusy hd, complete_eq .., readWord_complete_clobbered _ hclob, ?_⟩
  intro n source x p withinEps
  have hr : fftLine n p = acfTransform n (readWords (sourceView s) l.aAddr.toNat n) := (acfTransform_sourceView ..).symm
  obtain ⟨hcode, hinfo⟩ := complete_record l (resultOf i l (sourceView s)) s
  have hlag := lag_eq i l (sourceView s)
  rw [hcode, hinfo, hlag, ← hr]
  constructor
  · intro hquiet
    have hnone : (if i = .acf ∧ l.numchk = true then numCheck (fftLine n p) else none) = none := by
      rw [ite_eq_right_iff]
      rintro ⟨hacf, hnumchk⟩
      rcases hquiet with hother | hoff | hwithin
      · exact absurd hacf hother
      · cases hnumchk.symm.trans hoff
      · exact numCheck_eq_none fun k hk => hwithin k (by simpa using hk)
    rw [hnone]
    exact ⟨rfl, rfl⟩
  · intro k hk hacf hnumchk hfails hbefore
    rw [if_pos ⟨hacf, hnumchk⟩, numCheck_eq_some (by simpa using hk) hfails hbefore]
    exact ⟨rfl, rfl⟩

/-! ## A result depends on the source words alone (R71, R72) -/

theorem readWords_congr {s u : State} {b n : Nat} (h : ∀ w, b ≤ w → w < b + n → readWord s w = readWord u w) :
    readWords s b n = readWords u b n :=
  List.map_congr_left fun i hi => h _ (by omega) (by have := List.mem_range.1 hi; omega)

theorem readCplx_congr {s u : State} {b n : Nat} (h : ∀ w, b ≤ w → w < b + 2 * n → readWord s w = readWord u w) :
    readCplx s b n = readCplx u b n := by
  refine List.map_congr_left fun i hi => ?_
  have hi := List.mem_range.1 hi
  rw [h (b + 2 * i) (by omega) (by omega), h (b + 2 * i + 1) (by omega) (by omega)]

section
variable {i : Instr} {l : Latch} {s u : State} (h : ∀ w, inSources i l w = true → readWord s w = readWord u w)
include h

/-- The words of buffer A, for a command that reads it. -/
theorem readWords_sourceA {n : Nat} (hA : usesA i = true) (hn : n ≤ l.aLen.toNat) :
    readWords s l.aAddr.toNat n = readWords u l.aAddr.toNat n :=
  readWords_congr fun w hlow hhigh => h w <| by
    simp [inSources, hA, Latch.bufA, Buffer.contains, hlow, show w < l.aAddr.toNat + l.aLen.toNat by omega]

theorem readCplx_sourceA {n : Nat} (hA : usesA i = true) (hn : 2 * n ≤ l.aLen.toNat) :
    readCplx s l.aAddr.toNat n = readCplx u l.aAddr.toNat n :=
  readCplx_congr fun w hlow hhigh => h w <| by
    simp [inSources, hA, Latch.bufA, Buffer.contains, hlow, show w < l.aAddr.toNat + l.aLen.toNat by omega]

/-- The elements of buffer B, for a command that reads it. -/
theorem readCplx_sourceB {n : Nat} (hB : usesB i = true) (hn : 2 * n ≤ l.bLen.toNat) :
    readCplx s l.bAddr.toNat n = readCplx u l.bAddr.toNat n :=
  readCplx_congr fun w hlow hhigh => h w <| by
    simp [inSources, hB, Latch.bufB, Buffer.contains, hlow, show w < l.bAddr.toNat + l.bLen.toNat by omega]

/-- A command that passed its check reads within its sources, so its result is the same in both states. -/
theorem resultOf_congr {d : Nat} (hcheck : check i l d = none) : resultOf i l s = resultOf i l u := by
  have hsizes := (check_none hcheck).2.2.1
  cases i with
  | nop | cfg | wavelet | twread | brread => rfl
  | fft lay | ifft lay | bitrev lay | stage lay stg | norm lay =>
    have hlen := (check_family (lay := lay) hcheck (by simp)).2.2.2.1
    simp only [resultOf, lineResult, readCplx_sourceA h rfl (by rw [hlen, Nat.mul_assoc])]
  | expand => simp only [resultOf, expandResult, readWords_sourceA h rfl le_rfl]
  | conj | mag | mag2 | phase =>
    simp only [resultOf, conjResult, magResult, mag2Result, phaseResult, sourceA,
      readCplx_sourceA h rfl (Nat.mul_div_le _ 2)]
  | cmul =>
    simp [sizeConditions] at hsizes
    obtain ⟨-, hB, -⟩ := hsizes
    simp only [resultOf, cmulResult, sourceA, sourceB, readCplx_sourceA h rfl (Nat.mul_div_le _ 2),
      readCplx_sourceB h rfl (by rw [hB]; exact Nat.mul_div_le _ 2)]
  | acf =>
    simp [sizeConditions] at hsizes
    simp only [resultOf, acfResult, readWords_sourceA h rfl hsizes.1.ge]
  | conv =>
    simp [sizeConditions] at hsizes
    obtain ⟨hA, hB, -⟩ := hsizes
    simp only [resultOf, convResult, readCplx_sourceA h rfl hA.ge, readCplx_sourceB h rfl hB.ge]
  | bispec =>
    simp [sizeConditions] at hsizes
    simp only [resultOf, bispecResult, readCplx_sourceA h rfl hsizes.1.ge]

end

/-- An undisturbed completion writes the words of its result to the destination. -/
theorem readWord_complete_destination {l : Latch} {s : State} {r : Result} {w : Nat} (hclob : s.clobbered = [])
    (hlen : r.words.length = l.dLen.toNat) (hw : l.bufD.contains w = true) :
    readWord (complete l r s) w = (r.words[w - l.dAddr.toNat]?).getD 0 := by
  have hin := (Buffer.contains_iff ..).1 hw
  simp only [Latch.bufD] at hin
  have hmem : (complete l r s).dmem = s.dmem.writeWords l.dAddr.toNat r.words := by
    rw [complete_dmem, storeResult, if_pos hclob]
  rw [readWord_congr (s := { s with dmem := s.dmem.writeWords l.dAddr.toNat r.words }) hmem
    (complete_powerCycle l r s), readWord_writeWords, if_pos (by omega)]

/-- Settles O33: both completions are with the one result, whose words they write and whose lag they record. -/
theorem resultsDependOnSourcesAlone : Obligations.ResultsDependOnSourcesAlone := by
  intro i l s u hs hu hsclob huclob hd hcheck hsources
  have hresult := resultOf_congr hsources hcheck
  have hlen := length_resultOf (s := s) hcheck hd
  refine ⟨_, _, exec_busy hs hd, exec_busy hu hd, ?_⟩
  rw [sourceView_unclobbered hsclob, sourceView_unclobbered huclob, ← hresult]
  obtain ⟨hcode, hinfo⟩ := complete_record l (resultOf i l s) s
  obtain ⟨hcode', hinfo'⟩ := complete_record l (resultOf i l s) u
  refine ⟨fun w hw => ?_, fun heq => ?_, fun heq => ?_⟩
  · rw [readWord_complete_destination hsclob hlen hw, readWord_complete_destination huclob hlen hw]
  · rw [hcode, hcode', heq]
  · rw [hinfo, hinfo', heq]

end Sys2Proof.Machine
end

section
/-! PROOFS. The line transforms (42_fft.md R173 to R177): their passes one after the other, the algorithm they are over any
arithmetic, the exact impulse (R183), and the symmetry of the bispectrum (43_derived.md R203). -/

namespace Sys2Proof.Machine

/-! ## The stages one after the other -/

/-- Stages 1 to `m` of a line of `n` elements, each on the result of the one before. -/
def stagesOver {α : Type} (A : LineArith α) (n m : Nat) (x : List α) : List α :=
  (List.range' 1 m).foldl (fun y stg => stageOver A n stg y) x

@[simp] theorem stagesOver_zero {α : Type} (A : LineArith α) (n : Nat) (x : List α) : stagesOver A n 0 x = x := rfl

theorem stagesOver_succ {α : Type} (A : LineArith α) (n m : Nat) (x : List α) :
    stagesOver A n (m + 1) x = stageOver A n (m + 1) (stagesOver A n m x) := by
  rw [stagesOver, List.range'_1_concat, List.foldl_append, Nat.add_comm 1 m]
  rfl

@[simp] theorem length_stageOver {α : Type} (A : LineArith α) (n stg : Nat) (x : List α) :
    (stageOver A n stg x).length = n := by simp [stageOver]

theorem length_stagesOver {α : Type} (A : LineArith α) {n : Nat} (m : Nat) {x : List α} (hx : x.length = n) :
    (stagesOver A n m x).length = n := by
  cases m with
  | zero => exact hx
  | succ m => rw [stagesOver_succ, length_stageOver]

/-- The block's butterfly pass is the pass over its arithmetic. -/
theorem stagePass_eq (n stg : Nat) (x : List Cplx) : stagePass n stg x = stageOver blockArith n stg x := rfl

theorem fftLine_eq_passes (lg : Nat) (x : List Cplx) :
    fftLine (2 ^ lg) x = normPass (2 ^ lg) (stagesOver blockArith (2 ^ lg) lg (bitrevPass (2 ^ lg) x)) := by
  rw [fftLine, Nat.log2_two_pow]
  rfl

theorem map_cconj_eq {n : Nat} {x : List Cplx} (hx : x.length = n) :
    x.map cconj = (List.range n).map fun i => cconj (elem x i) := by
  conv_lhs => rw [← map_elem_range x, hx, List.map_map]
  rfl

/-- Settles O18: the passes by their definitions, the stages by induction on their number. -/
theorem lineTransformsAreTheirPasses : Obligations.LineTransformsAreTheirPasses := by
  intro lg x hx n
  refine ⟨fun j hj => elem_normPass x hj, fun y hzero hsucc => ?_, fun j hj => ?_⟩
  · have hstages (m : Nat) (hm : m ≤ lg) : stagesOver blockArith n m (bitrevPass n x) = y m := by
      induction m with
      | zero => exact hzero.symm
      | succ m ih => rw [stagesOver_succ, ih (by omega), hsucc m hm, stagePass_eq]
    rw [fftLine_eq_passes, hstages lg le_rfl]
  · rw [elem_ifftLine x hj, map_cconj_eq hx]

/-- Settles O28: both elements are triple products, whose first product and whose index sum commute. -/
theorem bispectrumIsSymmetric : Obligations.BispectrumIsSymmetric := by
  intro n x f1 f2 h1 h2
  rw [elem_bispecSurface x h1 h2, elem_bispecSurface x h2 h1, tripleProduct, tripleProduct, cmul_comm (elem x f1),
    Nat.add_comm f1]

/-! ## The transforms over the block's arithmetic (R176, R177) -/

theorem fftLine_eq_forwardOver (lg : Nat) (x : List Cplx) : fftLine (2 ^ lg) x = forwardOver blockArith lg x := by
  have hrev : bitrevPass (2 ^ lg) x = (List.range (2 ^ lg)).map fun j => x.getD (bitrev j lg) blockArith.zero := by
    rw [bitrevPass, Nat.log2_two_pow]
    rfl
  have hnorm {y : List Cplx} (hy : y.length = 2 ^ lg) : normPass (2 ^ lg) y = y.map (blockArith.scale (2 ^ lg)) := by
    conv_rhs => rw [← map_elem_range y, hy, List.map_map]
    rfl
  rw [fftLine_eq_passes, hnorm (length_stagesOver _ _ (length_bitrevPass _ _)), hrev]
  rfl

theorem ifftLine_eq_inverseOver (lg : Nat) (x : List Cplx) : ifftLine (2 ^ lg) x = inverseOver blockArith lg x := by
  rw [ifftLine, fftLine_eq_forwardOver]
  rfl

/-! ## The impulse (R183) -/

/-- 1.0 with imaginary part +0.0. -/
def cone : Cplx := ⟨0x3F800000, 0x00000000⟩

theorem mul32_posZero {x : Word} (hx : Finite32 x) : mul32 x posZero = zero32 (signBit x) := by
  have hzero : unpack posZero = .fin false 0 := by decide
  simp only [mul32, unpack_of_finite32 hx, hzero, Nat.mul_zero, Bool.xor_false]
  cases signBit x <;> decide

theorem add32_zero32 (m n : Bool) : add32 (zero32 m) (zero32 n) = zero32 (m && n) := by
  cases m <;> cases n <;> decide

theorem neg32_zero32 (n : Bool) : neg32 (zero32 n) = zero32 (!n) := by
  cases n <;> decide

/-- The product of a finite value and the complex zero is a zero, of some signs. -/
theorem exists_cmul_czero {w : Cplx} (hre : Finite32 w.re) (him : Finite32 w.im) :
    ∃ m n, cmul w czero = ⟨zero32 m, zero32 n⟩ := by
  simp only [cmul, czero, mul32_posZero hre, mul32_posZero him, sub32, neg32_zero32, add32_zero32]
  exact ⟨_, _, rfl⟩

/-- A butterfly with the complex zero as its second operand answers the first operand twice, when that is 1 or 0. -/
theorem bfly_czero {u w : Cplx} (hu : u = cone ∨ u = czero) (hre : Finite32 w.re) (him : Finite32 w.im) :
    bfly u czero w = (u, u) := by
  obtain ⟨m, n, ht⟩ := exists_cmul_czero hre him
  simp only [bfly, ht]
  clear ht
  rcases hu with rfl | rfl <;> cases m <;> cases n <;> decide

theorem finite32_tw {lg k : Nat} (hlg : lg ≤ 16) (hk : k < 2 ^ lg) :
    Finite32 (tw (2 ^ lg) k).re ∧ Finite32 (tw (2 ^ lg) k).im := by
  have hnmax : Config.nmax = 2 ^ lg * 2 ^ (16 - lg) := by
    rw [← pow_add, Nat.add_sub_cancel' hlg]
    rfl
  have hindex : k * (Config.nmax / 2 ^ lg) < 65536 := by
    rw [hnmax, Nat.mul_div_cancel_left _ (by positivity)]
    calc k * 2 ^ (16 - lg) < 2 ^ lg * 2 ^ (16 - lg) := Nat.mul_lt_mul_of_pos_right hk (by positivity)
      _ = 65536 := hnmax.symm
  obtain ⟨hre, him, -⟩ := twiddleRomIsCorrectlyRounded _ hindex
  exact ⟨hre.1, him.1⟩

/-- After stage `m` the first `2^m` elements are 1 and the others 0. -/
def IsStep (lg m : Nat) (x : List Cplx) : Prop := ∀ j, j < 2 ^ lg → elem x j = if j < 2 ^ m then cone else czero

/-- A stage keeps the form: of every pair the upper element is 0, so both receive the lower one. -/
theorem IsStep.stagePass {lg m : Nat} {x : List Cplx} (h : IsStep lg m x) (hlg : lg ≤ 16) (hm : m + 1 ≤ lg) :
    IsStep lg (m + 1) (stagePass (2 ^ lg) (m + 1) x) := by
  have hsize : 2 ^ (m + 1) = 2 * 2 ^ m := Nat.pow_succ'
  have hpair (j : Nat) (hj : j < 2 ^ lg) (hlow : j % 2 ^ (m + 1) < 2 ^ m) :
      pairBfly (2 ^ lg) m x j = (elem x j, elem x j) := by
    obtain ⟨-, hline⟩ := upper_of_pair hm hj hlow
    have htwiddle : j % 2 ^ (m + 1) * (2 ^ lg / 2 ^ (m + 1)) < 2 ^ lg :=
      lt_of_lt_of_le (Nat.mul_lt_mul_of_pos_right (Nat.mod_lt _ (by positivity))
        (Nat.div_pos (Nat.pow_le_pow_right (by norm_num) hm) (by positivity))) (Nat.mul_div_le _ _)
    obtain ⟨hre, him⟩ := finite32_tw hlg htwiddle
    have hu : elem x j = cone ∨ elem x j = czero := by
      rw [h j hj]
      split_ifs
      · exact .inl rfl
      · exact .inr rfl
    rw [pairBfly, h _ hline, if_neg (by omega), bfly_czero hu hre him]
  intro j hj
  by_cases hlow : j % 2 ^ (m + 1) < 2 ^ m
  · have hblock : j < 2 ^ m ↔ j < 2 ^ (m + 1) := by
      refine ⟨fun hlt => by omega, fun hlt => ?_⟩
      rwa [Nat.mod_eq_of_lt hlt] at hlow
    rw [(elem_stagePass_pair x hm hj hlow).1, hpair j hj hlow, h j hj]
    simp only [hblock]
  · obtain ⟨i, rfl⟩ : ∃ i, j = i + 2 ^ m := ⟨j - 2 ^ m, by have := Nat.mod_le j (2 ^ (m + 1)); omega⟩
    have hilow : i % 2 ^ (m + 1) < 2 ^ m := by
      have hlt := Nat.mod_lt i (show 0 < 2 ^ (m + 1) by positivity)
      rw [Nat.add_mod, Nat.mod_eq_of_lt (show 2 ^ m < 2 ^ (m + 1) by omega)] at hlow
      by_contra hhigh
      rw [Nat.mod_eq_sub_mod (by omega), Nat.mod_eq_of_lt (by omega)] at hlow
      omega
    have hblock : i < 2 ^ m ↔ i + 2 ^ m < 2 ^ (m + 1) := by omega
    rw [(elem_stagePass_pair x hm (by omega) hilow).2, hpair i (by omega) hilow, h i (by omega)]
    simp only [hblock]

theorem bitrev_zero (l : Nat) : bitrev 0 l = 0 := by
  induction l with
  | zero => rfl
  | succ l ih => simp [bitrev, ih]

/-- The impulse. Bit reversal leaves it: index 0 is its own reversal. -/
theorem isStep_impulse (lg : Nat) :
    IsStep lg 0 (bitrevPass (2 ^ lg) (cone :: List.replicate (2 ^ lg - 1) czero)) := by
  intro j hj
  rw [elem_bitrevPass_two_pow _ hj]
  by_cases hzero : j = 0
  · subst hzero
    rw [bitrev_zero]
    rfl
  · have hrev : bitrev j lg ≠ 0 := by
      intro hrev
      rw [← bitrev_bitrev hj, hrev, bitrev_zero] at hzero
      exact hzero rfl
    obtain ⟨i, hi⟩ := Nat.exists_eq_succ_of_ne_zero hrev
    rw [hi, if_neg (by omega)]
    exact List.getElem?_getD_replicate_default_eq _ _ i

theorem isStep_stages {lg : Nat} (hlg : lg ≤ 16) {x : List Cplx} (hx : IsStep lg 0 x) {m : Nat} (hm : m ≤ lg) :
    IsStep lg m (stagesOver blockArith (2 ^ lg) m x) := by
  induction m with
  | zero => exact hx
  | succ m ih =>
    rw [stagesOver_succ, ← stagePass_eq]
    exact (ih (by omega)).stagePass hlg hm

theorem cscale_cone (l : Nat) (hl : l ≤ 16) : cscale cone (invSqrt (2 ^ l)) = ⟨invSqrt (2 ^ l), 0x00000000⟩ := by
  interval_cases l <;> decide

/-- Settles O22: every stage doubles the number of ones, and the last pass scales them. -/
theorem impulseHasAFlatSpectrum : Obligations.ImpulseHasAFlatSpectrum := by
  intro lg _ hlg
  have hall := isStep_stages hlg (isStep_impulse lg) le_rfl
  refine line_ext (length_fftLine ..) List.length_replicate fun j hj => ?_
  have hone := hall j hj
  rw [if_pos hj] at hone
  change elem (fftLine (2 ^ lg) (cone :: List.replicate (2 ^ lg - 1) czero)) j = _
  rw [fftLine_eq_passes, elem_normPass _ hj, hone, cscale_cone lg hlg]
  simp [elem, List.getD, hj]

end Sys2Proof.Machine
end

section
/-! PROOFS. The discrete Fourier transform over the complex numbers: its inverse, the sum of squares, the circular
correlation and convolution (42_fft.md R183; 43_derived.md R205, R206). -/

namespace Sys2Proof.Machine

open scoped ComplexConjugate

/-! ## Unit roots -/

/-- `exp(2πi j/N)`, the exact `TW(N, j)`. -/
noncomputable def unitRoot (n j : ℕ) : ℂ := Complex.exp (2 * Real.pi * Complex.I * j / n)

@[simp] theorem unitRoot_zero (n : ℕ) : unitRoot n 0 = 1 := by simp [unitRoot]

theorem unitRoot_add (n i j : ℕ) : unitRoot n (i + j) = unitRoot n i * unitRoot n j := by
  rw [unitRoot, unitRoot, unitRoot, ← Complex.exp_add]
  congr 1
  push_cast
  ring

theorem unitRoot_mul (n i j : ℕ) : unitRoot n (i * j) = unitRoot n i ^ j := by
  rw [unitRoot, unitRoot, ← Complex.exp_nat_mul]
  congr 1
  push_cast
  ring

theorem isPrimitiveRoot_unitRoot {n : ℕ} (hn : n ≠ 0) : IsPrimitiveRoot (unitRoot n 1) n := by
  have h := Complex.isPrimitiveRoot_exp n hn
  rwa [unitRoot, Nat.cast_one, mul_one]

theorem unitRoot_eq_pow (n j : ℕ) : unitRoot n j = unitRoot n 1 ^ j := by
  rw [← unitRoot_mul, one_mul]

theorem unitRoot_self_mul {n : ℕ} (hn : n ≠ 0) (j : ℕ) : unitRoot n (n * j) = 1 := by
  rw [unitRoot_eq_pow, pow_mul, (isPrimitiveRoot_unitRoot hn).pow_eq_one, one_pow]

/-- A root depends on its index modulo `N`. -/
theorem unitRoot_mod {n : ℕ} (hn : n ≠ 0) (j : ℕ) : unitRoot n (j % n) = unitRoot n j := by
  conv_rhs => rw [← Nat.mod_add_div j n, unitRoot_add, unitRoot_self_mul hn, mul_one]

theorem unitRoot_mod_mul {n : ℕ} (hn : n ≠ 0) (j k : ℕ) : unitRoot n (j % n * k) = unitRoot n (j * k) := by
  rw [unitRoot_mul, unitRoot_mod hn, ← unitRoot_mul]

/-- A common factor of size and index cancels. -/
theorem unitRoot_mul_mul {c : ℕ} (hc : c ≠ 0) (n j : ℕ) : unitRoot (n * c) (j * c) = unitRoot n j := by
  have hc' : (c : ℂ) ≠ 0 := Nat.cast_ne_zero.2 hc
  rw [unitRoot, unitRoot]
  congr 1
  push_cast
  rw [← mul_assoc, mul_div_mul_right _ _ hc']

theorem unitRoot_half {n : ℕ} (hn : n ≠ 0) : unitRoot (2 * n) n = -1 := by
  have hn' : (n : ℂ) ≠ 0 := Nat.cast_ne_zero.2 hn
  rw [unitRoot, ← Complex.exp_pi_mul_I]
  congr 1
  push_cast
  field_simp

theorem unitRoot_ne_zero (n j : ℕ) : unitRoot n j ≠ 0 := Complex.exp_ne_zero _

theorem conj_unitRoot (n j : ℕ) : conj (unitRoot n j) = (unitRoot n j)⁻¹ := by
  rw [unitRoot, ← Complex.exp_conj, ← Complex.exp_neg]
  congr 1
  simp only [map_div₀, map_mul, Complex.conj_ofReal, Complex.conj_I, map_natCast, map_ofNat]
  ring

theorem unitRoot_mul_conj (n j : ℕ) : unitRoot n j * conj (unitRoot n j) = 1 := by
  rw [conj_unitRoot, mul_inv_cancel₀ (unitRoot_ne_zero n j)]

/-- Two different roots of one size are orthogonal. -/
theorem sum_unitRoot_mul_conj {n i j : ℕ} (hi : i < n) (hj : j < n) :
    ∑ k ∈ Finset.range n, unitRoot n (i * k) * conj (unitRoot n (j * k)) = if i = j then (n : ℂ) else 0 := by
  have hn : n ≠ 0 := by omega
  split_ifs with hij
  · subst hij
    simp [unitRoot_mul_conj]
  · have hprim := isPrimitiveRoot_unitRoot hn
    set q := unitRoot n i * conj (unitRoot n j) with hq
    have hterm (k : ℕ) : unitRoot n (i * k) * conj (unitRoot n (j * k)) = q ^ k := by
      rw [unitRoot_mul, unitRoot_mul, map_pow, ← mul_pow]
    have hone : q ≠ 1 := by
      intro hone
      rw [hq, conj_unitRoot, mul_inv_eq_one₀ (unitRoot_ne_zero n j), unitRoot_eq_pow n i, unitRoot_eq_pow n j] at hone
      exact hij (hprim.pow_inj hi hj hone)
    have hpow : q ^ n = 1 := by
      rw [hq, mul_pow, ← map_pow, ← unitRoot_mul, ← unitRoot_mul, mul_comm i, mul_comm j, unitRoot_self_mul hn,
        unitRoot_self_mul hn, map_one, one_mul]
    have hgeom := mul_neg_geom_sum q n
    rw [hpow, sub_self] at hgeom
    simp only [hterm]
    exact (mul_eq_zero.1 hgeom).resolve_left (sub_ne_zero.2 hone.symm)

/-! ## The transform and its inverse (R183) -/

/-- The unitary DFT of `n` values, with a positive exponent. -/
noncomputable def dft (n : ℕ) (f : ℕ → ℂ) (k : ℕ) : ℂ :=
  (∑ m ∈ Finset.range n, f m * unitRoot n (m * k)) / (Real.sqrt n : ℂ)

/-- Its inverse, with a negative exponent. -/
noncomputable def idft (n : ℕ) (f : ℕ → ℂ) (k : ℕ) : ℂ :=
  (∑ m ∈ Finset.range n, f m * conj (unitRoot n (m * k))) / (Real.sqrt n : ℂ)

theorem sqrt_mul_sqrt (n : ℕ) : (Real.sqrt n : ℂ) * (Real.sqrt n : ℂ) = n := by
  rw [← Complex.ofReal_mul, Real.mul_self_sqrt (Nat.cast_nonneg n), Complex.ofReal_natCast]

theorem conj_sqrt (n : ℕ) : conj (Real.sqrt n : ℂ) = Real.sqrt n := Complex.conj_ofReal _

theorem conj_dft_conj (n : ℕ) (f : ℕ → ℂ) (k : ℕ) : conj (dft n (fun m => conj (f m)) k) = idft n f k := by
  simp only [dft, idft, map_div₀, map_sum, map_mul, Complex.conj_conj, conj_sqrt]

theorem idft_mod {n : ℕ} (hn : n ≠ 0) (f : ℕ → ℂ) (k : ℕ) : idft n f (k % n) = idft n f k := by
  simp only [idft, mul_comm _ (k % n), mul_comm _ k, unitRoot_mod_mul hn]

/-- The inverse undoes the transform. -/
theorem idft_dft {n j : ℕ} (hj : j < n) (f : ℕ → ℂ) : idft n (dft n f) j = f j := by
  have hn : (n : ℂ) ≠ 0 := Nat.cast_ne_zero.2 (by omega)
  have hsqrt := sqrt_mul_sqrt n
  have hcomm : ∑ k ∈ Finset.range n, (∑ m ∈ Finset.range n, f m * unitRoot n (m * k)) * conj (unitRoot n (k * j)) =
      ∑ m ∈ Finset.range n, f m * ∑ k ∈ Finset.range n, unitRoot n (m * k) * conj (unitRoot n (j * k)) := by
    simp only [Finset.sum_mul, Finset.mul_sum]
    rw [Finset.sum_comm]
    simp only [mul_comm j, mul_assoc]
  have hsum : ∑ m ∈ Finset.range n, f m * ∑ k ∈ Finset.range n, unitRoot n (m * k) * conj (unitRoot n (j * k)) =
      f j * n := by
    rw [Finset.sum_eq_single j]
    · rw [sum_unitRoot_mul_conj hj hj, if_pos rfl]
    · intro m hm hne
      rw [sum_unitRoot_mul_conj (Finset.mem_range.1 hm) hj, if_neg hne, mul_zero]
    · intro hnot
      exact absurd (Finset.mem_range.2 hj) hnot
  simp only [idft, dft, div_mul_eq_mul_div, ← Finset.sum_div]
  rw [hcomm, hsum, div_div, hsqrt, mul_div_assoc, div_self hn, mul_one]

/-- A sum of products with a transform is a sum of values with the inverse: the sums are exchanged. -/
theorem sum_dft_mul (n : ℕ) (f g : ℕ → ℂ) :
    ∑ k ∈ Finset.range n, dft n f k * g k =
      ∑ i ∈ Finset.range n, f i * ((∑ k ∈ Finset.range n, g k * unitRoot n (k * i)) / (Real.sqrt n : ℂ)) := by
  simp only [dft, Finset.sum_div, Finset.sum_mul, Finset.mul_sum]
  rw [Finset.sum_comm]
  refine Finset.sum_congr rfl fun i _ => Finset.sum_congr rfl fun k _ => ?_
  rw [mul_comm k i]
  ring

/-- The transform keeps the sum of squares (R183). -/
theorem sum_normSq_dft (n : ℕ) (f : ℕ → ℂ) :
    ∑ k ∈ Finset.range n, Complex.normSq (dft n f k) = ∑ i ∈ Finset.range n, Complex.normSq (f i) := by
  have hcomplex : ∑ k ∈ Finset.range n, dft n f k * conj (dft n f k) = ∑ i ∈ Finset.range n, f i * conj (f i) := by
    rw [sum_dft_mul]
    refine Finset.sum_congr rfl fun i hi => ?_
    rw [← idft_dft (Finset.mem_range.1 hi) f]
    simp only [idft, map_div₀, map_sum, map_mul, Complex.conj_conj, conj_sqrt]
  simp only [Complex.mul_conj] at hcomplex
  exact_mod_cast hcomplex

/-! ## Correlation and convolution (R205, R206) -/

/-- The transform of the squared magnitudes of a transform is the circular correlation, divided by `√N`. -/
theorem dft_normSq_dft {n : ℕ} (hn : n ≠ 0) (f : ℕ → ℂ) (m : ℕ) :
    dft n (fun k => (Complex.normSq (dft n f k) : ℂ)) m =
      (∑ i ∈ Finset.range n, f i * conj (f ((i + m) % n))) / (Real.sqrt n : ℂ) := by
  rw [dft]
  congr 1
  simp only [← Complex.mul_conj, mul_assoc]
  rw [sum_dft_mul]
  refine Finset.sum_congr rfl fun i _ => congrArg (f i * ·) ?_
  rw [← idft_dft (Nat.mod_lt (i + m) (Nat.pos_of_ne_zero hn)) f, idft_mod hn]
  simp only [idft, map_div₀, map_sum, map_mul, Complex.conj_conj, conj_sqrt]
  congr 1
  refine Finset.sum_congr rfl fun k _ => ?_
  rw [Nat.mul_add, unitRoot_add]
  ring

/-- The inverse transform of the product of two transforms is the circular convolution, divided by `√N`. -/
theorem idft_dft_mul_dft {n : ℕ} (hn : n ≠ 0) (f g : ℕ → ℂ) (m : ℕ) :
    idft n (fun k => dft n f k * dft n g k) m =
      (∑ i ∈ Finset.range n, f i * g ((m + n - i) % n)) / (Real.sqrt n : ℂ) := by
  rw [idft]
  congr 1
  simp only [mul_assoc]
  rw [sum_dft_mul]
  refine Finset.sum_congr rfl fun i hi => congrArg (f i * ·) ?_
  have hi := Finset.mem_range.1 hi
  rw [← idft_dft (Nat.mod_lt (m + n - i) (Nat.pos_of_ne_zero hn)) g, idft_mod hn, idft]
  congr 1
  refine Finset.sum_congr rfl fun k _ => ?_
  have hsplit : unitRoot n (k * m) = unitRoot n (k * (m + n - i)) * unitRoot n (k * i) := by
    rw [← unitRoot_add, ← Nat.mul_add, show m + n - i + i = m + n by omega, Nat.mul_add, unitRoot_add, mul_comm k n,
      unitRoot_self_mul hn, mul_one]
  rw [hsplit, map_mul]
  linear_combination (dft n g k * conj (unitRoot n (k * (m + n - i)))) * unitRoot_mul_conj n (k * i)

end Sys2Proof.Machine
end

section
/-! PROOFS. The radix-2 algorithm over exact arithmetic is the discrete Fourier transform (42_fft.md R183), and the laws of
ACF and CONV that follow (43_derived.md R205, R206). -/

namespace Sys2Proof.Machine

open scoped ComplexConjugate

/-! ## The pairs of a stage over any arithmetic -/

/-- The lower and the upper element of a pair are the two halves of one butterfly. -/
theorem getD_stageOver_pair {α : Type} (A : LineArith α) {lg m j : ℕ} (x : List α) (hm : m + 1 ≤ lg) (hj : j < 2 ^ lg)
    (hlow : j % 2 ^ (m + 1) < 2 ^ m) :
    let pair := A.bfly (x.getD j A.zero) (x.getD (j + 2 ^ m) A.zero)
      (A.root (2 ^ lg) (j % 2 ^ (m + 1) * (2 ^ lg / 2 ^ (m + 1))))
    (stageOver A (2 ^ lg) (m + 1) x).getD j A.zero = pair.1 ∧
      (stageOver A (2 ^ lg) (m + 1) x).getD (j + 2 ^ m) A.zero = pair.2 := by
  obtain ⟨hplace, hline⟩ := upper_of_pair hm hj hlow
  have hhalf : 2 ^ (m + 1) / 2 = 2 ^ m := by rw [Nat.pow_succ, Nat.mul_div_cancel _ Nat.two_pos]
  constructor
  · simp only [stageOver, List.getD, List.getElem?_map, List.getElem?_range hj, Option.map_some, Option.getD_some,
      hhalf, if_pos hlow]
  · simp only [stageOver, List.getD, List.getElem?_map, List.getElem?_range hline, Option.map_some, Option.getD_some,
      hhalf, hplace, Nat.not_lt.2 (Nat.le_add_left ..), if_false, Nat.add_sub_cancel]

/-- Every element of a line is the lower or the upper one of its pair. -/
theorem lower_or_upper (m j : ℕ) :
    j % 2 ^ (m + 1) < 2 ^ m ∨ ∃ i, j = i + 2 ^ m ∧ i % 2 ^ (m + 1) < 2 ^ m := by
  have hsize : 2 ^ (m + 1) = 2 * 2 ^ m := Nat.pow_succ'
  by_cases hlow : j % 2 ^ (m + 1) < 2 ^ m
  · exact .inl hlow
  · have hle := Nat.mod_le j (2 ^ (m + 1))
    have hlt := Nat.mod_lt j (show 0 < 2 ^ (m + 1) by positivity)
    refine .inr ⟨j - 2 ^ m, by omega, ?_⟩
    rw [← Nat.div_add_mod j (2 ^ (m + 1)), Nat.add_sub_assoc (by omega), Nat.mul_add_mod, Nat.mod_eq_of_lt (by omega)]
    omega

/-! ## The invariant of the stages -/

/-- What element `j` holds after stage `m`: the transform of size `2^m` of every `2^(lg - m)`-th element, from the
reversed number of the block of `j` on. -/
noncomputable def partialDft (lg m : ℕ) (f : ℕ → ℂ) (j : ℕ) : ℂ :=
  ∑ t ∈ Finset.range (2 ^ m), f (t * 2 ^ (lg - m) + bitrev (j / 2 ^ m) (lg - m)) * unitRoot (2 ^ m) (t * j)

theorem partialDft_zero (lg : ℕ) (f : ℕ → ℂ) (j : ℕ) : partialDft lg 0 f j = f (bitrev j lg) := by
  simp [partialDft]

theorem partialDft_last {lg j : ℕ} (f : ℕ → ℂ) (hj : j < 2 ^ lg) :
    partialDft lg lg f j = ∑ t ∈ Finset.range (2 ^ lg), f t * unitRoot (2 ^ lg) (t * j) := by
  simp [partialDft, Nat.div_eq_of_lt hj, bitrev]

theorem sum_range_two_mul {M : Type} [AddCommMonoid M] (g : ℕ → M) (n : ℕ) :
    ∑ t ∈ Finset.range (2 * n), g t = ∑ t ∈ Finset.range n, (g (2 * t) + g (2 * t + 1)) := by
  induction n with
  | zero => simp
  | succ n ih => rw [Nat.mul_succ, Finset.sum_range_succ, Finset.sum_range_succ, ih, Finset.sum_range_succ, add_assoc]

/-- The sum over even and odd indices of a transform twice the size: the two halves of a butterfly (R174). `sign` is the
factor of the odd half, 1 for the lower element of a pair and -1 for the upper one. -/
theorem partialDft_succ {lg m i j : ℕ} {sign : ℂ} (f : ℕ → ℂ) (hm : m + 1 ≤ lg) (hlow : i % 2 ^ (m + 1) < 2 ^ m)
    (hblock : j / 2 ^ (m + 1) = i / 2 ^ (m + 1)) (hsame : ∀ t, unitRoot (2 ^ m) (t * j) = unitRoot (2 ^ m) (t * i))
    (hsign : unitRoot (2 ^ (m + 1)) j = sign * unitRoot (2 ^ (m + 1)) i) :
    partialDft lg (m + 1) f j =
      partialDft lg m f i + sign * (unitRoot (2 ^ (m + 1)) i * partialDft lg m f (i + 2 ^ m)) := by
  obtain ⟨l, hl⟩ : ∃ l, lg - m = l + 1 := ⟨lg - m - 1, by omega⟩
  have hl' : lg - (m + 1) = l := by omega
  have hpos : 0 < 2 ^ m := by positivity
  have hsize : 2 ^ (m + 1) = 2 * 2 ^ m := Nat.pow_succ'
  have hsplit := Nat.div_add_mod i (2 ^ (m + 1))
  set b := i / 2 ^ (m + 1)
  have heven : i / 2 ^ m = 2 * b := by
    have hi : i = 2 ^ m * (2 * b) + i % 2 ^ (m + 1) := by rw [← mul_assoc, mul_comm (2 ^ m), ← hsize, hsplit]
    rw [hi, Nat.mul_add_div hpos, Nat.div_eq_of_lt hlow, add_zero]
  have hodd : (i + 2 ^ m) / 2 ^ m = 2 * b + 1 := by rw [Nat.add_div_right _ hpos, heven]
  have hrev : bitrev (2 * b) (l + 1) = bitrev b l := by
    rw [bitrev, Nat.mul_mod_right, Nat.mul_div_cancel_left _ two_pos, zero_mul, zero_add]
  have hrev' : bitrev (2 * b + 1) (l + 1) = 2 ^ l + bitrev b l := by
    rw [bitrev, Nat.mul_add_mod, Nat.mul_add_div two_pos, Nat.one_mod, one_mul, Nat.div_eq_of_lt one_lt_two, add_zero]
  have hshift (t : ℕ) : unitRoot (2 ^ m) (t * (i + 2 ^ m)) = unitRoot (2 ^ m) (t * i) := by
    rw [mul_add, unitRoot_add, mul_comm t (2 ^ m), unitRoot_self_mul hpos.ne', mul_one]
  have hdouble (t : ℕ) : unitRoot (2 ^ (m + 1)) (2 * t * j) = unitRoot (2 ^ m) (t * i) := by
    rw [pow_succ, mul_comm 2 t, mul_right_comm, unitRoot_mul_mul two_ne_zero, hsame]
  simp only [partialDft, hblock, heven, hodd, hl, hl', hrev, hrev', hshift]
  rw [pow_succ' 2 m, sum_range_two_mul, Finset.sum_add_distrib, ← pow_succ' 2 m, Finset.mul_sum, Finset.mul_sum]
  congr 1
  · refine Finset.sum_congr rfl fun t _ => ?_
    rw [hdouble, pow_succ' 2 l, ← mul_assoc, mul_comm t 2]
  · refine Finset.sum_congr rfl fun t _ => ?_
    have hplace : (2 * t + 1) * 2 ^ l + bitrev b l = t * 2 ^ (l + 1) + (2 ^ l + bitrev b l) := by ring
    rw [hplace, add_mul, unitRoot_add, hdouble, one_mul, hsign]
    ring

/-- The two elements of a pair after a stage, from those before it. -/
theorem partialDft_pair {lg m i : ℕ} (f : ℕ → ℂ) (hm : m + 1 ≤ lg) (hlow : i % 2 ^ (m + 1) < 2 ^ m) :
    partialDft lg (m + 1) f i =
        partialDft lg m f i + unitRoot (2 ^ (m + 1)) i * partialDft lg m f (i + 2 ^ m) ∧
      partialDft lg (m + 1) f (i + 2 ^ m) =
        partialDft lg m f i - unitRoot (2 ^ (m + 1)) i * partialDft lg m f (i + 2 ^ m) := by
  have hpos : 0 < 2 ^ m := by positivity
  have hsize : 2 ^ (m + 1) = 2 * 2 ^ m := Nat.pow_succ'
  constructor
  · rw [partialDft_succ (sign := 1) f hm hlow rfl (fun _ => rfl) (one_mul _).symm, one_mul]
  · rw [partialDft_succ (i := i) (sign := -1) f hm hlow, neg_one_mul, sub_eq_add_neg]
    · have hhalf : 2 ^ m < 2 ^ (m + 1) := by omega
      rw [Nat.add_div_eq_of_add_mod_lt (by rw [Nat.mod_eq_of_lt hhalf]; omega), Nat.div_eq_of_lt hhalf, add_zero]
    · intro t
      rw [mul_add, unitRoot_add, mul_comm t (2 ^ m), unitRoot_self_mul hpos.ne', mul_one]
    · rw [unitRoot_add, hsize, unitRoot_half hpos.ne']
      ring

/-! ## The algorithm is the transform -/

section
variable {A : LineArith ℂ} (hA : IsExactArith A)
include hA

/-- The twiddle of a pair (R128): the root of the stage's size. -/
theorem root_of_pair {lg m : ℕ} (hm : m + 1 ≤ lg) (i : ℕ) :
    A.root (2 ^ lg) (i % 2 ^ (m + 1) * (2 ^ lg / 2 ^ (m + 1))) = unitRoot (2 ^ (m + 1)) i := by
  have hn : 2 ^ lg = 2 ^ (m + 1) * 2 ^ (lg - (m + 1)) := by rw [← pow_add, Nat.add_sub_cancel' hm]
  have hquot : 2 ^ lg / 2 ^ (m + 1) = 2 ^ (lg - (m + 1)) := by rw [hn, Nat.mul_div_cancel_left _ (by positivity)]
  obtain ⟨-, -, -, hroot, -⟩ := id hA
  rw [hquot, hroot, ← unitRoot_mod (by positivity) i, ← unitRoot_mul_mul (c := 2 ^ (lg - (m + 1))) (by positivity), ← hn]
  rfl

theorem getD_stagesOver {lg m j : ℕ} {x y : List ℂ} (hy : ∀ j, j < 2 ^ lg → y.getD j 0 = x.getD (bitrev j lg) 0)
    (hm : m ≤ lg) (hj : j < 2 ^ lg) :
    (stagesOver A (2 ^ lg) m y).getD j 0 = partialDft lg m (fun t => x.getD t 0) j := by
  obtain ⟨hzero, -, hbfly, -, -⟩ := id hA
  induction m generalizing j with
  | zero => rw [stagesOver_zero, hy j hj, partialDft_zero]
  | succ m ih =>
    have ih {j : ℕ} (hj : j < 2 ^ lg) := ih (by omega) hj
    have hpair {i : ℕ} (hi : i < 2 ^ lg) (hlow : i % 2 ^ (m + 1) < 2 ^ m) :
        (stagesOver A (2 ^ lg) (m + 1) y).getD i 0 = partialDft lg (m + 1) (fun t => x.getD t 0) i ∧
          (stagesOver A (2 ^ lg) (m + 1) y).getD (i + 2 ^ m) 0 =
            partialDft lg (m + 1) (fun t => x.getD t 0) (i + 2 ^ m) := by
      obtain ⟨hlower, hupper⟩ := getD_stageOver_pair A (stagesOver A (2 ^ lg) m y) hm hi hlow
      rw [hbfly, hzero, root_of_pair hA hm, ih hi, ih (upper_of_pair hm hi hlow).2] at hlower hupper
      obtain ⟨hlower', hupper'⟩ := partialDft_pair (fun t => x.getD t 0) hm hlow
      rw [stagesOver_succ, hlower, hupper, hlower', hupper']
      exact ⟨rfl, rfl⟩
    rcases lower_or_upper m j with hlow | ⟨i, rfl, hlow⟩
    · exact (hpair hj hlow).1
    · exact (hpair (by omega) hlow).2

theorem getD_forwardOver {lg k : ℕ} (x : List ℂ) (hk : k < 2 ^ lg) :
    (forwardOver A lg x).getD k 0 = dft (2 ^ lg) (fun t => x.getD t 0) k := by
  obtain ⟨hzero, -, -, -, hscale⟩ := id hA
  set y := (List.range (2 ^ lg)).map fun j => x.getD (bitrev j lg) A.zero
  have hy (j : ℕ) (hj : j < 2 ^ lg) : y.getD j 0 = x.getD (bitrev j lg) 0 := by
    simp [y, List.getD, List.getElem?_range hj, hzero]
  have hlen : (stagesOver A (2 ^ lg) lg y).length = 2 ^ lg := length_stagesOver A lg (by simp [y])
  have hlast := getD_stagesOver hA hy le_rfl hk
  rw [partialDft_last _ hk] at hlast
  change ((stagesOver A (2 ^ lg) lg y).map (A.scale (2 ^ lg))).getD k 0 = _
  rw [List.getD, List.getElem?_map, List.getElem?_eq_getElem (by omega), Option.map_some, Option.getD_some, hscale,
    ← List.getD_eq_getElem _ 0, hlast]
  rfl

theorem getD_map_conj (x : List ℂ) (k : ℕ) : (x.map A.conj).getD k 0 = conj (x.getD k 0) := by
  obtain ⟨-, hconj, -⟩ := id hA
  rw [List.getD, List.getElem?_map, List.getD]
  cases x[k]? with
  | none => simp
  | some z => simp [hconj]

theorem getD_inverseOver {lg k : ℕ} (x : List ℂ) (hk : k < 2 ^ lg) :
    (inverseOver A lg x).getD k 0 = idft (2 ^ lg) (fun t => x.getD t 0) k := by
  rw [inverseOver, getD_map_conj hA, getD_forwardOver hA _ hk]
  simp only [getD_map_conj hA, conj_dft_conj]

end

@[simp] theorem length_forwardOver {α : Type} (A : LineArith α) (lg : ℕ) (x : List α) :
    (forwardOver A lg x).length = 2 ^ lg := by
  change ((stagesOver A (2 ^ lg) lg _).map (A.scale (2 ^ lg))).length = 2 ^ lg
  rw [List.length_map, length_stagesOver A lg (by simp)]

@[simp] theorem length_inverseOver {α : Type} (A : LineArith α) (lg : ℕ) (x : List α) :
    (inverseOver A lg x).length = 2 ^ lg := by
  rw [inverseOver, List.length_map, length_forwardOver]

theorem idft_congr {n : ℕ} {f g : ℕ → ℂ} (h : ∀ k, k < n → f k = g k) (j : ℕ) : idft n f j = idft n g j := by
  rw [idft, idft, Finset.sum_congr rfl fun k hk => by rw [h k (Finset.mem_range.1 hk)]]

theorem dft_congr {n : ℕ} {f g : ℕ → ℂ} (h : ∀ k, k < n → f k = g k) (j : ℕ) : dft n f j = dft n g j := by
  rw [dft, dft, Finset.sum_congr rfl fun k hk => by rw [h k (Finset.mem_range.1 hk)]]

theorem list_ext_getD {n : ℕ} {x y : List ℂ} (hx : x.length = n) (hy : y.length = n)
    (h : ∀ k, k < n → x.getD k 0 = y.getD k 0) : x = y := by
  refine List.ext_getElem (hx.trans hy.symm) fun k hk hk' => ?_
  rw [← List.getD_eq_getElem x 0 hk, ← List.getD_eq_getElem y 0 hk', h k (hx ▸ hk)]

/-- The sum of a function over a list, index by index. -/
theorem sum_map_normSq {n : ℕ} {x : List ℂ} (hx : x.length = n) :
    (x.map Complex.normSq).sum = ∑ k ∈ Finset.range n, Complex.normSq (x.getD k 0) := by
  subst hx
  rw [Finset.sum_range, ← List.sum_ofFn]
  congr 1
  refine List.ext_getElem (by simp) fun k hk hk' => ?_
  simp

/-- The exponent of the transform as the statement writes it. -/
theorem unitRoot_eq_exp (n m k : ℕ) :
    unitRoot n (m * k) = Complex.exp (2 * Real.pi * Complex.I * m * k / n) := by
  rw [unitRoot]
  congr 1
  push_cast
  ring

theorem conj_unitRoot_eq_exp (n m k : ℕ) :
    conj (unitRoot n (m * k)) = Complex.exp (-(2 * Real.pi * Complex.I * m * k) / n) := by
  rw [conj_unitRoot, unitRoot_eq_exp, ← Complex.exp_neg, neg_div]

/-- Settles O23: the block's transforms are the algorithm, and over exact arithmetic the algorithm is the transform. -/
theorem exactTransformIsTheUnitaryDft : Obligations.ExactTransformIsTheUnitaryDft := by
  refine ⟨fun lg x => ⟨fftLine_eq_forwardOver lg x, ifftLine_eq_inverseOver lg x⟩, ?_⟩
  intro A lg x hA hx n
  have hforward {k : ℕ} (hk : k < n) := getD_forwardOver hA x hk
  refine ⟨fun k hk => ?_, fun k hk => ?_, ?_, ?_⟩
  · simp only [hforward hk, dft, unitRoot_eq_exp]
    rfl
  · simp only [getD_inverseOver hA x hk, idft, conj_unitRoot_eq_exp]
    rfl
  · refine list_ext_getD (length_inverseOver ..) hx fun k hk => ?_
    rw [getD_inverseOver hA _ hk, idft_congr fun _ => hforward, idft_dft hk]
  · rw [sum_map_normSq (length_forwardOver ..), sum_map_normSq hx,
      ← sum_normSq_dft n fun t => x.getD t 0]
    exact Finset.sum_congr rfl fun k hk => by rw [hforward (Finset.mem_range.1 hk)]

/-! ## ACF and CONV -/

/-- The words of ACF are the real parts of its algorithm over the block's arithmetic. -/
theorem acfResult_words {lg : ℕ} {l : Latch} (s : State) (hn : l.n.toNat = 2 ^ lg) :
    (acfResult l s).words = (acfOver blockSpectrum lg
      ((List.range (2 ^ lg)).map fun i => ⟨readWord s (l.aAddr.toNat + i), 0x00000000⟩)).map Cplx.re := by
  have hsquare (y : List Cplx) : expandWords (y.map mag2) = y.map blockSpectrum.square := by
    rw [expandWords, List.map_map]
    rfl
  rw [acfResult, hn, acfTransform, expandWords_readWords, hsquare, fftLine_eq_forwardOver, fftLine_eq_forwardOver]
  rfl

/-- The words of CONV are the magnitudes of its algorithm over the block's arithmetic. -/
theorem convResult_words {lg : ℕ} {l : Latch} (s : State) (hn : l.n.toNat = 2 ^ lg) :
    (convResult l s).words = (convOver blockSpectrum lg ((List.range (2 ^ lg)).map (cplxAt s l.aAddr.toNat))
      ((List.range (2 ^ lg)).map (cplxAt s l.bAddr.toNat))).map mag := by
  rw [convResult, hn, ifftLine_eq_inverseOver]
  rfl

section
variable {A : SpectrumArith ℂ} (hA : IsExactSpectrum A)
include hA

theorem getD_map_square (y : List ℂ) (k : ℕ) : (y.map A.square).getD k 0 = (Complex.normSq (y.getD k 0) : ℂ) := by
  rw [List.getD, List.getElem?_map, List.getD]
  cases y[k]? with
  | none => simp
  | some z => simp [hA.2.2]

theorem getD_zipWith_mul {n k : ℕ} {y z : List ℂ} (hy : y.length = n) (hz : z.length = n) (hk : k < n) :
    (List.zipWith A.mul y z).getD k 0 = y.getD k 0 * z.getD k 0 := by
  rw [List.getD_eq_getElem _ 0 (by simp; omega), List.getElem_zipWith, hA.2.1, List.getD_eq_getElem _ 0 (by omega),
    List.getD_eq_getElem _ 0 (by omega)]

/-- The circular autocorrelation of a real line (R205). -/
theorem getD_acfOver {lg m : ℕ} (x : List ℝ) (hm : m < 2 ^ lg) :
    (acfOver A lg (x.map Complex.ofReal)).getD m 0 =
      (∑ i ∈ Finset.range (2 ^ lg), (x.getD i 0 : ℂ) * (x.getD ((i + m) % 2 ^ lg) 0 : ℂ)) /
        (Real.sqrt (2 ^ lg : ℕ) : ℂ) := by
  have hreal (i : ℕ) : (x.map Complex.ofReal).getD i 0 = (x.getD i 0 : ℂ) := by
    rw [List.getD, List.getElem?_map, List.getD]
    cases x[i]? <;> rfl
  have hspectrum (k : ℕ) (hk : k < 2 ^ lg) :
      ((forwardOver A.toLineArith lg (x.map Complex.ofReal)).map A.square).getD k 0 =
        (Complex.normSq (dft (2 ^ lg) (fun i => (x.getD i 0 : ℂ)) k) : ℂ) := by
    rw [getD_map_square hA, getD_forwardOver hA.1 _ hk]
    simp only [hreal]
  rw [acfOver, getD_forwardOver hA.1 _ hm, dft_congr hspectrum, dft_normSq_dft (by positivity)]
  simp only [Complex.conj_ofReal]

/-- The circular convolution of two lines given by their transforms (R206). -/
theorem getD_convOver {lg m : ℕ} (x y : List ℂ) (hm : m < 2 ^ lg) :
    (convOver A lg (forwardOver A.toLineArith lg x) (forwardOver A.toLineArith lg y)).getD m 0 =
      (∑ i ∈ Finset.range (2 ^ lg), x.getD i 0 * y.getD ((m + 2 ^ lg - i) % 2 ^ lg) 0) /
        (Real.sqrt (2 ^ lg : ℕ) : ℂ) := by
  have hproduct (k : ℕ) (hk : k < 2 ^ lg) :
      (List.zipWith A.mul (forwardOver A.toLineArith lg x) (forwardOver A.toLineArith lg y)).getD k 0 =
        dft (2 ^ lg) (fun i => x.getD i 0) k * dft (2 ^ lg) (fun i => y.getD i 0) k := by
    rw [getD_zipWith_mul hA (length_forwardOver ..) (length_forwardOver ..) hk, getD_forwardOver hA.1 _ hk,
      getD_forwardOver hA.1 _ hk]
  rw [convOver, getD_inverseOver hA.1 _ hm, idft_congr hproduct, idft_dft_mul_dft (by positivity)]

end

/-- Settles O24: the words of both commands by their algorithms, the two laws by the exchange of sums. -/
theorem exactAcfAndConvLaws : Obligations.ExactAcfAndConvLaws := by
  refine ⟨fun lg l s hn => ⟨acfResult_words s hn, convResult_words s hn⟩, ?_⟩
  intro A lg hA n
  refine ⟨?_, ?_⟩
  · intro x _ m hm
    have hcast : (x >>= fun r => pure (r : ℂ)).map (fun z => z) = x.map Complex.ofReal := by
      rw [List.map_id', bind_pure_comp]
      rfl
    exact hcast ▸ getD_acfOver hA x hm
  · intro x y _ _ m hm
    rw [getD_convOver hA x y hm, norm_div, Complex.norm_real, Real.norm_of_nonneg (Real.sqrt_nonneg _)]

end Sys2Proof.Machine
end

section
/-! PROOFS. Correct rounding with ties (40_datapath.md R120): `nearestBits` finds the pattern a value rounds to, and that
pattern with a sign, or infinity on overflow, is the value rounded once. -/

namespace Sys2Proof.Machine

/-! ## The pattern a value rounds to -/

/-- `y` units of 2^-149 lie between the midpoints from the magnitude pattern `b` to its two neighbours; a value on a
midpoint belongs to the even pattern. -/
def RoundsTo (y : ℝ) (b : Nat) : Prop :=
  (b ≠ 0 → (magnitude (b - 1) : ℝ) + magnitude b ≤ 2 * y) ∧ 2 * y ≤ magnitude b + magnitude (b + 1) ∧
    ((b ≠ 0 ∧ (magnitude (b - 1) : ℝ) + magnitude b = 2 * y) ∨ 2 * y = magnitude b + magnitude (b + 1) → b % 2 = 0)

theorem roundsTo_of_strictlyNearest {y : ℝ} {b : Nat} (h : StrictlyNearest y b) : RoundsTo y b := by
  obtain ⟨hbelow, habove⟩ := h
  refine ⟨fun hb => (hbelow hb).le, habove.le, ?_⟩
  rintro (⟨hb, htie⟩ | htie)
  · exact absurd htie (hbelow hb).ne
  · exact absurd htie habove.ne

/-- A value `r / q` beyond the pattern `c`, whose mantissa is `m` in units of `2^t`, rounds to the next pattern beyond the
midpoint and on the midpoint when `m` is odd, else to `c`. -/
theorem roundsTo_of_mantissa {q t m r c : Nat} (hq : 0 < q) (hr : r < q * 2 ^ t) (hself : magnitude c = m * 2 ^ t)
    (hsucc : magnitude (c + 1) = (m + 1) * 2 ^ t) (hparity : c % 2 = m % 2) :
    RoundsTo (m * 2 ^ t + r / q) (if q * 2 ^ t < 2 * r ∨ (2 * r = q * 2 ^ t ∧ m % 2 = 1) then c + 1 else c) := by
  have hq' : (0 : ℝ) < q := by exact_mod_cast hq
  have hfrac : (r : ℝ) / q < 2 ^ t := by
    rw [div_lt_iff₀' hq']
    exact_mod_cast hr
  have hnonneg : (0 : ℝ) ≤ r / q := by positivity
  have hhalf : 2 * ((r : ℝ) / q) = 2 * r / q := by ring
  have hmidpoint (h : (2 : ℝ) ^ t = 2 * (r / q)) : 2 * r = q * 2 ^ t := by
    rw [hhalf, eq_div_iff hq'.ne'] at h
    have heq : 2 ^ t * q = 2 * r := by exact_mod_cast h
    rw [← heq, mul_comm]
  have hself' : (magnitude c : ℝ) = m * 2 ^ t := by exact_mod_cast hself
  have hsucc' : (magnitude (c + 1) : ℝ) = (m + 1) * 2 ^ t := by exact_mod_cast hsucc
  split_ifs with hup
  · have hround : q * 2 ^ t ≤ 2 * r := by omega
    have hge : (2 : ℝ) ^ t ≤ 2 * (r / q) := by
      rw [hhalf, le_div_iff₀' hq']
      exact_mod_cast hround
    have hnext : (magnitude (c + 1) : ℝ) < magnitude (c + 1 + 1) := magnitude_cast_strictMono (Nat.lt_succ_self _)
    refine ⟨fun _ => ?_, by linarith, ?_⟩
    · rw [Nat.add_sub_cancel]
      linarith
    · rintro (⟨-, htie⟩ | htie)
      · rw [Nat.add_sub_cancel] at htie
        have hodd := hmidpoint (by linarith)
        omega
      · linarith
  · have hround : 2 * r ≤ q * 2 ^ t := by omega
    have hle : 2 * ((r : ℝ) / q) ≤ 2 ^ t := by
      rw [hhalf, div_le_iff₀' hq']
      exact_mod_cast hround
    have hprev (hc : c ≠ 0) : (magnitude (c - 1) : ℝ) < magnitude c := magnitude_cast_strictMono (by omega)
    refine ⟨fun hc => by linarith [hprev hc], by linarith, ?_⟩
    rintro (⟨hc, htie⟩ | htie)
    · linarith [hprev hc]
    · have heven := hmidpoint (by linarith)
      omega

/-- `nearestBits` rounds: up beyond the midpoint of the two patterns around the value, and on it to the even one. -/
theorem roundsTo_nearestBits (p : Nat) {q : Nat} (hq : 0 < q) : RoundsTo ((p : ℝ) / q) (nearestBits p q) := by
  obtain ⟨t, m, r, rfl, hr, hnormal, hm, hnearest⟩ := exists_nearestBits_eq p hq
  have hself : magnitude (t * 2 ^ 23 + m) = m * 2 ^ t := magnitude_mantissa hnormal hm.le
  have hsucc : magnitude (t * 2 ^ 23 + m + 1) = (m + 1) * 2 ^ t := by
    rw [Nat.add_assoc, magnitude_mantissa (by omega) hm]
  have hvalue : ((q * 2 ^ t * m + r : ℕ) : ℝ) / q = m * 2 ^ t + r / q := by
    push_cast
    field_simp
  rw [hnearest, hvalue]
  exact roundsTo_of_mantissa hq hr hself hsucc (by omega)

/-! ## No pattern is nearer -/

/-- Every other pattern is at least as far; one as far as this leaves this one even. -/
theorem RoundsTo.abs_le {y : ℝ} {a b : Nat} (h : RoundsTo y b) :
    |(magnitude b : ℝ) - y| ≤ |(magnitude a : ℝ) - y| ∧
      (a ≠ b → |(magnitude a : ℝ) - y| = |(magnitude b : ℝ) - y| → b % 2 = 0) := by
  obtain ⟨hbelow, habove, htie⟩ := h
  rw [← sq_le_sq, ← sq_eq_sq_iff_abs_eq_abs]
  rcases lt_trichotomy a b with hlt | rfl | hgt
  · have horder : (magnitude a : ℝ) < magnitude b := magnitude_cast_strictMono hlt
    have hpred : (magnitude a : ℝ) ≤ magnitude (b - 1) := magnitude_cast_strictMono.monotone (by omega)
    have hmid := hbelow (by omega)
    refine ⟨by nlinarith, fun _ heq => htie (.inl ⟨by omega, ?_⟩)⟩
    have hzero : ((magnitude a : ℝ) - magnitude b) * (magnitude a + magnitude b - 2 * y) = 0 := by
      linear_combination heq
    rcases mul_eq_zero.1 hzero with hzero | hzero <;> linarith
  · exact ⟨le_rfl, fun hne => absurd rfl hne⟩
  · have horder : (magnitude b : ℝ) < magnitude a := magnitude_cast_strictMono hgt
    have hsucc : (magnitude (b + 1) : ℝ) ≤ magnitude a := magnitude_cast_strictMono.monotone hgt
    refine ⟨by nlinarith, fun _ heq => htie (.inr ?_)⟩
    have hzero : ((magnitude a : ℝ) - magnitude b) * (magnitude a + magnitude b - 2 * y) = 0 := by
      linear_combination heq
    rcases mul_eq_zero.1 hzero with hzero | hzero <;> linarith

/-- A magnitude with the opposite sign is as far as zero, or farther. -/
theorem RoundsTo.abs_le_neg {y : ℝ} {a b : Nat} (h : RoundsTo y b) (hy : 0 ≤ y) :
    |(magnitude b : ℝ) - y| ≤ |-(magnitude a : ℝ) - y| ∧
      (a ≠ 0 ∨ b ≠ 0 → |-(magnitude a : ℝ) - y| = |(magnitude b : ℝ) - y| → b % 2 = 0) := by
  have ha : (0 : ℝ) ≤ magnitude a := Nat.cast_nonneg _
  have hzero : (magnitude 0 : ℝ) = 0 := Nat.cast_zero
  obtain ⟨hle, heven⟩ := h.abs_le (a := 0)
  rw [hzero, zero_sub, abs_neg, abs_of_nonneg hy] at hle heven
  have hfar : |-(magnitude a : ℝ) - y| = magnitude a + y := by
    rw [← neg_add', abs_neg, abs_of_nonneg (by positivity)]
  rw [hfar]
  refine ⟨by linarith, fun hne heq => ?_⟩
  by_cases hb : b = 0
  · rw [hb]
  · exact heven (Ne.symm hb) (by linarith)

theorem withSign_mod_two (neg : Bool) {b : Nat} (hb : b < 2 ^ 31) : (withSign neg b).toNat % 2 = b % 2 := by
  rw [toNat_withSign neg hb]
  split_ifs <;> omega

/-- The pattern a value rounds to, with a sign, is the nearest one to the signed value, ties to even. -/
theorem RoundsTo.isNearest {y : ℝ} {b : Nat} (neg : Bool) (h : RoundsTo y b) (hy : 0 ≤ y) (hb : b < infBits) :
    IsNearest (signFactor neg * y / 2 ^ 149) (withSign neg b) := by
  have hbound : b < 2 ^ 31 := hb.trans infBits_lt
  have hunit : (0 : ℝ) < 2 ^ 149 := by positivity
  have hself := abs_val32_sub (withSign neg b) neg y
  rw [signBit_withSign neg hbound, absBits_withSign neg hbound, if_pos rfl] at hself
  have hall (v : Word) : |(val32 (withSign neg b) : ℝ) - signFactor neg * y / 2 ^ 149| ≤
        |(val32 v : ℝ) - signFactor neg * y / 2 ^ 149| ∧
      (val32 v ≠ val32 (withSign neg b) → |(val32 v : ℝ) - signFactor neg * y / 2 ^ 149| =
        |(val32 (withSign neg b) : ℝ) - signFactor neg * y / 2 ^ 149| → b % 2 = 0) := by
    rw [abs_val32_sub v, hself, div_le_div_iff_of_pos_right hunit, div_left_inj' hunit.ne']
    split_ifs with hsign
    · obtain ⟨hle, heven⟩ := h.abs_le (a := absBits v)
      refine ⟨hle, fun hne => heven ?_⟩
      rintro rfl
      exact hne (by rw [← hsign, withSign_signBit_absBits])
    · obtain ⟨hle, heven⟩ := h.abs_le_neg (a := absBits v) hy
      refine ⟨hle, fun hne => heven ?_⟩
      by_contra hzero
      obtain ⟨ha, rfl⟩ : absBits v = 0 ∧ b = 0 := by omega
      exact hne (by simp [val32, ha, magnitude])
  refine ⟨by rwa [Finite32, absBits_withSign neg hbound], fun v _ => (hall v).1, fun v _ hne heq => ?_⟩
  rw [withSign_mod_two neg hbound]
  exact (hall v).2 hne heq

/-! ## Overflow -/

/-- The overflow bound, in units, is the midpoint from the greatest finite pattern to the pattern of infinity. -/
theorem overflowBound_eq :
    (magnitude (infBits - 1) : ℝ) + magnitude infBits = 2 * (2 ^ 149 * ((overflowBound : ℚ) : ℝ)) := by
  have hmax : magnitude (infBits - 1) = (2 ^ 24 - 1) * 2 ^ 253 := by decide +kernel
  have hinf : magnitude infBits = 2 ^ 24 * 2 ^ 253 := by decide +kernel
  rw [hmax, hinf, overflowBound]
  norm_num

/-- A value rounds to the pattern of infinity or beyond exactly from the overflow bound on; that bound itself is a tie,
and the greatest finite pattern is odd. -/
theorem RoundsTo.infBits_le_iff {y : ℝ} {b : Nat} (h : RoundsTo y b) :
    infBits ≤ b ↔ 2 ^ 149 * ((overflowBound : ℚ) : ℝ) ≤ y := by
  have hbound := overflowBound_eq
  obtain ⟨hbelow, habove, htie⟩ := h
  have hmono := magnitude_cast_strictMono.monotone
  constructor
  · intro hb
    have hmid := hbelow (by unfold infBits at hb; omega)
    have hself : (magnitude infBits : ℝ) ≤ magnitude b := hmono hb
    have hpred : (magnitude (infBits - 1) : ℝ) ≤ magnitude (b - 1) := hmono (by omega)
    linarith
  · intro hy
    by_contra hlt
    have hself : (magnitude b : ℝ) ≤ magnitude (infBits - 1) := hmono (by omega)
    have hsucc : (magnitude (b + 1) : ℝ) ≤ magnitude infBits := hmono (by omega)
    have heven := htie (.inr (by linarith))
    have hsame : b = infBits - 1 := magnitude_strictMono.injective (Nat.cast_injective (R := ℝ) (by linarith))
    rw [hsame] at heven
    exact absurd heven (by decide)

theorem signFactor_cases (neg : Bool) : signFactor neg = 1 ∧ neg = false ∨ signFactor neg = -1 ∧ neg = true := by
  cases neg <;> simp [signFactor]

/-- With overflow to infinity the pattern a value rounds to is the value rounded once (R120). -/
theorem RoundsTo.isRounded {y : ℝ} {b : Nat} (neg : Bool) (h : RoundsTo y b) (hy : 0 ≤ y) :
    IsRounded (signFactor neg * y / 2 ^ 149) (withSign neg (min b infBits)) := by
  have hoverflow := h.infBits_le_iff
  have hpos : (0 : ℝ) < (overflowBound : ℚ) := by
    unfold overflowBound
    norm_num
  have hunit : (0 : ℝ) < 2 ^ 149 := by positivity
  have hvalue : 0 ≤ y / 2 ^ 149 := by positivity
  rw [mul_div_assoc]
  refine ⟨fun hge => ?_, fun hle => ?_, fun habs => ?_⟩
  · rcases signFactor_cases neg with ⟨hsign, rfl⟩ | ⟨hsign, rfl⟩ <;> rw [hsign] at hge
    · rw [one_mul, le_div_iff₀' hunit] at hge
      rw [Nat.min_eq_right (hoverflow.2 hge), infinity]
    · linarith
  · rcases signFactor_cases neg with ⟨hsign, rfl⟩ | ⟨hsign, rfl⟩ <;> rw [hsign] at hle
    · linarith
    · rw [neg_one_mul, neg_le_neg_iff, le_div_iff₀' hunit] at hle
      rw [Nat.min_eq_right (hoverflow.2 hle), infinity]
  · have hlt : b < infBits := by
      by_contra hge
      have hge := hoverflow.1 (Nat.not_lt.1 hge)
      rw [← le_div_iff₀' hunit] at hge
      rw [abs_mul, abs_of_nonneg hvalue] at habs
      rcases signFactor_cases neg with ⟨hsign, -⟩ | ⟨hsign, -⟩ <;> rw [hsign] at habs <;> norm_num at habs <;> linarith
    rw [Nat.min_eq_left hlt.le, ← mul_div_assoc]
    exact h.isNearest neg hy hlt

/-- `roundNearest` is correct rounding. -/
theorem isRounded_roundNearest (neg : Bool) (p : Nat) {q : Nat} (hq : 0 < q) :
    IsRounded (signFactor neg * ((p : ℝ) / q) / 2 ^ 149) (roundNearest neg p q) :=
  (roundsTo_nearestBits p hq).isRounded neg (by positivity)

/-- A zero of either sign is zero, rounded. -/
theorem isRounded_zero32 (neg : Bool) : IsRounded 0 (zero32 neg) := by
  have h := (roundsTo_of_strictlyNearest (strictlyNearest_magnitude 0)).isRounded neg (Nat.cast_nonneg _)
  simpa [magnitude, zero32] using h

end Sys2Proof.Machine
end

section
/-! PROOFS. Sums, products, quotients and square roots are correctly rounded (40_datapath.md R120, R123). -/

namespace Sys2Proof.Machine

/-! ## The value of a pattern as a signed integer of units -/

theorem signed_cast (neg : Bool) (k : Nat) : ((signed neg k : ℤ) : ℝ) = signFactor neg * k := by
  cases neg <;> simp [signed, signFactor]

theorem signFactor_xor (m n : Bool) : signFactor (m ^^ n) = signFactor m * signFactor n := by
  cases m <;> cases n <;> simp [signFactor]

theorem signFactor_not (n : Bool) : signFactor (!n) = -signFactor n := by cases n <;> simp [signFactor]

@[simp] theorem signFactor_mul_self (n : Bool) : signFactor n * signFactor n = 1 := by cases n <;> simp [signFactor]

theorem val32_eq_signed (x : Word) : (val32 x : ℝ) = (signed (signBit x) (magnitude (absBits x)) : ℤ) / 2 ^ 149 := by
  rw [val32_cast, signed_cast]

theorem finite32_neg32 {x : Word} (h : Finite32 x) : Finite32 (neg32 x) := by
  rwa [Finite32, absBits_neg32]

theorem val32_neg32 (x : Word) : val32 (neg32 x) = -val32 x := by
  cases h : signBit x <;> simp [val32, h] <;> ring

theorem infinity_eq (n : Bool) : infinity n = if n then 0xFF800000 else 0x7F800000 := by cases n <;> rfl

theorem zero32_eq (n : Bool) : zero32 n = if n then 0x80000000 else 0x00000000 := by cases n <;> rfl

@[simp] theorem unpack_infinity (n : Bool) : unpack (infinity n) = .inf n := by cases n <;> decide

theorem neg32_infinity (n : Bool) : neg32 (infinity n) = infinity (!n) := by cases n <;> decide

/-! ## Sums -/

/-- A non-zero integer of units, rounded with its own sign. -/
theorem isRounded_integer (z : ℤ) : IsRounded ((z : ℝ) / 2 ^ 149) (roundNearest (decide (z < 0)) z.natAbs 1) := by
  have h := isRounded_roundNearest (decide (z < 0)) z.natAbs one_pos
  have hvalue : signFactor (decide (z < 0)) * (z.natAbs : ℝ) = z := by
    rw [Nat.cast_natAbs, Int.cast_abs]
    by_cases hneg : z < 0
    · rw [abs_of_neg (Int.cast_lt_zero.2 hneg)]
      simp [signFactor, hneg]
    · rw [abs_of_nonneg (by exact_mod_cast not_lt.1 hneg)]
      simp [signFactor, hneg]
  rwa [Nat.cast_one, div_one, hvalue] at h

theorem isRounded_addFinite (m : Bool) (k : Nat) (n : Bool) (l : Nat) :
    IsRounded (((signed m k + signed n l : ℤ) : ℝ) / 2 ^ 149) (addFinite m k n l) := by
  rw [addFinite]
  split_ifs with hzero
  · rw [hzero, Int.cast_zero, zero_div]
    exact isRounded_zero32 _
  · exact isRounded_integer _

theorem add32_of_finite32 {a b : Word} (ha : Finite32 a) (hb : Finite32 b) :
    add32 a b = addFinite (signBit a) (magnitude (absBits a)) (signBit b) (magnitude (absBits b)) := by
  simp only [add32, unpack_of_finite32 ha, unpack_of_finite32 hb]

theorem isRounded_add32 {a b : Word} (ha : Finite32 a) (hb : Finite32 b) :
    IsRounded ((val32 a : ℝ) + val32 b) (add32 a b) := by
  have h := isRounded_addFinite (signBit a) (magnitude (absBits a)) (signBit b) (magnitude (absBits b))
  rwa [Int.cast_add, add_div, ← val32_eq_signed, ← val32_eq_signed, ← add32_of_finite32 ha hb] at h

/-- An exact zero is -0.0 only of two negative zeros. -/
theorem add32_of_add_eq_zero {a b : Word} (ha : Finite32 a) (hb : Finite32 b) (hzero : val32 a + val32 b = 0) :
    add32 a b = zero32 (signBit a && signBit b) := by
  have hsum : (val32 a : ℝ) + val32 b = 0 := by exact_mod_cast hzero
  rw [val32_eq_signed, val32_eq_signed, ← add_div, div_eq_zero_iff, or_iff_left (by norm_num)] at hsum
  rw [add32_of_finite32 ha hb, addFinite, if_pos (by exact_mod_cast hsum)]

theorem add32_infinity_left (n : Bool) {b : Word} (hb : Finite32 b) : add32 (infinity n) b = infinity n := by
  simp only [add32, unpack_infinity, unpack_of_finite32 hb]

theorem add32_infinity_right (n : Bool) {b : Word} (hb : Finite32 b) : add32 b (infinity n) = infinity n := by
  rw [add32_comm, add32_infinity_left n hb]

theorem add32_infinity_self (n : Bool) : add32 (infinity n) (infinity n) = infinity n := by
  simp only [add32, unpack_infinity, if_true]

/-- Settles O35: a sum is an integer of units, rounded; a difference is the sum with the second sign inverted. -/
theorem sumsAreCorrectlyRounded : Obligations.SumsAreCorrectlyRounded := by
  refine ⟨fun a b ha hb => ⟨isRounded_add32 ha hb, ?_, fun hzero => ?_, fun hzero => ?_⟩, fun n => ?_⟩
  · have h := isRounded_add32 ha (finite32_neg32 hb)
    rwa [val32_neg32, Rat.cast_neg, ← sub_eq_add_neg] at h
  · rw [add32_of_add_eq_zero ha hb hzero, zero32_eq]
  · rw [sub32, add32_of_add_eq_zero ha (finite32_neg32 hb) (by rwa [val32_neg32, ← sub_eq_add_neg]), zero32_eq,
      signBit_neg32]
  · have hopposite : (if n then (0x7F800000 : Word) else 0xFF800000) = infinity (!n) := by cases n <;> rfl
    rw [hopposite, ← infinity_eq]
    refine ⟨fun b hb => ⟨add32_infinity_left n hb, add32_infinity_right n hb,
      add32_infinity_left n (finite32_neg32 hb), ?_⟩, add32_infinity_self n, ?_⟩
    · rw [sub32, neg32_infinity, add32_infinity_right _ hb]
    · rw [sub32, neg32_infinity, Bool.not_not, add32_infinity_self]

/-! ## Products and quotients -/

theorem mul32_of_finite32 {a b : Word} (ha : Finite32 a) (hb : Finite32 b) :
    mul32 a b =
      roundNearest (signBit a ^^ signBit b) (magnitude (absBits a) * magnitude (absBits b)) (2 ^ 149) := by
  simp only [mul32, unpack_of_finite32 ha, unpack_of_finite32 hb]

theorem isRounded_mul32 {a b : Word} (ha : Finite32 a) (hb : Finite32 b) :
    IsRounded ((val32 a : ℝ) * val32 b) (mul32 a b) := by
  have h := isRounded_roundNearest (signBit a ^^ signBit b) (magnitude (absBits a) * magnitude (absBits b))
    (q := 2 ^ 149) (by positivity)
  have hvalue : (val32 a : ℝ) * val32 b = signFactor (signBit a ^^ signBit b) *
      (((magnitude (absBits a) * magnitude (absBits b) : ℕ) : ℝ) / (2 ^ 149 : ℕ)) / 2 ^ 149 := by
    rw [val32_cast, val32_cast, signFactor_xor]
    push_cast
    ring
  rwa [hvalue, mul32_of_finite32 ha hb]

theorem div32_of_finite32 {a b : Word} (ha : Finite32 a) (hb : Finite32 b) (hne : val32 b ≠ 0) :
    div32 a b =
      roundNearest (signBit a ^^ signBit b) (magnitude (absBits a) * 2 ^ 149) (magnitude (absBits b)) := by
  simp only [div32, unpack_of_finite32 ha, unpack_of_finite32 hb, if_neg (magnitude_ne_zero_of_val32 hne)]

theorem isRounded_div32 {a b : Word} (ha : Finite32 a) (hb : Finite32 b) (hne : val32 b ≠ 0) :
    IsRounded ((val32 a : ℝ) / val32 b) (div32 a b) := by
  have hmag := magnitude_ne_zero_of_val32 hne
  have h := isRounded_roundNearest (signBit a ^^ signBit b) (magnitude (absBits a) * 2 ^ 149) (Nat.pos_of_ne_zero hmag)
  have hvalue : (val32 a : ℝ) / val32 b = signFactor (signBit a ^^ signBit b) *
      (((magnitude (absBits a) * 2 ^ 149 : ℕ) : ℝ) / magnitude (absBits b)) / 2 ^ 149 := by
    have hinv : (signFactor (signBit b))⁻¹ = signFactor (signBit b) :=
      inv_eq_of_mul_eq_one_left (signFactor_mul_self _)
    rw [val32_cast, val32_cast, signFactor_xor, div_div_div_cancel_right₀ (by positivity), mul_div_mul_comm,
      div_eq_mul_inv (signFactor _), hinv]
    push_cast
    ring
  rwa [hvalue, div32_of_finite32 ha hb hne]

/-- A pattern that is no NaN and no zero is an infinity or a non-zero number of units. -/
theorem unpack_of_ne_zero {b : Word} (hnan : isNaN32 b = false) (hzero : absBits b ≠ 0) :
    unpack b = .inf (signBit b) ∨ ∃ k, k ≠ 0 ∧ unpack b = .fin (signBit b) k := by
  rw [isNaN32, decide_eq_false_iff_not, not_lt] at hnan
  rcases hnan.lt_or_eq with hfin | hinf
  · have hpos : magnitude 0 < magnitude (absBits b) := magnitude_strictMono (Nat.pos_of_ne_zero hzero)
    exact .inr ⟨_, (Nat.zero_lt_of_lt hpos).ne', unpack_of_finite32 hfin⟩
  · exact .inl (by rw [unpack, if_neg (by omega), if_pos hinf])

theorem mul32_infinity (n : Bool) {b : Word} (hnan : isNaN32 b = false) (hzero : absBits b ≠ 0) :
    mul32 (infinity n) b = infinity (n ^^ signBit b) := by
  rcases unpack_of_ne_zero hnan hzero with hb | ⟨k, hk, hb⟩
  · simp only [mul32, unpack_infinity, hb]
  · simp only [mul32, unpack_infinity, hb, if_neg hk]

/-- Settles O36: products and quotients are quotients of integers of units, rounded with the exclusive-or of the signs. -/
theorem productsAndQuotientsAreCorrectlyRounded : Obligations.ProductsAndQuotientsAreCorrectlyRounded := by
  refine ⟨fun a b ha hb => ⟨isRounded_mul32 ha hb, ?_, fun hne => ⟨isRounded_div32 ha hb hne, ?_⟩⟩, fun n b => ?_⟩
  · rw [mul32_of_finite32 ha hb, signBit_roundNearest]
  · rw [div32_of_finite32 ha hb hne, signBit_roundNearest]
  · rw [← infinity_eq, ← infinity_eq, ← zero32_eq]
    refine ⟨fun hnan hzero => ?_, fun hb => ?_⟩
    · exact ⟨mul32_infinity n hnan hzero, by rw [mul32_comm, mul32_infinity n hnan hzero]⟩
    · simp only [div32, unpack_infinity, unpack_of_finite32 hb, Bool.xor_comm n, and_self]

end Sys2Proof.Machine
end

section
/-! PROOFS. The square root is correctly rounded (40_datapath.md R120, R123): where the root of the scaled integer is
irrational, the half unit above its integer part lies on the same side of every midpoint. -/

namespace Sys2Proof.Machine

/-! ## The integer square root -/

/-- The digits found so far never exceed the root, and the digits to come never fall short of it. -/
theorem sqrtDigits_spec {n : Nat} (fuel : Nat) {r : Nat} (hlow : r * r ≤ n)
    (hhigh : n < (r + 2 ^ fuel) * (r + 2 ^ fuel)) :
    sqrtDigits n fuel r * sqrtDigits n fuel r ≤ n ∧ n < (sqrtDigits n fuel r + 1) * (sqrtDigits n fuel r + 1) := by
  induction fuel generalizing r with
  | zero => exact ⟨hlow, hhigh⟩
  | succ fuel ih =>
    rw [sqrtDigits]
    split_ifs with hbit
    · apply ih hbit
      rwa [Nat.add_assoc, ← Nat.two_mul, ← Nat.pow_succ']
    · exact ih hlow (Nat.lt_of_not_le hbit)

theorem isqrt_eq_sqrt {n : Nat} (h : n < 2 ^ 256 * 2 ^ 256) : isqrt n = Nat.sqrt n := by
  apply Nat.eq_sqrt.2
  apply sqrtDigits_spec 256 (Nat.zero_le n)
  rwa [Nat.zero_add]

/-! ## The half unit stands for the root -/

/-- From the second binade on every magnitude is even. -/
theorem two_dvd_magnitude {c : Nat} (h : 2 ^ 24 ≤ c) : 2 ∣ magnitude c := by
  rw [magnitude, if_neg (by omega)]
  exact Dvd.dvd.mul_left (dvd_pow_self 2 (by omega)) _

/-- The midpoints around a pattern of so many units are integers: a half unit and all of the open interval between its
two integers lie on the same side of each. -/
theorem RoundsTo.of_half {y : ℝ} {r b : Nat} (h : RoundsTo (((2 * r + 1 : ℕ) : ℝ) / (2 : ℕ)) b) (hr : 2 ^ 26 ≤ r)
    (hlow : (r : ℝ) < y) (hhigh : y < r + 1) : RoundsTo y b := by
  obtain ⟨hbelow, habove, -⟩ := h
  rw [Nat.cast_two, mul_div_cancel₀ _ two_ne_zero] at hbelow habove
  have habove' : 2 * r + 1 ≤ magnitude b + magnitude (b + 1) := by exact_mod_cast habove
  have hlarge : 2 ^ 24 < b := by
    by_contra hsmall
    have hself : magnitude b ≤ magnitude (2 ^ 24) := magnitude_strictMono.monotone (by omega)
    have hnext : magnitude (b + 1) ≤ magnitude (2 ^ 24 + 1) := magnitude_strictMono.monotone (by omega)
    have hvalues : magnitude (2 ^ 24) = 2 ^ 24 ∧ magnitude (2 ^ 24 + 1) = 2 ^ 24 + 2 := by decide
    omega
  have hbelow' : magnitude (b - 1) + magnitude b ≤ 2 * r + 1 := by exact_mod_cast hbelow (by omega)
  have hpred := two_dvd_magnitude (c := b - 1) (by omega)
  have hself := two_dvd_magnitude (c := b) (by omega)
  have hnext := two_dvd_magnitude (c := b + 1) (by omega)
  have hunder : ((magnitude (b - 1) + magnitude b : ℕ) : ℝ) ≤ (2 * r : ℕ) := Nat.cast_le.2 (by omega)
  have hover : ((2 * r + 2 : ℕ) : ℝ) ≤ (magnitude b + magnitude (b + 1) : ℕ) := Nat.cast_le.2 (by omega)
  push_cast at hunder hover
  exact roundsTo_of_strictlyNearest ⟨fun _ => by linarith, by linarith⟩

/-- What `sqrtFinite` rounds has the rounding of the root. -/
theorem roundsTo_sqrtFinite {k : Nat} (hpos : 0 < k) (hbound : k < 2 ^ 277) :
    RoundsTo (√((k * 2 ^ 149 : ℕ) : ℝ)) (nearestBits (if isqrt (k * 2 ^ 149) * isqrt (k * 2 ^ 149) = k * 2 ^ 149
      then 2 * isqrt (k * 2 ^ 149) else 2 * isqrt (k * 2 ^ 149) + 1) 2) := by
  rw [isqrt_eq_sqrt (by omega)]
  have hge : 2 ^ 149 ≤ k * 2 ^ 149 := Nat.le_mul_of_pos_left _ hpos
  generalize k * 2 ^ 149 = n at hge ⊢
  have hround (p : Nat) := roundsTo_nearestBits p (q := 2) two_pos
  split_ifs with hsquare
  · have hroot : √(n : ℝ) = ((2 * Nat.sqrt n : ℕ) : ℝ) / (2 : ℕ) := by
      conv_lhs => rw [← hsquare, Nat.cast_mul, Real.sqrt_mul_self (Nat.cast_nonneg _)]
      push_cast
      ring
    rw [hroot]
    exact hround _
  · apply (hround _).of_half
    · exact Nat.le_sqrt.2 (by omega)
    · rw [Real.lt_sqrt (Nat.cast_nonneg _), sq]
      exact_mod_cast lt_of_le_of_ne (Nat.sqrt_le n) hsquare
    · rw [Real.sqrt_lt' (by positivity), sq]
      exact_mod_cast Nat.lt_succ_sqrt n

theorem isRounded_sqrtFinite {k : Nat} (hpos : 0 < k) (hbound : k < 2 ^ 277) :
    IsRounded (√((k : ℝ) / 2 ^ 149)) (sqrtFinite k) := by
  have h := (roundsTo_sqrtFinite hpos hbound).isRounded false (Real.sqrt_nonneg _)
  have hunit : (0 : ℝ) ≤ 2 ^ 149 := by positivity
  have hscale : (k : ℝ) / 2 ^ 149 = ((k * 2 ^ 149 : ℕ) : ℝ) / (2 ^ 149) ^ 2 := by
    rw [sq, Nat.cast_mul, Nat.cast_pow, Nat.cast_two, mul_div_mul_right _ _ (by positivity)]
  rw [hscale, Real.sqrt_div' _ (by positivity), Real.sqrt_sq hunit]
  rwa [signFactor, if_neg Bool.false_ne_true, one_mul] at h

theorem magnitude_lt_of_finite32 {a : Word} (h : Finite32 a) : magnitude (absBits a) < 2 ^ 277 := by
  have hinf : magnitude infBits = 2 ^ 277 := by decide +kernel
  rw [← hinf]
  exact magnitude_strictMono h

/-- Settles O37: a zero is kept; a positive number of units has the rounded root of its scaled integer. -/
theorem squareRootsAreCorrectlyRounded : Obligations.SquareRootsAreCorrectlyRounded := by
  intro a ha hnonneg
  rcases Nat.eq_zero_or_pos (magnitude (absBits a)) with hzero | hpos
  · rw [val32_cast, sqrt32, unpack_of_finite32 ha, hzero, Nat.cast_zero, mul_zero, zero_div, Real.sqrt_zero]
    exact ⟨isRounded_zero32 _, signBit_zero32 _⟩
  · have hsign : signBit a = false := by
      by_contra hneg
      rw [Bool.not_eq_false] at hneg
      have hmag : (0 : ℚ) < magnitude (absBits a) := by exact_mod_cast hpos
      rw [val32, hneg, if_pos rfl, neg_one_mul, neg_div] at hnonneg
      have : 0 < (magnitude (absBits a) : ℚ) / 2 ^ 149 := by positivity
      linarith
    have hroot : sqrt32 a = sqrtFinite (magnitude (absBits a)) := by
      simp only [sqrt32, unpack_of_finite32 ha, hsign, if_neg hpos.ne', Bool.false_eq_true, if_false]
    have hvalue : (val32 a : ℝ) = magnitude (absBits a) / 2 ^ 149 := by
      rw [val32_cast, hsign, signFactor, if_neg Bool.false_ne_true, one_mul]
    rw [hroot, hvalue, hsign]
    exact ⟨isRounded_sqrtFinite hpos (magnitude_lt_of_finite32 ha), signBit_roundNearest _ _ _⟩

end Sys2Proof.Machine
end

section
/-! PROOFS. Directed rounding: `floorBits` and `ceilBits` are the patterns next to a value, those of a close lower and
upper bound enclose what lies between, and a picked neighbour lies from one to the other (40_datapath.md R132, R133). -/

namespace Sys2Proof.Machine

/-! ## The patterns next to a value -/

theorem magnitude_floorBits (p q : Nat) :
    magnitude (floorBits p q) = p / (q * 2 ^ ulpShift p q) * 2 ^ ulpShift p q :=
  magnitude_mantissa (ulpShift_spec p q).1 (ulpShift_spec p q).2.le

theorem magnitude_floorBits_succ (p q : Nat) :
    magnitude (floorBits p q + 1) = (p / (q * 2 ^ ulpShift p q) + 1) * 2 ^ ulpShift p q := by
  obtain ⟨hnormal, hm⟩ := ulpShift_spec p q
  rw [floorBits, Nat.add_assoc, magnitude_mantissa (by omega) hm]

/-- The least magnitude pattern above the value is the one after `floorBits`. -/
theorem floorBits_spec (p : Nat) {q : Nat} (hq : 0 < q) :
    (magnitude (floorBits p q) : ℝ) ≤ p / q ∧ (p : ℝ) / q < magnitude (floorBits p q + 1) := by
  obtain ⟨hhigh, hlow⟩ := natDiv_bounds p (n := q * 2 ^ ulpShift p q) (by positivity)
  rw [magnitude_floorBits, magnitude_floorBits_succ]
  have hpos : (0 : ℝ) < 2 ^ ulpShift p q := by positivity
  push_cast at hhigh hlow ⊢
  rw [← div_div] at hhigh hlow
  exact ⟨(le_div_iff₀ hpos).1 hlow, (div_lt_iff₀ hpos).1 hhigh⟩

theorem magnitude_floorBits_eq_iff (p : Nat) {q : Nat} (hq : 0 < q) :
    (magnitude (floorBits p q) : ℝ) = p / q ↔ p % (q * 2 ^ ulpShift p q) = 0 := by
  have hq' : (q : ℝ) ≠ 0 := Nat.cast_ne_zero.2 hq.ne'
  rw [magnitude_floorBits, eq_div_iff hq', ← Nat.cast_mul, Nat.cast_inj, mul_assoc, mul_comm (2 ^ _),
    ← Nat.dvd_iff_mod_eq_zero, ← Nat.dvd_iff_div_mul_eq]

theorem ceilBits_spec (p : Nat) {q : Nat} (hq : 0 < q) :
    (p : ℝ) / q ≤ magnitude (ceilBits p q) ∧
      (ceilBits p q ≠ 0 → (magnitude (ceilBits p q - 1) : ℝ) < p / q) := by
  obtain ⟨hlow, hhigh⟩ := floorBits_spec p hq
  rw [ceilBits]
  split_ifs with hexact <;> rw [← magnitude_floorBits_eq_iff p hq] at hexact
  · rw [← hexact]
    exact ⟨le_rfl, fun hne => magnitude_cast_strictMono (by omega)⟩
  · rw [Nat.add_sub_cancel]
    exact ⟨hhigh.le, fun _ => hlow.lt_of_ne hexact⟩

/-- The gap to the next magnitude is more than 2^-24 of the magnitude. -/
theorem magnitude_gap (b : Nat) : (magnitude b : ℝ) < 2 ^ 24 * (magnitude (b + 1) - magnitude b) := by
  obtain ⟨t, m, rfl, hnormal, hm⟩ := exists_mantissa b
  rw [Nat.add_assoc, magnitude_mantissa hnormal hm.le, magnitude_mantissa (by omega) hm]
  have hm' : (m : ℝ) < 2 ^ 24 := by exact_mod_cast hm
  have hpos : (0 : ℝ) < 2 ^ t := by positivity
  push_cast
  nlinarith

/-! ## Enclosures -/

/-- The magnitude patterns `lo` and `hi` lie on both sides of `y` units, next to each other or with one pattern between,
which then is within a relative 2^-200. -/
structure Encloses (y : ℝ) (lo hi : Nat) : Prop where
  low_le : (magnitude lo : ℝ) ≤ y
  le_high : y ≤ magnitude hi
  adjacent : hi = lo + 1 ∨ hi = lo + 2
  between : hi = lo + 2 → |(magnitude (lo + 1) : ℝ) - y| ≤ y / 2 ^ 200

/-- A lower bound rounded down and an upper bound rounded up enclose the value, when the bounds are closer than any two
patterns there. -/
theorem encloses_of_bounds {p q p' q' : Nat} {y : ℝ} (hq : 0 < q) (hq' : 0 < q') (hlow : (p : ℝ) / q ≤ y)
    (hhigh : y ≤ p' / q') (hlt : (p : ℝ) / q < p' / q') (hclose : (p' : ℝ) / q' ≤ p / q * (1 + 1 / 2 ^ 200)) :
    Encloses y (floorBits p q) (ceilBits p' q') := by
  obtain ⟨hfloor, hfloor'⟩ := floorBits_spec p hq
  obtain ⟨hceil, hceil'⟩ := ceilBits_spec p' hq'
  generalize floorBits p q = lo at *
  generalize ceilBits p' q' = hi at *
  generalize (p : ℝ) / q = low at *
  generalize (p' : ℝ) / q' = high at *
  have horder : lo < hi := magnitude_cast_strictMono.lt_iff_lt.1 ((hfloor.trans_lt hlt).trans_le hceil)
  have hpred := hceil' (by omega)
  have hadjacent : hi = lo + 1 ∨ hi = lo + 2 := by
    by_contra hfar
    have htwo : (magnitude (lo + 1 + 1) : ℝ) ≤ magnitude (hi - 1) := magnitude_cast_strictMono.monotone (by omega)
    have hgap := magnitude_gap (lo + 1)
    linarith
  refine ⟨hfloor.trans hlow, hhigh.trans hceil, hadjacent, fun htwo => ?_⟩
  rw [show hi - 1 = lo + 1 by omega] at hpred
  rw [abs_le]
  constructor <;> linarith

/-! ## The value of a pattern and the picked neighbour -/

theorem val32_withSign_false {b : Nat} (hb : b < 2 ^ 31) : (val32 (withSign false b) : ℝ) = magnitude b / 2 ^ 149 := by
  rw [val32_cast, signBit_withSign false hb, absBits_withSign false hb, signFactor, if_neg Bool.false_ne_true, one_mul]

/-- A picked neighbour is a pattern from the lower bound to the upper one, without a sign. -/
theorem exists_pickNeighbour_eq (pick : Neighbour) {below above : Nat} (h : below ≤ above) :
    ∃ b, below ≤ b ∧ b ≤ above ∧ pickNeighbour pick below above = withSign false b := by
  cases pick
  case below => exact ⟨below, le_rfl, h, rfl⟩
  case between => exact ⟨(below + above) / 2, by omega, by omega, rfl⟩
  case above => exact ⟨above, h, le_rfl, rfl⟩

end Sys2Proof.Machine
end

section
/-! PROOFS. `EXP_F` (40_datapath.md R132): the fixed-point series and the squarings bound `e^x` from both sides, so
closely that the patterns around the bounds enclose it. -/

namespace Sys2Proof.Machine

open scoped Nat

/-! ## The exponential series -/

/-- The sum of `n` terms of the exponential series from degree `i`, relative to the first of them. -/
noncomputable def expPartial (x : ℝ) : ℕ → ℕ → ℝ
  | 0, _ => 0
  | n + 1, i => 1 + x / (i + 1) * expPartial x n (i + 1)

theorem expPartial_nonneg {x : ℝ} (hx : 0 ≤ x) (n i : ℕ) : 0 ≤ expPartial x n i := by
  induction n generalizing i with
  | zero => exact le_rfl
  | succ n ih =>
    have := ih (i + 1)
    rw [expPartial]
    positivity

theorem expPartial_le_two {x : ℝ} (hx : 0 ≤ x) (hx1 : x ≤ 1) (n i : ℕ) : expPartial x n (i + 1) ≤ 2 := by
  induction n generalizing i with
  | zero => exact zero_le_two
  | succ n ih =>
    have hi : (0 : ℝ) ≤ i := Nat.cast_nonneg i
    have hratio : x / ((i + 1 : ℕ) + 1) ≤ 1 / 2 := by
      rw [div_le_div_iff₀ (by positivity) two_pos]
      push_cast
      linarith
    rw [expPartial]
    nlinarith [ih (i + 1), expPartial_nonneg hx n (i + 1 + 1)]

theorem expPartial_eq_sum (x : ℝ) (n i : ℕ) :
    x ^ i / i ! * expPartial x n i = ∑ j ∈ Finset.range n, x ^ (i + j) / (i + j)! := by
  induction n generalizing i with
  | zero => rw [expPartial, mul_zero, Finset.sum_range_zero]
  | succ n ih =>
    have hnext : x ^ i / i ! * (x / (i + 1)) = x ^ (i + 1) / (i + 1)! := by
      rw [Nat.factorial_succ, pow_succ]
      push_cast
      field_simp
    rw [expPartial, Finset.sum_range_succ', mul_add, mul_one, ← mul_assoc, hnext, ih, Nat.add_zero, add_comm]
    simp only [Nat.add_assoc, Nat.add_comm 1, Nat.add_zero]

/-- The terms rounded down lose less than two units each. -/
theorem expSeries_bounds {z : ℕ} (hz : z ≤ 2 ^ 256) (n i t : ℕ) :
    (expSeries z n i t : ℝ) ≤ t * expPartial (z / 2 ^ 256) n i ∧
      t * expPartial (z / 2 ^ 256) n i ≤ expSeries z n i t + 2 * n := by
  have hx : (0 : ℝ) ≤ z / 2 ^ 256 := by positivity
  have hx1 : (z : ℝ) / 2 ^ 256 ≤ 1 := by
    rw [div_le_one (by positivity)]
    exact_mod_cast hz
  induction n generalizing i t with
  | zero => simp [expSeries, expPartial]
  | succ n ih =>
    obtain ⟨hlow, hhigh⟩ := ih (i + 1) (t * z / 2 ^ 256 / (i + 1))
    obtain ⟨hfloor, hfloor'⟩ := natDiv_bounds (t * z) (n := 2 ^ 256 * (i + 1)) (by positivity)
    have htwo := expPartial_le_two hx hx1 n i
    have hnonneg := expPartial_nonneg hx n (i + 1)
    have hterm : ((t * z : ℕ) : ℝ) / (2 ^ 256 * (i + 1) : ℕ) = t * ((z / 2 ^ 256) / (i + 1)) := by
      rw [div_div, ← mul_div_assoc, Nat.cast_mul, Nat.cast_mul, Nat.cast_pow, Nat.cast_ofNat, Nat.cast_succ]
    rw [hterm, ← Nat.div_div_eq_div_mul] at hfloor hfloor'
    rw [expSeries, expPartial]
    rw [Nat.cast_add, Nat.cast_succ, mul_add, mul_one, ← mul_assoc]
    have hround := mul_le_mul_of_nonneg_right hfloor' hnonneg
    have hround' := mul_le_mul_of_nonneg_right hfloor.le hnonneg
    rw [add_mul, one_mul] at hround'
    constructor <;> linarith

/-- 60 terms at 256 fraction bits, as `expLow` takes them. -/
theorem expSeries_sixty_bounds {z : ℕ} (hz : z ≤ 2 ^ 256) :
    (expSeries z 60 0 (2 ^ 256) : ℝ) ≤ 2 ^ 256 * Real.exp (z / 2 ^ 256) ∧
      2 ^ 256 * Real.exp (z / 2 ^ 256) ≤ (expSeries z 60 0 (2 ^ 256) + 256 : ℕ) := by
  have hx : (0 : ℝ) ≤ z / 2 ^ 256 := by positivity
  have hx1 : (z : ℝ) / 2 ^ 256 ≤ 1 := by
    rw [div_le_one (by positivity)]
    exact_mod_cast hz
  obtain ⟨hlow, hhigh⟩ := expSeries_bounds hz 60 0 (2 ^ 256)
  have hsum := expPartial_eq_sum (z / 2 ^ 256) 60 0
  simp only [pow_zero, Nat.factorial_zero, Nat.cast_one, div_one, one_mul, Nat.zero_add] at hsum
  have hexp := Real.sum_le_exp_of_nonneg hx 60
  have hexp' := Real.exp_bound' hx hx1 (n := 60) (by norm_num)
  have htail : ((z : ℝ) / 2 ^ 256) ^ 60 * ((60 : ℕ) + 1) / ((60 : ℕ)! * (60 : ℕ)) ≤ 1 / 2 ^ 256 := by
    have hpow : ((z : ℝ) / 2 ^ 256) ^ 60 ≤ 1 := pow_le_one₀ hx hx1
    calc _ ≤ 1 * (((60 : ℕ) : ℝ) + 1) / ((60 : ℕ)! * (60 : ℕ)) := by gcongr
      _ ≤ 1 / 2 ^ 256 := by norm_num [Nat.factorial]
  rw [← hsum] at hexp hexp'
  push_cast at hlow hhigh ⊢
  constructor
  · nlinarith
  · nlinarith

theorem le_expSeries (z n i t : ℕ) : t ≤ expSeries z (n + 1) i t := Nat.le_add_right _ _

/-! ## The squarings -/

theorem squareDown_le (n : ℕ) {v : ℕ} {y : ℝ} (h : (v : ℝ) ≤ 2 ^ 256 * y) :
    (squareDown n v : ℝ) ≤ 2 ^ 256 * y ^ 2 ^ n := by
  induction n generalizing v y with
  | zero => simpa [squareDown] using h
  | succ n ih =>
    obtain ⟨-, hfloor⟩ := natDiv_bounds (v * v) (n := 2 ^ 256) (by positivity)
    have hsquare : (v : ℝ) * v ≤ 2 ^ 256 * y * (2 ^ 256 * y) := mul_self_le_mul_self (Nat.cast_nonneg v) h
    rw [squareDown, pow_succ' 2 n, pow_mul]
    apply ih
    rw [Nat.cast_mul, Nat.cast_pow, Nat.cast_ofNat, le_div_iff₀ (by positivity)] at hfloor
    nlinarith

theorem le_squareUp (n : ℕ) {v : ℕ} {y : ℝ} (hy : 0 ≤ y) (h : 2 ^ 256 * y ≤ v) :
    2 ^ 256 * y ^ 2 ^ n ≤ (squareUp n v : ℝ) := by
  induction n generalizing v y with
  | zero => simpa [squareUp] using h
  | succ n ih =>
    obtain ⟨hfloor, -⟩ := natDiv_bounds (v * v) (n := 2 ^ 256) (by positivity)
    have hsquare : 2 ^ 256 * y * (2 ^ 256 * y) ≤ v * v := mul_self_le_mul_self (by positivity) h
    rw [squareUp, pow_succ' 2 n, pow_mul]
    apply ih (by positivity)
    rw [Nat.cast_mul, Nat.cast_pow, Nat.cast_ofNat, div_lt_iff₀ (by positivity)] at hfloor
    rw [Nat.cast_succ]
    nlinarith

/-- A squaring at most quadruples the relative distance of the two bounds, as long as a unit is small against it. -/
theorem squareUp_le_squareDown (n : ℕ) {a b : ℕ} {e : ℝ} (ha : 2 ^ 256 ≤ a) (hab : a < b)
    (hb : (b : ℝ) ≤ a * (1 + e)) (he : 3 / 2 ^ 256 ≤ e) (hsmall : 4 ^ n * e ≤ 1) :
    2 ^ 256 ≤ squareDown n a ∧ squareDown n a < squareUp n b ∧
      (squareUp n b : ℝ) ≤ squareDown n a * (1 + 4 ^ n * e) := by
  induction n generalizing a b e with
  | zero => exact ⟨ha, hab, by simpa [squareUp, squareDown] using hb⟩
  | succ n ih =>
    have he0 : 0 ≤ e := le_trans (by positivity) he
    have hquarter : e ≤ 1 / 4 := by
      have hpow : (4 : ℝ) ≤ 4 ^ (n + 1) := le_self_pow₀ (by norm_num) (by omega)
      nlinarith
    have hlarge : 2 ^ 256 ≤ a * a / 2 ^ 256 := by
      rw [Nat.le_div_iff_mul_le (by positivity)]
      exact Nat.mul_le_mul ha ha
    have hlarge' : (2 : ℝ) ^ 256 ≤ (a * a / 2 ^ 256 : ℕ) := by exact_mod_cast hlarge
    have horder : a * a / 2 ^ 256 < b * b / 2 ^ 256 + 1 :=
      Nat.lt_succ_of_le (Nat.div_le_div_right (Nat.mul_le_mul hab.le hab.le))
    obtain ⟨hdown, -⟩ := natDiv_bounds (a * a) (n := 2 ^ 256) (by positivity)
    obtain ⟨-, hup⟩ := natDiv_bounds (b * b) (n := 2 ^ 256) (by positivity)
    have hsquare : (b : ℝ) * b ≤ a * (1 + e) * (a * (1 + e)) := mul_self_le_mul_self (Nat.cast_nonneg b) hb
    have hclose : ((b * b / 2 ^ 256 + 1 : ℕ) : ℝ) ≤ (a * a / 2 ^ 256 : ℕ) * (1 + 4 * e) := by
      rw [Nat.cast_mul, Nat.cast_pow, Nat.cast_ofNat, div_lt_iff₀ (by positivity)] at hdown
      rw [Nat.cast_mul, Nat.cast_pow, Nat.cast_ofNat, le_div_iff₀ (by positivity)] at hup
      rw [Nat.cast_succ]
      rw [div_le_iff₀ (by positivity)] at he
      have hratio : ((b * b / 2 ^ 256 : ℕ) : ℝ) ≤ ((a * a / 2 ^ 256 : ℕ) + 1) * (1 + e) ^ 2 := by
        have hscale := mul_le_mul_of_nonneg_right hdown.le (sq_nonneg (1 + e))
        refine le_of_mul_le_mul_right ?_ (by positivity : (0 : ℝ) < 2 ^ 256)
        linarith
      have hunits := mul_le_mul_of_nonneg_right hlarge' he0
      nlinarith
    rw [squareDown, squareUp, pow_succ (4 : ℝ), mul_assoc]
    exact ih hlarge horder hclose (he.trans (by linarith)) (by rwa [← mul_assoc, ← pow_succ])

/-! ## The bounds of `e^y` for `y` up to 104 -/

section Bounds

variable {k : ℕ} (hk : k ≤ expLimit)
include hk

theorem scaled_le : k * 2 ^ 100 ≤ 2 ^ 256 := by
  unfold expLimit at hk
  omega

omit hk in
/-- `e^y` is `e^(y/128)` squared seven times. -/
theorem exp_eq_pow (k : ℕ) : Real.exp (k / 2 ^ 149) = Real.exp ((k * 2 ^ 100 : ℕ) / 2 ^ 256) ^ 2 ^ 7 := by
  rw [← Real.exp_nat_mul]
  congr 1
  rw [Nat.cast_mul, Nat.cast_pow, Nat.cast_ofNat]
  norm_num
  ring

theorem expLow_le : (expLow k : ℝ) ≤ 2 ^ 256 * Real.exp (k / 2 ^ 149) := by
  rw [exp_eq_pow]
  exact squareDown_le 7 (expSeries_sixty_bounds (scaled_le hk)).1

theorem le_expHigh : 2 ^ 256 * Real.exp (k / 2 ^ 149) ≤ expHigh k := by
  rw [exp_eq_pow]
  exact le_squareUp 7 (Real.exp_pos _).le (expSeries_sixty_bounds (scaled_le hk)).2

omit hk in
/-- The two bounds differ by less than a relative 2^-200. -/
theorem expHigh_close (k : ℕ) :
    2 ^ 256 ≤ expLow k ∧ expLow k < expHigh k ∧ (expHigh k : ℝ) ≤ expLow k * (1 + 1 / 2 ^ 200) := by
  have hlarge : 2 ^ 256 ≤ expSeries (k * 2 ^ 100) 60 0 (2 ^ 256) := le_expSeries _ 59 0 _
  have hlarge' : (2 : ℝ) ^ 256 ≤ expSeries (k * 2 ^ 100) 60 0 (2 ^ 256) := by exact_mod_cast hlarge
  have hgap : ((expSeries (k * 2 ^ 100) 60 0 (2 ^ 256) + 256 : ℕ) : ℝ) ≤
      expSeries (k * 2 ^ 100) 60 0 (2 ^ 256) * (1 + 256 / 2 ^ 256) := by
    rw [Nat.cast_add, Nat.cast_ofNat, mul_add, mul_one, add_le_add_iff_left, ← mul_div_assoc,
      le_div_iff₀ (by positivity), mul_comm]
    exact mul_le_mul_of_nonneg_right hlarge' (by norm_num)
  obtain ⟨hlow, horder, hclose⟩ :=
    squareUp_le_squareDown 7 hlarge (Nat.lt_add_of_pos_right (by norm_num)) hgap (by norm_num) (by norm_num)
  refine ⟨hlow, horder, hclose.trans (mul_le_mul_of_nonneg_left ?_ (Nat.cast_nonneg _))⟩
  norm_num

/-- Rounded down and up, the bounds enclose `e^y` in units. -/
theorem encloses_exp :
    Encloses (2 ^ 149 * Real.exp (k / 2 ^ 149)) (floorBits (expLow k) (2 ^ 107)) (ceilBits (expHigh k) (2 ^ 107)) := by
  obtain ⟨-, horder, hclose⟩ := expHigh_close k
  have hlow := expLow_le hk
  have hhigh := le_expHigh hk
  have hscale : ((2 ^ 107 : ℕ) : ℝ) = 2 ^ 107 := by rw [Nat.cast_pow, Nat.cast_ofNat]
  have hpos : (0 : ℝ) < 2 ^ 107 := by positivity
  apply encloses_of_bounds (by positivity) (by positivity) <;> rw [hscale]
  · rw [div_le_iff₀ hpos]
    linarith
  · rw [le_div_iff₀ hpos]
    linarith
  · exact div_lt_div_of_pos_right (by exact_mod_cast horder) hpos
  · rw [div_mul_eq_mul_div]
    exact div_le_div_of_nonneg_right hclose hpos.le

/-- Their reciprocals enclose `e^-y`. -/
theorem encloses_exp_neg :
    Encloses (2 ^ 149 * Real.exp (-(k / 2 ^ 149))) (floorBits (2 ^ 405) (expHigh k)) (ceilBits (2 ^ 405) (expLow k)) := by
  obtain ⟨hlarge, horder, hclose⟩ := expHigh_close k
  have hlow := expLow_le hk
  have hhigh := le_expHigh hk
  have hscale : ((2 ^ 405 : ℕ) : ℝ) = 2 ^ 149 * 2 ^ 256 := by rw [Nat.cast_pow, Nat.cast_ofNat, ← pow_add]
  have hlow0 : 0 < expLow k := (Nat.two_pow_pos 256).trans_le hlarge
  have hlow' : (0 : ℝ) < expLow k := Nat.cast_pos.2 hlow0
  have hhigh' : (0 : ℝ) < expHigh k := Nat.cast_pos.2 (hlow0.trans horder)
  have hexp := Real.exp_pos ((k : ℝ) / 2 ^ 149)
  rw [Real.exp_neg, ← div_eq_mul_inv]
  apply encloses_of_bounds (hlow0.trans horder) hlow0 <;> rw [hscale]
  · rw [div_le_div_iff₀ hhigh' hexp]
    nlinarith
  · rw [div_le_div_iff₀ hexp hlow']
    nlinarith
  · exact div_lt_div_of_pos_left (by positivity) hlow' (by exact_mod_cast horder)
  · rw [div_mul_eq_mul_div, div_le_div_iff₀ hlow' hhigh']
    nlinarith

end Bounds

/-! ## The patterns around `e^x`, with the range of binary32 -/

/-- `Encloses` with the upper pattern +inf where no finite value is above. -/
structure EnclosesUpToInf (y : ℝ) (lo hi : ℕ) : Prop where
  high_le : hi ≤ infBits
  low_le : (magnitude lo : ℝ) ≤ y
  le_high : hi = infBits ∨ y ≤ magnitude hi
  adjacent : hi = lo + 1 ∨ hi = lo + 2
  between : hi = lo + 2 → |(magnitude (lo + 1) : ℝ) - y| ≤ y / 2 ^ 200

theorem infBits_eq : infBits = maxFiniteBits + 1 := rfl

theorem Encloses.upToInf {y : ℝ} {lo hi : ℕ} (h : Encloses y lo hi) :
    EnclosesUpToInf y (min lo maxFiniteBits) (min hi infBits) := by
  obtain ⟨hlow, hhigh, hadjacent, hbetween⟩ := h
  have hmono := magnitude_cast_strictMono.monotone (min_le_left lo maxFiniteBits)
  have hinf := infBits_eq
  refine ⟨min_le_right _ _, hmono.trans hlow, ?_, by omega, fun htwo => ?_⟩
  · rcases le_total infBits hi with hle | hle
    · exact .inl (min_eq_right hle)
    · exact .inr (by rwa [min_eq_left hle])
  · rw [min_eq_left (by omega)]
    exact hbetween (by omega)

theorem two_pow_le_exp {y : ℝ} (hy : 104 ≤ y) : 2 ^ 149 ≤ Real.exp y := by
  have hone : (2.7 : ℝ) ≤ Real.exp 1 := by linarith [Real.exp_one_gt_d9]
  calc (2 : ℝ) ^ 149 ≤ 2.7 ^ 104 := by norm_num
    _ ≤ Real.exp 1 ^ 104 := pow_le_pow_left₀ (by norm_num) hone 104
    _ = Real.exp 104 := by
      rw [← Real.exp_nat_mul]
      norm_num
    _ ≤ Real.exp y := Real.exp_le_exp.2 hy

theorem limit_lt_of_expLimit_lt {k : ℕ} (h : expLimit < k) : 104 ≤ (k : ℝ) / 2 ^ 149 := by
  rw [le_div_iff₀ (by positivity)]
  exact_mod_cast h.le

theorem enclosesUpToInf_exp (k : ℕ) :
    EnclosesUpToInf (2 ^ 149 * Real.exp (k / 2 ^ 149)) (expBelow false k) (expAbove false k) := by
  simp only [expBelow, expAbove, Bool.false_eq_true, if_false]
  split_ifs with hlimit
  · have hlarge := two_pow_le_exp (limit_lt_of_expLimit_lt hlimit)
    refine ⟨le_rfl, ?_, .inl rfl, .inl rfl, fun h => absurd h (by decide)⟩
    have hmax : magnitude maxFiniteBits ≤ 2 ^ 149 * 2 ^ 149 := by decide +kernel
    calc (magnitude maxFiniteBits : ℝ) ≤ 2 ^ 149 * 2 ^ 149 := by exact_mod_cast hmax
      _ ≤ 2 ^ 149 * Real.exp (k / 2 ^ 149) := mul_le_mul_of_nonneg_left hlarge (by positivity)
  · exact (encloses_exp (not_lt.1 hlimit)).upToInf

/-- The upper pattern of a reciprocal is at most that of one. -/
theorem ceilBits_expLow_le (k : ℕ) : ceilBits (2 ^ 405) (expLow k) ≤ 0x3F800000 := by
  obtain ⟨hlarge, -, -⟩ := expHigh_close k
  have hpos : 0 < expLow k := (Nat.two_pow_pos 256).trans_le hlarge
  obtain ⟨-, hpred⟩ := ceilBits_spec (2 ^ 405) hpos
  by_contra hbig
  have hone : (magnitude 0x3F800000 : ℝ) ≤ magnitude (ceilBits (2 ^ 405) (expLow k) - 1) :=
    magnitude_cast_strictMono.monotone (by omega)
  have hquotient : ((2 ^ 405 : ℕ) : ℝ) / expLow k ≤ 2 ^ 149 := by
    have hlarge' : (2 : ℝ) ^ 256 ≤ expLow k := by exact_mod_cast hlarge
    rw [div_le_iff₀ (Nat.cast_pos.2 hpos), Nat.cast_pow, Nat.cast_ofNat, show 405 = 149 + 256 from rfl, pow_add]
    exact mul_le_mul_of_nonneg_left hlarge' (by positivity)
  rw [magnitude_one32, Nat.cast_pow, Nat.cast_ofNat] at hone
  linarith [hpred (by omega)]

theorem enclosesUpToInf_exp_neg (k : ℕ) :
    EnclosesUpToInf (2 ^ 149 * Real.exp (-(k / 2 ^ 149))) (expBelow true k) (expAbove true k) := by
  simp only [expBelow, expAbove, if_true]
  split_ifs with hlimit
  · have hlarge := two_pow_le_exp (limit_lt_of_expLimit_lt hlimit)
    refine ⟨by decide, ?_, .inr ?_, .inl rfl, fun h => absurd h (by decide)⟩
    · have hzero : (magnitude 0 : ℝ) = 0 := Nat.cast_zero
      rw [hzero]
      positivity
    · have hone : (magnitude 1 : ℝ) = 1 := Nat.cast_one
      rw [hone, Real.exp_neg, ← div_eq_mul_inv, div_le_one (Real.exp_pos _)]
      exact hlarge
  · have henclosed := encloses_exp_neg (not_lt.1 hlimit)
    have hbound := ceilBits_expLow_le k
    have hadjacent := henclosed.adjacent
    have h := henclosed.upToInf
    rwa [min_eq_left (by unfold maxFiniteBits; omega), min_eq_left (by unfold infBits; omega)] at h

/-- The computed patterns enclose `e^x`, for `x` of either sign. -/
theorem enclosesUpToInf_signed (neg : Bool) (k : ℕ) :
    EnclosesUpToInf (2 ^ 149 * Real.exp (signFactor neg * k / 2 ^ 149)) (expBelow neg k) (expAbove neg k) := by
  rcases signFactor_cases neg with ⟨hsign, rfl⟩ | ⟨hsign, rfl⟩ <;> rw [hsign]
  · rw [one_mul]
    exact enclosesUpToInf_exp k
  · rw [neg_one_mul, neg_div]
    exact enclosesUpToInf_exp_neg k

/-! ## The unit -/

/-- Away from its fixed operands `EXP_F` is a pattern from the lower bound to the upper one, or +0.0 where the upper
bound is not above the least normal value. -/
theorem expF_cases {x : Word} (hx : Finite32 x) (hne : val32 x ≠ 0) :
    (∃ b, expBelow (signBit x) (magnitude (absBits x)) ≤ b ∧ b ≤ expAbove (signBit x) (magnitude (absBits x)) ∧
        expF x = withSign false b) ∨
      (expF x = posZero ∧ expAbove (signBit x) (magnitude (absBits x)) ≤ minNormalBits) := by
  have hadjacent := (enclosesUpToInf_signed (signBit x) (magnitude (absBits x))).adjacent
  simp only [expF, unpack_of_finite32 hx, if_neg (magnitude_ne_zero_of_val32 hne)]
  split_ifs with hflush
  · exact .inr ⟨rfl, hflush.1⟩
  · exact .inl (exists_pickNeighbour_eq _ (by omega))

/-- Settles O46: the computed patterns enclose `e^x`, and the unit picks from them or flushes to +0.0. -/
theorem exponentialUnitIsEnclosed : Obligations.ExponentialUnitIsEnclosed := by
  refine ⟨by decide, by decide, by decide, by decide, fun x hx => ?_, fun x hx hne => ?_⟩
  · simp only [expF, unpack_of_isNaN32 hx, canonicalNaN]
  have hcases := expF_cases hx hne
  obtain ⟨hinf, hlow, hhigh, hadjacent, hbetween⟩ := enclosesUpToInf_signed (signBit x) (magnitude (absBits x))
  rw [← val32_cast] at hlow hhigh hbetween
  generalize expBelow (signBit x) (magnitude (absBits x)) = below at *
  generalize expAbove (signBit x) (magnitude (absBits x)) = above at *
  generalize Real.exp (val32 x) = exact at *
  have hunit : (0 : ℝ) < 2 ^ 149 := by positivity
  have hbound : above < 2 ^ 31 := hinf.trans_lt infBits_lt
  dsimp only
  rw [val32_withSign_false (by omega : below < 2 ^ 31), val32_withSign_false hbound]
  have hupper : above = infBits ∨ exact ≤ magnitude above / 2 ^ 149 :=
    hhigh.imp_right fun h => (le_div_iff₀' hunit).2 h
  refine ⟨?_, hinf, hadjacent, (div_le_iff₀' hunit).2 hlow, hupper, fun htwo => ?_, ?_⟩
  · rcases hcases with ⟨b, -, hb, hexp⟩ | ⟨hexp, -⟩ <;> rw [hexp]
    · exact signBit_withSign false (by omega)
    · decide
  · rw [val32_withSign_false (by omega), div_sub' hunit.ne', abs_div, abs_of_pos hunit, div_le_iff₀' hunit,
      ← mul_div_assoc]
    exact hbetween htwo
  · rcases hcases with ⟨b, hb, hb', hexp⟩ | ⟨hexp, hsmall⟩
    · rw [hexp, toNat_withSign false (by omega)]
      exact .inl ⟨hb, hb'⟩
    · have hmin : (magnitude minNormalBits : ℝ) = 2 ^ 23 := by
        have : magnitude minNormalBits = 2 ^ 23 := by decide
        exact_mod_cast this
      have hmono : (magnitude above : ℝ) ≤ magnitude minNormalBits := magnitude_cast_strictMono.monotone hsmall
      have hfinite := hupper.resolve_left (by unfold minNormalBits at hsmall; unfold infBits; omega)
      refine .inr ⟨hexp, hfinite.trans ?_⟩
      rw [div_le_div_iff₀ hunit (by positivity), one_mul, show 149 = 23 + 126 from rfl, pow_add]
      exact mul_le_mul_of_nonneg_right (hmono.trans_eq hmin) (by positivity)

end Sys2Proof.Machine
end

section
/-! PROOFS. The cosine in fixed point up to angles beyond π (log entry 9): as for the twiddle ROM, with a bound on the
terms that allows the first of them to grow. -/

namespace Sys2Proof.Machine

open scoped Nat

/-! ## The series for a square of the angle up to 12 -/

/-- `nextTerm_bounds` for terms up to the product by which the next one is divided. -/
theorem nextTerm_bounds_wide {f d t : ℕ} (a : ℕ) (ht : t ≤ 2 ^ f * ((d + 1) * (d + 2))) :
    (nextTerm f a d t : ℝ) ≤ t * (((a : ℝ) / 2 ^ f) ^ 2 / ((d + 1) * (d + 2))) ∧
      t * (((a : ℝ) / 2 ^ f) ^ 2 / ((d + 1) * (d + 2))) ≤ nextTerm f a d t + 2 := by
  obtain ⟨hsquare, hsquare'⟩ := natDiv_bounds (a * a) (n := 2 ^ f) (by positivity)
  obtain ⟨hterm, hterm'⟩ :=
    natDiv_bounds (t * (a * a / 2 ^ f)) (n := 2 ^ f * ((d + 1) * (d + 2))) (by positivity)
  rw [nextTerm, Nat.div_div_eq_div_mul]
  push_cast at hsquare hsquare' hterm hterm'
  have hratio : (0 : ℝ) ≤ t / (2 ^ f * ((d + 1) * (d + 2))) := by positivity
  have hratio' : (t : ℝ) / (2 ^ f * ((d + 1) * (d + 2))) ≤ 1 := by
    rw [div_le_one (by positivity)]
    exact_mod_cast ht
  have hexact : (t : ℝ) * (((a : ℝ) / 2 ^ f) ^ 2 / ((d + 1) * (d + 2))) =
      t / (2 ^ f * ((d + 1) * (d + 2))) * (a * a / 2 ^ f) := by
    field_simp
  rw [mul_div_right_comm] at hterm hterm'
  rw [hexact]
  constructor
  · exact hterm'.trans (mul_le_mul_of_nonneg_left hsquare' hratio)
  · have hgap := mul_le_mul_of_nonneg_left hsquare.le hratio
    linarith

section WideAngle

variable {f a : ℕ} (ha : ((a : ℝ) / 2 ^ f) ^ 2 ≤ 12)
include ha

theorem nextTerm_le_twelfth {d t : ℕ} (ht : t ≤ 2 ^ f * ((d + 1) * (d + 2))) :
    (nextTerm f a d t : ℝ) ≤ t * (12 / ((d + 1) * (d + 2))) :=
  (nextTerm_bounds_wide a ht).1.trans
    (mul_le_mul_of_nonneg_left (div_le_div_of_nonneg_right ha (by positivity)) (Nat.cast_nonneg t))

/-- The bound on the terms is kept: after a growth by 12 / 2 at most it has grown by 12 / 2 itself. -/
theorem nextTerm_le_wide {d t : ℕ} (ht : t ≤ 2 ^ f * ((d + 1) * (d + 2))) :
    nextTerm f a d t ≤ 2 ^ f * ((d + 2 + 1) * (d + 2 + 2)) := by
  have htc : (t : ℝ) ≤ 2 ^ f * ((d + 1) * (d + 2)) := by exact_mod_cast ht
  have hbound : (nextTerm f a d t : ℝ) ≤ 2 ^ f * 12 := by
    calc (nextTerm f a d t : ℝ) ≤ t * (12 / ((d + 1) * (d + 2))) := nextTerm_le_twelfth ha ht
      _ ≤ 2 ^ f * ((d + 1) * (d + 2)) * (12 / ((d + 1) * (d + 2))) := mul_le_mul_of_nonneg_right htc (by positivity)
      _ = 2 ^ f * 12 := by field_simp
  have hbound' : nextTerm f a d t ≤ 2 ^ f * 12 := by exact_mod_cast hbound
  exact hbound'.trans (Nat.mul_le_mul_left _ (Nat.mul_le_mul (by omega : 3 ≤ d + 2 + 1) (by omega : 4 ≤ d + 2 + 2)))

/-- The error of `n` terms from the term `t` of degree `d`: two units a term and the first term left out, each times a
bound on the tails. -/
theorem abs_alternatingSeries_sub_le_wide (n : ℕ) {d t : ℕ} (ht : t ≤ 2 ^ f * ((d + 1) * (d + 2))) :
    |(alternatingSeries f (a * a / 2 ^ f) n d t : ℝ) - t * seriesTail (a / 2 ^ f) d| ≤
      Real.cosh (a / 2 ^ f) * (2 * n + t * 12 ^ n * ((d ! : ℝ) / (d + 2 * n)!)) := by
  induction n generalizing d t with
  | zero =>
    have htail := mul_le_mul_of_nonneg_left (abs_seriesTail_le ((a : ℝ) / 2 ^ f) d) (Nat.cast_nonneg t)
    have hratio : (d ! : ℝ) / (d + 2 * 0)! = 1 := div_self (by positivity)
    rw [hratio, alternatingSeries, Int.cast_zero, zero_sub, abs_neg, abs_mul, Nat.abs_cast]
    linarith
  | succ n ih =>
    have hinduction := ih (nextTerm_le_wide ha ht)
    obtain ⟨hnext, hnext'⟩ := nextTerm_bounds_wide a ht
    have htwelfth := nextTerm_le_twelfth ha ht
    have htail := abs_seriesTail_le ((a : ℝ) / 2 ^ f) (d + 2)
    rw [alternatingSeries_succ, seriesTail_eq]
    generalize (a : ℝ) / 2 ^ f = x at *
    generalize nextTerm f a d t = next at *
    have hround : |((next : ℝ) - t * (x ^ 2 / ((d + 1) * (d + 2)))) * seriesTail x (d + 2)| ≤ 2 * Real.cosh x := by
      rw [abs_mul]
      exact mul_le_mul (abs_le.2 ⟨by linarith, by linarith⟩) htail (abs_nonneg _) zero_le_two
    have hlast : next * 12 ^ n * (((d + 2)! : ℝ) / (d + 2 + 2 * n)!) ≤
        t * 12 ^ (n + 1) * ((d ! : ℝ) / (d + 2 * (n + 1))!) := by
      calc next * 12 ^ n * (((d + 2)! : ℝ) / (d + 2 + 2 * n)!)
          ≤ t * (12 / ((d + 1) * (d + 2))) * 12 ^ n * (((d + 2)! : ℝ) / (d + 2 + 2 * n)!) := by gcongr
        _ = t * 12 ^ (n + 1) * ((d ! : ℝ) / (d + 2 * (n + 1))!) := by
          rw [show d + 2 * (n + 1) = d + 2 + 2 * n by ring, Nat.factorial_succ (d + 1), Nat.factorial_succ d]
          push_cast
          field_simp
          ring
    have hscale := mul_le_mul_of_nonneg_left hlast (Real.cosh_pos x).le
    rw [abs_le] at hinduction hround ⊢
    push_cast at hinduction ⊢
    constructor <;> linarith

end WideAngle

theorem cosh_le_of_le_four {x : ℝ} (h0 : 0 ≤ x) (hx : x ≤ 4) : Real.cosh x ≤ 64 := by
  have hexp : Real.exp 4 ≤ 64 := by
    have hone : Real.exp 1 ≤ 2.8 := by linarith [Real.exp_one_lt_d9]
    calc Real.exp 4 = Real.exp 1 ^ 4 := by
          rw [← Real.exp_nat_mul]
          norm_num
      _ ≤ 2.8 ^ 4 := pow_le_pow_left₀ (Real.exp_pos 1).le hone 4
      _ ≤ 64 := by norm_num
  have hsmall : Real.exp (-x) ≤ Real.exp x := Real.exp_le_exp.2 (by linarith)
  have hlarge : Real.exp x ≤ Real.exp 4 := Real.exp_le_exp.2 hx
  rw [Real.cosh_eq]
  linarith

/-- 48 terms at 256 fraction bits, as `cosOfBits` takes them: the first term left out is below one unit. -/
theorem abs_cosFixed_256_sub_le {a : ℕ} (ha : ((a : ℝ) / 2 ^ 256) ^ 2 ≤ 12) :
    |(cosFixed 256 48 a : ℝ) - 2 ^ 256 * Real.cos (a / 2 ^ 256)| ≤ 2 ^ 13 := by
  have hseries :=
    abs_alternatingSeries_sub_le_wide (d := 0) (t := 2 ^ 256) ha 48 (Nat.le_mul_of_pos_right _ (by norm_num))
  have hnonneg : (0 : ℝ) ≤ a / 2 ^ 256 := by positivity
  have hcosh := cosh_le_of_le_four hnonneg (by nlinarith)
  have hlast : (2 : ℝ) ^ 256 * 12 ^ 48 * ((0 ! : ℝ) / (0 + 2 * 48)!) ≤ 1 := by norm_num [Nat.factorial]
  rw [seriesTail_zero, Nat.cast_pow, Nat.cast_ofNat] at hseries
  calc _ ≤ Real.cosh (a / 2 ^ 256) * (2 * (48 : ℕ) + 2 ^ 256 * 12 ^ 48 * ((0 ! : ℝ) / (0 + 2 * 48)!)) := hseries
    _ ≤ 64 * (2 * (48 : ℕ) + 1) := by gcongr
    _ ≤ 2 ^ 13 := by norm_num

end Sys2Proof.Machine
end

section
/-! PROOFS. `ACOS_F` (40_datapath.md R133): what the pattern searches find, and that the two patterns enclose the arc
cosine. -/

namespace Sys2Proof.Machine

/-! ## The angle of a pattern and its cosine -/

/-- The angle a magnitude pattern stands for. -/
noncomputable def bitsAngle (b : ℕ) : ℝ := magnitude b / 2 ^ 149

theorem bitsAngle_strictMono : StrictMono bitsAngle := fun _ _ h =>
  div_lt_div_of_pos_right (magnitude_cast_strictMono h) (by positivity)

theorem bitsAngle_nonneg (b : ℕ) : 0 ≤ bitsAngle b := by
  unfold bitsAngle
  positivity

theorem bitsAngle_zero : bitsAngle 0 = 0 := by
  rw [bitsAngle, show magnitude 0 = 0 from rfl, Nat.cast_zero, zero_div]

theorem bitsAngle_pi32 : bitsAngle 0x40490FDB = 13176795 / 2 ^ 22 := by
  have hmag : magnitude 0x40490FDB = 13176795 * 2 ^ 127 := by decide +kernel
  rw [bitsAngle, hmag]
  norm_num

theorem bitsAngle_pred_pi32 : bitsAngle 0x40490FDA = 13176794 / 2 ^ 22 := by
  have hmag : magnitude 0x40490FDA = 13176794 * 2 ^ 127 := by decide +kernel
  rw [bitsAngle, hmag]
  norm_num

theorem bitsAngle_le_pi {b : ℕ} (hb : b ≤ 0x40490FDA) : bitsAngle b ≤ Real.pi := by
  have hmono := bitsAngle_strictMono.monotone hb
  rw [bitsAngle_pred_pi32] at hmono
  linarith [Real.pi_gt_d20]

theorem pi_le_bitsAngle : Real.pi ≤ bitsAngle 0x40490FDB := by
  rw [bitsAngle_pi32]
  linarith [Real.pi_lt_d20]

theorem abs_cosOfBits_sub_le {b : ℕ} (hb : b ≤ 0x40490FDA) :
    |(cosOfBits b : ℝ) - 2 ^ 256 * Real.cos (bitsAngle b)| ≤ 2 ^ 13 := by
  have hangle : ((magnitude b * 2 ^ 107 : ℕ) : ℝ) / 2 ^ 256 = bitsAngle b := by
    rw [bitsAngle, Nat.cast_mul, Nat.cast_pow, Nat.cast_ofNat, show 256 = 149 + 107 from rfl, pow_add,
      mul_div_mul_right _ _ (by positivity)]
  have hle := bitsAngle_le_pi hb
  have hnonneg := bitsAngle_nonneg b
  have hpi := Real.pi_lt_d6
  have h := abs_cosFixed_256_sub_le (a := magnitude b * 2 ^ 107) (by rw [hangle]; nlinarith)
  rwa [hangle] at h

/-! ## Between patterns and the arc cosine -/

theorem bitsAngle_le_arccos {b : ℕ} {x : ℝ} (hb : b ≤ 0x40490FDA) (h : x ≤ Real.cos (bitsAngle b)) :
    bitsAngle b ≤ Real.arccos x := by
  rw [← Real.arccos_cos (bitsAngle_nonneg b) (bitsAngle_le_pi hb)]
  exact Real.arccos_le_arccos h

theorem arccos_le_bitsAngle {b : ℕ} {x : ℝ} (hb : b ≤ 0x40490FDA) (h : Real.cos (bitsAngle b) ≤ x) :
    Real.arccos x ≤ bitsAngle b := by
  rw [← Real.arccos_cos (bitsAngle_nonneg b) (bitsAngle_le_pi hb)]
  exact Real.arccos_le_arccos h

/-- Cosines of angles up to π fall at least with the square of the distance. -/
theorem sq_sub_le_cos_sub_cos {u v : ℝ} (hu : 0 ≤ u) (huv : u ≤ v) (hv : v ≤ Real.pi) :
    (v - u) ^ 2 / 8 ≤ Real.cos u - Real.cos v := by
  have hpi := Real.pi_pos
  have hpi4 : Real.pi ≤ 4 := Real.pi_le_four
  have hhalf : (v - u) / 4 ≤ Real.sin ((v - u) / 2) := by
    refine le_trans ?_ (Real.mul_le_sin (by linarith) (by linarith))
    rw [div_mul_eq_mul_div, le_div_iff₀ hpi]
    nlinarith
  have hmiddle : Real.sin ((v - u) / 2) ≤ Real.sin ((v + u) / 2) := by
    rcases le_total ((v + u) / 2) (Real.pi / 2) with hle | hle
    · exact Real.sin_le_sin_of_le_of_le_pi_div_two (by linarith) hle (by linarith)
    · rw [← Real.sin_pi_sub ((v + u) / 2)]
      exact Real.sin_le_sin_of_le_of_le_pi_div_two (by linarith) (by linarith) (by linarith)
  have hproduct : Real.cos u - Real.cos v = 2 * Real.sin ((v + u) / 2) * Real.sin ((v - u) / 2) := by
    rw [Real.cos_sub_cos, add_comm u, ← neg_sub v u, neg_div, Real.sin_neg]
    ring
  rw [hproduct]
  nlinarith

/-! ## The pattern search -/

/-- A pattern the search may take: below π, with a cosine of at least the target. -/
def Admissible (target : ℤ) (b : ℕ) : Prop := b ≤ 0x40490FDA ∧ target ≤ cosOfBits b

/-- The search stops at 0 or an admissible pattern, whose successor is not admissible. -/
theorem acosDigits_spec {target : ℤ} (fuel : ℕ) {w : ℕ} (hlow : w = 0 ∨ Admissible target w)
    (hhigh : ¬ Admissible target (w + 2 ^ fuel)) :
    (acosDigits target fuel w = 0 ∨ Admissible target (acosDigits target fuel w)) ∧
      ¬ Admissible target (acosDigits target fuel w + 1) := by
  induction fuel generalizing w with
  | zero => exact ⟨hlow, hhigh⟩
  | succ fuel ih =>
    rw [acosDigits]
    split_ifs with hbit
    · apply ih (.inr hbit)
      rwa [Nat.add_assoc, ← Nat.two_mul, ← Nat.pow_succ']
    · exact ih hlow hbit

theorem acosDigits_spec_31 (target : ℤ) :
    (acosDigits target 31 0 = 0 ∨ Admissible target (acosDigits target 31 0)) ∧
      ¬ Admissible target (acosDigits target 31 0 + 1) :=
  acosDigits_spec 31 (.inl rfl) fun h => absurd h.1 (by norm_num)

theorem acosDigits_le (target : ℤ) : acosDigits target 31 0 ≤ 0x40490FDA := by
  rcases (acosDigits_spec_31 target).1 with hzero | ⟨hle, -⟩
  · rw [hzero]
    exact Nat.zero_le _
  · exact hle

theorem Admissible.le_cos {target : ℤ} {b : ℕ} (h : Admissible target b) :
    (target : ℝ) - 2 ^ 13 ≤ 2 ^ 256 * Real.cos (bitsAngle b) := by
  obtain ⟨hle, htarget⟩ := h
  have hcos := (abs_le.1 (abs_cosOfBits_sub_le hle)).2
  have htarget' : (target : ℝ) ≤ cosOfBits b := Int.cast_le.2 htarget
  linarith

theorem cos_le_of_not_admissible {target : ℤ} {b : ℕ} (hb : b ≤ 0x40490FDA) (h : ¬ Admissible target b) :
    2 ^ 256 * Real.cos (bitsAngle b) ≤ target + 2 ^ 13 := by
  have hcos := (abs_le.1 (abs_cosOfBits_sub_le hb)).1
  have htarget : (cosOfBits b : ℝ) ≤ target := Int.cast_le.2 (not_le.1 fun hle => h ⟨hb, hle⟩).le
  linarith

/-! ## The two patterns -/

/-- What the two searches say of the arc cosine of `x`: the lower pattern's cosine is above `x`, the upper one's below it,
and the patterns next to them towards the arc cosine have cosines within 2^-230 of `x`. -/
structure AcosSearch (x : ℝ) (lo hi : ℕ) : Prop where
  low_le : lo ≤ 0x40490FDA
  high_le : hi ≤ 0x40490FDB
  high_pos : 0 < hi
  low : lo = 0 ∨ x < Real.cos (bitsAngle lo)
  low_succ : lo + 1 ≤ 0x40490FDA → Real.cos (bitsAngle (lo + 1)) ≤ x + 1 / 2 ^ 230
  high : hi ≤ 0x40490FDA → Real.cos (bitsAngle hi) < x
  high_pred : hi - 1 ≠ 0 → x - 1 / 2 ^ 230 ≤ Real.cos (bitsAngle (hi - 1))

theorem acosSearch (neg : Bool) (k : ℕ) :
    AcosSearch (signFactor neg * k / 2 ^ 149) (acosBelow neg k) (acosAbove neg k) := by
  have hscale : 2 ^ 256 * (signFactor neg * k / 2 ^ 149) = signFactor neg * k * 2 ^ 107 := by
    rw [show 256 = 149 + 107 from rfl, pow_add, mul_comm (2 ^ 149), mul_assoc,
      mul_div_cancel₀ _ (by positivity), mul_comm]
  have htarget (margin : ℤ) : ((signed neg k * 2 ^ 107 + margin : ℤ) : ℝ) =
      2 ^ 256 * (signFactor neg * k / 2 ^ 149) + margin := by
    rw [hscale, Int.cast_add, Int.cast_mul, signed_cast, Int.cast_pow, Int.cast_ofNat]
  obtain ⟨hlow, hlow'⟩ := acosDigits_spec_31 (signed neg k * 2 ^ 107 + cosMargin)
  obtain ⟨hhigh, hhigh'⟩ := acosDigits_spec_31 (signed neg k * 2 ^ 107 + -cosMargin)
  have hmargin : (cosMargin : ℝ) = 2 ^ 16 := by rw [cosMargin, Int.cast_pow, Int.cast_ofNat]
  have hsmall : (2 : ℝ) ^ 256 * (1 / 2 ^ 230) = 2 ^ 26 := by norm_num
  have hpos : (0 : ℝ) < 2 ^ 256 := by positivity
  have hlow_le := acosDigits_le (signed neg k * 2 ^ 107 + cosMargin)
  have hhigh_le := acosDigits_le (signed neg k * 2 ^ 107 + -cosMargin)
  rw [acosBelow, acosAbove, sub_eq_add_neg]
  generalize acosDigits (signed neg k * 2 ^ 107 + cosMargin) 31 0 = lo at *
  generalize acosDigits (signed neg k * 2 ^ 107 + -cosMargin) 31 0 = w at *
  refine ⟨hlow_le, Nat.succ_le_succ hhigh_le, Nat.succ_pos _, hlow.imp_right fun h => ?_, fun hle => ?_,
    fun hle => ?_, ?_⟩
  · have hcos := h.le_cos
    rw [htarget, hmargin] at hcos
    exact lt_of_mul_lt_mul_left (by linarith) hpos.le
  · have hcos := cos_le_of_not_admissible hle hlow'
    rw [htarget, hmargin] at hcos
    refine le_of_mul_le_mul_left ?_ hpos
    rw [mul_add, hsmall]
    linarith
  · have hcos := cos_le_of_not_admissible hle hhigh'
    rw [htarget, Int.cast_neg, hmargin] at hcos
    exact lt_of_mul_lt_mul_left (by linarith) hpos.le
  · rw [Nat.add_sub_cancel]
    intro hne
    have hcos := (hhigh.resolve_left hne).le_cos
    rw [htarget, Int.cast_neg, hmargin] at hcos
    refine le_of_mul_le_mul_left ?_ hpos
    rw [mul_sub, hsmall]
    linarith

/-! ## The enclosure -/

section Enclosure

variable {x : ℝ} {lo hi : ℕ} (h : AcosSearch x lo hi)
include h

theorem AcosSearch.low_le_arccos : bitsAngle lo ≤ Real.arccos x := by
  rcases h.low with rfl | hcos
  · rw [bitsAngle_zero]
    exact Real.arccos_nonneg x
  · exact bitsAngle_le_arccos h.low_le hcos.le

theorem AcosSearch.arccos_le_high : Real.arccos x ≤ bitsAngle hi := by
  rcases h.high_le.lt_or_eq with hlt | rfl
  · exact arccos_le_bitsAngle (by omega) (h.high (by omega)).le
  · exact (Real.arccos_le_pi x).trans pi_le_bitsAngle

theorem AcosSearch.low_lt_high : lo < hi := by
  have hpos := h.high_pos
  have hbound := h.low_le
  by_contra hle
  have hcos : Real.cos (bitsAngle lo) ≤ Real.cos (bitsAngle hi) :=
    Real.cos_le_cos_of_nonneg_of_le_pi (bitsAngle_nonneg hi) (bitsAngle_le_pi hbound)
      (bitsAngle_strictMono.monotone (not_lt.1 hle))
  have hlow := h.low.resolve_left (by omega)
  have hhigh := h.high (by omega)
  linarith

/-- Away from 1 the patterns lie so far apart that no two of them have cosines as close to `x` as the searches allow. -/
theorem AcosSearch.high_le_add_two (hx : x ≤ 1 - 1 / 2 ^ 24) : hi ≤ lo + 2 := by
  have hbound := h.high_le
  by_contra hfar
  have hu := h.low_succ (by omega)
  have hv := h.high_pred (by omega)
  have hpi := bitsAngle_le_pi (b := hi - 1) (by omega)
  have hu0 := bitsAngle_nonneg (lo + 1)
  have hstep : bitsAngle (lo + 1 + 1) ≤ bitsAngle (hi - 1) := bitsAngle_strictMono.monotone (by omega)
  have hgap : bitsAngle (lo + 1) ≤ 2 ^ 24 * (bitsAngle (lo + 1 + 1) - bitsAngle (lo + 1)) := by
    rw [bitsAngle, bitsAngle, ← sub_div, ← mul_div_assoc]
    exact div_le_div_of_nonneg_right (magnitude_gap (lo + 1)).le (by positivity)
  generalize bitsAngle (lo + 1) = u at *
  generalize bitsAngle (hi - 1) = v at *
  have hquadratic := Real.one_sub_sq_div_two_le_cos (x := u)
  have hu_large : 1 / 2 ^ 12 ≤ u := by
    refine le_of_sq_le_sq ?_ hu0
    linarith
  have hdistance : 1 / 2 ^ 36 ≤ v - u := by linarith
  have hfall := sq_sub_le_cos_sub_cos hu0 (by linarith) hpi
  have hsquare : (1 / 2 ^ 36) ^ 2 ≤ (v - u) ^ 2 := pow_le_pow_left₀ (by positivity) hdistance 2
  linarith

theorem AcosSearch.between (htwo : hi = lo + 2) : |Real.cos (bitsAngle (lo + 1)) - x| ≤ 1 / 2 ^ 200 := by
  have hbound := h.high_le
  have hupper := h.low_succ (by omega)
  have hlower := h.high_pred (by omega)
  rw [show hi - 1 = lo + 1 by omega] at hlower
  rw [abs_le]
  constructor <;> linarith

end Enclosure

/-! ## The unit -/

theorem acosF_of_absBits_gt {x : Word} (hx : isNaN32 x = true ∨ absBits x > 0x3F800000) : acosF x = canonicalNaN := by
  rcases hx with hnan | hlarge
  · simp only [acosF, unpack_of_isNaN32 hnan]
  · unfold acosF unpack
    split_ifs with hnan hinf
    · rfl
    · rfl
    · have hmag : 2 ^ 149 < magnitude (absBits x) := by
        rw [← magnitude_one32]
        exact magnitude_strictMono hlarge
      simp only [if_neg (Nat.zero_lt_of_lt hmag).ne', if_pos hmag]

theorem acosF_eq {x : Word} (hlt : absBits x < 0x3F800000) (hne : absBits x ≠ 0) :
    acosF x = pickNeighbour (Config.acosPick x) (acosBelow (signBit x) (magnitude (absBits x)))
      (acosAbove (signBit x) (magnitude (absBits x))) := by
  have hfinite : Finite32 x := hlt.trans (by decide)
  have hpos : magnitude 0 < magnitude (absBits x) := magnitude_strictMono (Nat.pos_of_ne_zero hne)
  have hmag : magnitude (absBits x) < 2 ^ 149 := by
    rw [← magnitude_one32]
    exact magnitude_strictMono hlt
  simp only [acosF, unpack_of_finite32 hfinite, if_neg (Nat.zero_lt_of_lt hpos).ne', if_neg hmag.not_gt,
    if_neg hmag.ne]

/-- A value of magnitude below 1 is at most 1 - 2^-24. -/
theorem val32_le_of_absBits_lt {x : Word} (h : absBits x < 0x3F800000) : (val32 x : ℝ) ≤ 1 - 1 / 2 ^ 24 := by
  have hpred : magnitude 0x3F7FFFFF = 16777215 * 2 ^ 125 := by decide +kernel
  have hmag : (magnitude (absBits x) : ℝ) ≤ magnitude 0x3F7FFFFF := magnitude_cast_strictMono.monotone (by omega)
  have hmag' : (magnitude (absBits x) : ℝ) ≤ 16777215 * 2 ^ 125 := by
    rw [hpred] at hmag
    exact_mod_cast hmag
  have hnonneg : (0 : ℝ) ≤ magnitude (absBits x) := Nat.cast_nonneg _
  rw [val32_cast, div_le_iff₀ (by positivity)]
  rcases signFactor_cases (signBit x) with ⟨hsign, -⟩ | ⟨hsign, -⟩ <;> rw [hsign] <;> linarith

/-- Settles O47: the searches enclose the arc cosine, and the unit picks from what they find. -/
theorem arcCosineUnitIsEnclosed : Obligations.ArcCosineUnitIsEnclosed := by
  refine ⟨by decide, by decide, by decide, by decide, fun x => acosF_of_absBits_gt, fun x hlt hne => ?_⟩
  have hsearch := acosSearch (signBit x) (magnitude (absBits x))
  have hunit := acosF_eq hlt hne
  rw [← val32_cast] at hsearch
  generalize acosBelow (signBit x) (magnitude (absBits x)) = below at *
  generalize acosAbove (signBit x) (magnitude (absBits x)) = above at *
  have hbound := hsearch.high_le
  have horder := hsearch.low_lt_high
  have hclose := hsearch.high_le_add_two (val32_le_of_absBits_lt hlt)
  obtain ⟨b, hb, hb', hpick⟩ := exists_pickNeighbour_eq (Config.acosPick x) horder.le
  dsimp only
  rw [hunit, hpick, toNat_withSign false (by omega), val32_withSign_false (by omega),
    val32_withSign_false (by omega)]
  refine ⟨hbound, by omega, hsearch.low_le_arccos, hsearch.arccos_le_high, fun htwo => ?_, hb, hb'⟩
  rw [val32_withSign_false (by omega)]
  exact hsearch.between htwo

end Sys2Proof.Machine
end

section
/-! PROOFS. NaN results (40_datapath.md R122): an operation answers the canonical NaN or a sign with at most the pattern
of infinity. -/

namespace Sys2Proof.Machine

/-- The word is the canonical NaN when it is a NaN at all. -/
def CanonicalResult (r : Word) : Prop := isNaN32 r = true → r = canonicalNaN

theorem canonicalResult_canonicalNaN : CanonicalResult canonicalNaN := fun _ => rfl

theorem canonicalResult_withSign (neg : Bool) {b : Nat} (hb : b ≤ infBits) : CanonicalResult (withSign neg b) := by
  intro hnan
  rw [isNaN32_iff, absBits_withSign neg (hb.trans_lt infBits_lt)] at hnan
  omega

theorem canonicalResult_infinity (neg : Bool) : CanonicalResult (infinity neg) := canonicalResult_withSign neg le_rfl

theorem canonicalResult_zero32 (neg : Bool) : CanonicalResult (zero32 neg) :=
  canonicalResult_withSign neg (Nat.zero_le _)

theorem canonicalResult_roundNearest (neg : Bool) (p q : Nat) : CanonicalResult (roundNearest neg p q) :=
  canonicalResult_withSign neg (min_le_right _ _)

theorem canonicalResult_addFinite (m : Bool) (k : Nat) (n : Bool) (l : Nat) : CanonicalResult (addFinite m k n l) := by
  unfold addFinite
  dsimp only
  split_ifs
  · exact canonicalResult_zero32 _
  · exact canonicalResult_roundNearest _ _ _

theorem canonicalResult_add32 (a b : Word) : CanonicalResult (add32 a b) := by
  unfold add32
  split
  · exact canonicalResult_canonicalNaN
  · exact canonicalResult_canonicalNaN
  · split_ifs
    · exact canonicalResult_infinity _
    · exact canonicalResult_canonicalNaN
  · exact canonicalResult_infinity _
  · exact canonicalResult_infinity _
  · exact canonicalResult_addFinite _ _ _ _

theorem canonicalResult_mul32 (a b : Word) : CanonicalResult (mul32 a b) := by
  unfold mul32
  split
  · exact canonicalResult_canonicalNaN
  · exact canonicalResult_canonicalNaN
  · exact canonicalResult_infinity _
  · split_ifs
    · exact canonicalResult_canonicalNaN
    · exact canonicalResult_infinity _
  · split_ifs
    · exact canonicalResult_canonicalNaN
    · exact canonicalResult_infinity _
  · exact canonicalResult_roundNearest _ _ _

theorem canonicalResult_div32 (a b : Word) : CanonicalResult (div32 a b) := by
  unfold div32
  split
  · exact canonicalResult_canonicalNaN
  · exact canonicalResult_canonicalNaN
  · exact canonicalResult_canonicalNaN
  · exact canonicalResult_infinity _
  · exact canonicalResult_zero32 _
  · split_ifs
    · exact canonicalResult_canonicalNaN
    · exact canonicalResult_infinity _
    · exact canonicalResult_roundNearest _ _ _

theorem canonicalResult_sqrt32 (a : Word) : CanonicalResult (sqrt32 a) := by
  unfold sqrt32
  split
  · exact canonicalResult_canonicalNaN
  · split_ifs
    · exact canonicalResult_canonicalNaN
    · exact canonicalResult_infinity _
  · split_ifs
    · exact canonicalResult_zero32 _
    · exact canonicalResult_canonicalNaN
    · exact canonicalResult_roundNearest _ _ _

theorem canonicalResult_pickNeighbour (pick : Neighbour) {below above : Nat} (h : below ≤ above)
    (habove : above ≤ infBits) : CanonicalResult (pickNeighbour pick below above) := by
  obtain ⟨b, -, hb, hpick⟩ := exists_pickNeighbour_eq pick h
  rw [hpick]
  exact canonicalResult_withSign false (hb.trans habove)

theorem canonicalResult_expF (a : Word) : CanonicalResult (expF a) := by
  unfold expF
  split
  · exact canonicalResult_canonicalNaN
  · split_ifs
    · exact canonicalResult_zero32 false
    · exact canonicalResult_infinity _
  · next neg k _ =>
    have henclosed := enclosesUpToInf_signed neg k
    have hadjacent := henclosed.adjacent
    split_ifs
    · exact canonicalResult_withSign false (b := 0x3F800000) (by decide)
    · exact canonicalResult_zero32 false
    · exact canonicalResult_pickNeighbour _ (by omega) henclosed.high_le

theorem canonicalResult_acosF (a : Word) : CanonicalResult (acosF a) := by
  unfold acosF
  split
  · exact canonicalResult_canonicalNaN
  · exact canonicalResult_canonicalNaN
  · next neg k _ =>
    have hsearch := acosSearch neg k
    have hlt := hsearch.low_lt_high
    split_ifs
    · exact canonicalResult_withSign false (b := 0x3FC90FDB) (by decide)
    · exact canonicalResult_canonicalNaN
    · exact canonicalResult_withSign false (b := 0x40490FDB) (by decide)
    · exact canonicalResult_zero32 false
    · exact canonicalResult_pickNeighbour _ hlt.le (hsearch.high_le.trans (by decide))

theorem expF_nan {a : Word} (h : isNaN32 a = true) : expF a = canonicalNaN := by
  simp only [expF, unpack_of_isNaN32 h]

theorem acosF_nan {a : Word} (h : isNaN32 a = true) : acosF a = canonicalNaN := acosF_of_absBits_gt (.inl h)

/-- Settles O39: every operation answers a canonical result, and the canonical NaN for a NaN operand. -/
theorem nanResultsAreCanonical : Obligations.NanResultsAreCanonical := by
  refine ⟨fun a b => ?_, fun a b h => ⟨add32_nan h, sub32_nan h, mul32_nan h, div32_nan h⟩,
    fun a h => ⟨sqrt32_nan h, expF_nan h, acosF_nan h⟩⟩
  simp only [List.forall_mem_cons]
  exact ⟨canonicalResult_add32 a b, canonicalResult_add32 a (neg32 b), canonicalResult_mul32 a b,
    canonicalResult_div32 a b, canonicalResult_sqrt32 a, canonicalResult_expF a, canonicalResult_acosF a,
    List.forall_mem_nil _⟩

end Sys2Proof.Machine
end
